-- ==== Sys2Proof/Word.lean ====
section
/-!
DEFINITION. The machine's words (00_scope.md R6, R7): bytes, 16-bit words, and the seven one-bit status flags of
10_state.md R25. The bit-field, byte-order and sign-extension helpers are in Sys2Proof/Machine/Bits.lean.
-/

namespace Sys2Proof

/-- An 8-bit value: A, X, Y, S, a bus byte (00_scope.md R5, R7). -/
abbrev Byte := BitVec 8

/-- A 16-bit value: PC, an address, a pointer (00_scope.md R5, R7). -/
abbrev Word := BitVec 16

/-- The seven individually stored one-bit flags (10_state.md R25). The status byte P is never stored (R28). -/
structure Flags where
  /-- sign (negative) -/
  n : Bool
  /-- overflow -/
  v : Bool
  /-- break, a stored flag (90_conflicts.md C5) -/
  b : Bool
  /-- decimal mode -/
  d : Bool
  /-- interrupt disable -/
  i : Bool
  /-- zero -/
  z : Bool
  /-- carry -/
  c : Bool
deriving DecidableEq, Repr

end Sys2Proof
end

