-- ==== Sys2Proof/Machine/Bits.lean ====
section
/-!
DEFINITION. Byte order, extension and bit helpers (00_scope.md R6, R7, 20_memory.md R55): used by the decoder, the
operand forms and the flag computations.
-/

namespace Sys2Proof

/-- `(hi << 8) | lo`: the 16-bit value of a little-endian pair of bytes (20_memory.md R55, 30_encoding.md R83). -/
def wordOf (lo hi : Byte) : Word := (hi.zeroExtend 16 <<< 8) ||| lo.zeroExtend 16

/-- The low byte of a word, `w & 0xFF`. -/
def lowByte (w : Word) : Byte := w.truncate 8

/-- The high byte of a word, `w >> 8`. -/
def highByte (w : Word) : Byte := (w >>> 8).truncate 8

/-- `zext_16(b)` (00_scope.md R7). -/
def zext16 (b : Byte) : Word := b.zeroExtend 16

/-- `sext_16(b)`: `b` if `b < 0x80`, else `b + 0xFF00` (00_scope.md R7). -/
def sext16 (b : Byte) : Word := if b < 0x80#8 then b.zeroExtend 16 else b.zeroExtend 16 + 0xFF00#16

/-- `v[k]` of a byte, as a flag (00_scope.md R6). -/
def bitAt (v : Byte) (k : Nat) : Bool := v.getLsbD k

/-- A flag as a byte, 0 or 1. -/
def bitByte (f : Bool) : Byte := if f then 1#8 else 0#8

end Sys2Proof
end

