-- ==== Sys2Proof/Config.lean ====
section
/-!
DEFINITION. What one core's configuration fixes (00_scope.md R5), as plain data that State carries and nothing writes
(log entry 1), and the free values: what an adapter answers (20_memory.md R51, R54, log entry 5) and the `draw()` of
00_scope.md R9 (log entry 7). The free values have no body, so no proof can tell what they are.
-/

namespace Sys2Proof

/-- The parameters of 00_scope.md R5 that a model takes as arguments. Claims quantify over all of them. -/
structure Config where
  /-- `UNDEF_CYCLES`, OPEN: cost of an undefined opcode (48_undefined_opcodes.md R260) -/
  undefCycles : Nat
  /-- `INT_ENTRY_CYCLES`, OPEN: cost of a serviced NMI or IRQ (60_exceptions.md R313) -/
  intEntryCycles : Nat
  /-- `DECIMAL_MODE`: ADC and SBC honour D (44_arith_logic.md R183, R184) -/
  decimalMode : Bool
  /-- `JMP_IND_PAGE_WRAP`: JMP (ind) takes its high byte from the same page (41_addressing_modes.md R130) -/
  jmpIndPageWrap : Bool
  /-- `RESET_A`, OPEN (10_state.md R39) -/
  resetA : Byte
  /-- `RESET_X`, OPEN (10_state.md R39) -/
  resetX : Byte
  /-- `RESET_Y`, OPEN (10_state.md R39) -/
  resetY : Byte
  /-- `RESET_S`, OPEN (10_state.md R39) -/
  resetS : Byte
  /-- `RESET_FLAGS`, OPEN (10_state.md R39) -/
  resetFlags : Flags
deriving DecidableEq, Repr

/-- The reference values of 00_scope.md R5 and 10_state.md R39.
DESIGN CHOICE (log entries 1 and 2): the source gives none of the OPEN ones, and the reset values are unsafe. -/
def Config.reference : Config where
  undefCycles := 0
  intEntryCycles := 7
  decimalMode := true
  jmpIndPageWrap := true
  resetA := 0x00#8
  resetX := 0x00#8
  resetY := 0x00#8
  resetS := 0xFF#8
  resetFlags := ⟨false, false, false, false, true, false, false⟩

/-- One call of the bus adapter (20_memory.md R51, R52, R54). -/
inductive BusEvent where
  /-- the adapter's Read at `addr` answered `value` -/
  | read (addr : Word) (value : Byte)
  /-- the adapter's Write was called with `addr` and `value` -/
  | write (addr : Word) (value : Byte)
deriving DecidableEq, Repr

/-- Which (Read, Write) pair Setup stored (10_state.md R35). Log entry 5. -/
inductive Bus where
  /-- the default no-op stubs: reads return 0, writes are discarded (20_memory.md R53) -/
  | stub
  /-- plain memory: a read returns the last value written (20_memory.md R54) -/
  | ram
  /-- any other adapter a host supplies, by a number: what it answers is free (20_memory.md R51, R54) -/
  | adapter (number : Nat)
deriving DecidableEq, Repr

/-- FREE VALUE (93_implementation_defined.md U12, U13): what adapter `number` answers to a Read of `addr`, given all
earlier bus calls, latest first. It may depend on all of them, so it stands for any adapter. -/
opaque adapterAnswer (number : Nat) (earlier : List BusEvent) (addr : Word) : Byte

/-- FREE VALUE (00_scope.md R9, 93_implementation_defined.md U6, U7): the one-bit `draw()` number `k`. -/
opaque freeBit (k : Nat) : Bool

/-- FREE VALUE (00_scope.md R9, 93_implementation_defined.md U7): the one-byte `draw()` number `k`. -/
opaque freeByte (k : Nat) : Byte

end Sys2Proof
end

