-- ==== Sys2Proof/Machine/State.lean ====
section
/-!
DEFINITION. The state of one core (10_state.md R20) as plain data, why a host call can be refused, and the state after
reset. Every update goes through the setters here or the named operations of Ops.lean.
-/

namespace Sys2Proof.Machine

/-- The contents of the plain RAM adapter: (address, byte) pairs, addresses strictly rising, no byte equal to what an
unlisted address reads as (Memory.wf in Machine/Memory.lean). 20_memory.md R50, R54. -/
abbrev Memory := List Host.Cell

/-- The complete state of one core. -/
structure State where
  /-- A, the accumulator (10_state.md R21) -/
  a : Byte
  /-- X, an index register (10_state.md R22) -/
  x : Byte
  /-- Y, an index register (10_state.md R22) -/
  y : Byte
  /-- S, the stack pointer (10_state.md R23) -/
  sp : Byte
  /-- PC, the program counter (10_state.md R24) -/
  pc : Word
  /-- the seven stored flags (10_state.md R25) -/
  flags : Flags
  /-- the cycle accumulator, a mathematical integer (10_state.md R33) -/
  cycles : Int
  /-- cycles per frame, no value before Setup (10_state.md R34, R40) -/
  cyclesPerFrame : Option Nat
  /-- which adapter Setup stored (10_state.md R35) -/
  bus : Bus
  /-- how many undefined opcodes ExecuteOne has dispatched (10_state.md R36) -/
  undefCount : Nat
  /-- the contents of the plain RAM adapter (20_memory.md R54, log entry 4) -/
  mem : Memory
  /-- every bus call made, latest first (20_memory.md R54, log entry 6) -/
  busLog : List BusEvent
  /-- has Reset run (10_state.md R40, log entry 8) -/
  resetDone : Bool
  /-- the model's own: how many free values have been drawn (00_scope.md R9, log entry 7) -/
  draws : Nat
  /-- the model's own: did the latest ExecuteOne return 1 (40_execution_cycle.md R101, log entry 9) -/
  frameSignal : Bool
  /-- the parameters of 00_scope.md R5, which nothing writes (log entry 1) -/
  config : Config
deriving DecidableEq, Repr

/-- Why the machine stops with a fault. There is no such reason: the core raises no exception and no access can fault
(60_exceptions.md R300, 20_memory.md R61; 93_implementation_defined.md, "No behaviour of this core is treated as `fault`").
Nothing raises a fault. Safe. -/
inductive Fault where
deriving DecidableEq, Repr

/-- Why a host call has no meaning. -/
inductive Refusal where
  /-- Raised by an arm of exec whose instruction has no meaning yet. Safe. No arm raises it. -/
  | notModelled (mnemonic : String)
  /-- Raised by ExecuteOne, TriggerNMI, TriggerIRQ and GetStatus before the first Reset (10_state.md R40, U1). Safe. -/
  | resetNotRun
  /-- Raised by ExecuteOne before any Setup (40_execution_cycle.md R101, U4). Safe. -/
  | setupNotRun
  /-- Raised by Setup with a frame rate of 0 (40_execution_cycle.md R106, U3). Safe. -/
  | zeroFrameRate
  /-- Raised by Setup with a null or invalid adapter (40_execution_cycle.md R106, U2). Safe. -/
  | invalidAdapter
deriving DecidableEq, Repr

/-- What every meaning and every step answers. -/
abbrev Result := Host.Outcome State Fault Refusal

/-- `A <- v` (00_scope.md R8). -/
def State.setA (s : State) (v : Byte) : State := { s with a := v }

/-- `X <- v` (00_scope.md R8). -/
def State.setX (s : State) (v : Byte) : State := { s with x := v }

/-- `Y <- v` (00_scope.md R8). -/
def State.setY (s : State) (v : Byte) : State := { s with y := v }

/-- `S <- v` (00_scope.md R8). -/
def State.setSp (s : State) (v : Byte) : State := { s with sp := v }

/-- `PC <- v` (00_scope.md R8). -/
def State.setPc (s : State) (v : Word) : State := { s with pc := v }

/-- Writes the flags (00_scope.md R8). -/
def State.setFlags (s : State) (f : Flags) : State := { s with flags := f }

/-- `cycles <- v` (10_state.md R33). -/
def State.setCycles (s : State) (v : Int) : State := { s with cycles := v }

/-- Stores what ExecuteOne returns (40_execution_cycle.md R101, log entry 9). -/
def State.setFrameSignal (s : State) (v : Bool) : State := { s with frameSignal := v }

/-- Writes the contents of the plain RAM adapter. -/
def State.setMem (s : State) (m : Memory) : State := { s with mem := m }

/-- Records bus calls, latest first, before those already recorded (20_memory.md R54). -/
def State.logged (s : State) (events : List BusEvent) : State := { s with busLog := events ++ s.busLog }

/-- Moves the draw counter on (log entry 7). -/
def State.setDraws (s : State) (k : Nat) : State := { s with draws := k }

/-- A new core before any host call (10_state.md R35, R40): the bus is the stubs, `cyclesPerFrame` holds no value, and
every call but Setup and Reset is refused. Its registers hold no value in the spec; the zeros here are never read,
because `resetDone` is false (log entry 8). -/
def State.created : State where
  a := 0
  x := 0
  y := 0
  sp := 0
  pc := 0
  flags := ⟨false, false, false, false, false, false, false⟩
  cycles := 0
  cyclesPerFrame := none
  bus := .stub
  undefCount := 0
  mem := []
  busLog := []
  resetDone := false
  draws := 0
  frameSignal := false
  config := .reference

/-- The machine right after reset (10_state.md R39, 70_reset_and_hazards.md R340): what the boot order of R345 leaves,
Setup with plain RAM, 1000000 Hz and 50 Hz, then Reset, with the reference constants (log entries 2, 3, 4). The two bus
calls recorded are the vector reads of R341. -/
def State.reset : State where
  a := 0x00#8
  x := 0x00#8
  y := 0x00#8
  sp := 0xFF#8
  pc := 0x0000#16
  flags := ⟨false, false, false, false, true, false, false⟩
  cycles := 0
  cyclesPerFrame := some 20000
  bus := .ram
  undefCount := 0
  mem := []
  busLog := [.read 0xFFFD#16 0x00#8, .read 0xFFFC#16 0x00#8]
  resetDone := true
  draws := 0
  frameSignal := false
  config := .reference

end Sys2Proof.Machine
end

