-- ==== Sys2Proof/Machine/Flags.lean ====
section
/-!
DEFINITION. The status byte and every flag and ALU computation of the spec (10_state.md R28, R29, R31, 44_arith_logic.md
R180 to R182, R188, R192, 45_inc_dec_shift.md R200, R201, R206 to R209).
-/

namespace Sys2Proof

/-- `pack()` (10_state.md R28): N V 1 B D I Z C, bit 5 always 1. -/
def Flags.pack (f : Flags) : Byte :=
  (bitByte f.n <<< 7) ||| (bitByte f.v <<< 6) ||| (1#8 <<< 5) ||| (bitByte f.b <<< 4) |||
  (bitByte f.d <<< 3) ||| (bitByte f.i <<< 2) ||| (bitByte f.z <<< 1) ||| bitByte f.c

/-- `unpack(b)` (10_state.md R29): all seven flags, bit 5 ignored. -/
def Flags.unpack (b : Byte) : Flags where
  n := bitAt b 7
  v := bitAt b 6
  b := bitAt b 4
  d := bitAt b 3
  i := bitAt b 2
  z := bitAt b 1
  c := bitAt b 0

/-- `setNZ(v)` (10_state.md R31). -/
def Flags.setNZ (f : Flags) (v : Byte) : Flags := { f with n := bitAt v 7, z := v == 0#8 }

/-- The carry-in as a number. -/
def carryIn (c : Bool) : Nat := if c then 1 else 0

/-- The result of the binary adder: `r`, `cout`, `v` (44_arith_logic.md R180). -/
structure Sum where
  r : Byte
  cout : Bool
  v : Bool
deriving DecidableEq, Repr

/-- The binary adder `add8(a, m, cin)` (44_arith_logic.md R180). -/
def add8 (a m : Byte) (cin : Bool) : Sum :=
  let s := a.toNat + m.toNat + carryIn cin
  let r := BitVec.ofNat 8 s
  ⟨r, decide (s > 0xFF), ((a ^^^ r) &&& (m ^^^ r) &&& 0x80#8) != 0#8⟩

/-- The high decimal digit, `x[7:4]` (44_arith_logic.md R181). -/
def highDigit (x : Byte) : Nat := x.toNat / 16

/-- The low decimal digit, `x[3:0]` (44_arith_logic.md R181). -/
def lowDigit (x : Byte) : Nat := x.toNat % 16

/-- `dec(x) = 10 * x[7:4] + x[3:0]` (44_arith_logic.md R181). -/
def dec (x : Byte) : Nat := 10 * highDigit x + lowDigit x

/-- `bcd(n) = ((n / 10) << 4) | (n mod 10)` (44_arith_logic.md R181). -/
def bcd (n : Nat) : Byte := BitVec.ofNat 8 (((n / 10) <<< 4) ||| (n % 10))

/-- Valid BCD: both digits at most 9 (44_arith_logic.md R181). -/
def validBcd (x : Byte) : Bool := decide (highDigit x ≤ 9) && decide (lowDigit x ≤ 9)

/-- `dadd(a, m, cin)` (44_arith_logic.md R181): the result and the carry, and none where the spec draws both. -/
def dadd (a m : Byte) (cin : Bool) : Option (Byte × Bool) :=
  if validBcd a && validBcd m then
    let t := dec a + dec m + carryIn cin
    some (bcd (t % 100), decide (t > 99))
  else none

/-- `dsub(a, m, cin)` (44_arith_logic.md R182): the result and the carry (no borrow), and none where the spec draws both. -/
def dsub (a m : Byte) (cin : Bool) : Option (Byte × Bool) :=
  if validBcd a && validBcd m then
    let t : Int := (dec a : Int) - (dec m : Int) - (1 - (carryIn cin : Int))
    some (bcd (t % 100).toNat, decide (t ≥ 0))
  else none

/-- `compare(r, m)` (44_arith_logic.md R188): C, Z and N. -/
def Flags.compare (f : Flags) (r m : Byte) : Flags :=
  { f with c := decide (r.toNat ≥ m.toNat), z := r == m, n := bitAt (r - m) 7 }

/-- The flags of BIT (44_arith_logic.md R192): Z from `A & m`, N and V from m. -/
def Flags.bitTest (f : Flags) (a m : Byte) : Flags :=
  { f with z := (a &&& m) == 0#8, n := bitAt m 7, v := bitAt m 6 }

/-- A read-modify-write function: the new value, and the flags it wrote before setNZ (41_addressing_modes.md R136). -/
abbrev Modify := Byte → Flags → Byte × Flags

/-- `v => (v + 1) & 0xFF` (45_inc_dec_shift.md R200). -/
def incByte : Modify := fun v f => (v + 1#8, f)

/-- `v => (v - 1) & 0xFF` (45_inc_dec_shift.md R201). -/
def decByte : Modify := fun v f => (v - 1#8, f)

/-- ASL: C from bit 7, `(v << 1) & 0xFF` (45_inc_dec_shift.md R206). -/
def aslByte : Modify := fun v f => (v <<< 1, { f with c := bitAt v 7 })

/-- LSR: C from bit 0, `v >> 1` (45_inc_dec_shift.md R207). -/
def lsrByte : Modify := fun v f => (v >>> 1, { f with c := bitAt v 0 })

/-- ROL: C from bit 7, `((v << 1) | c) & 0xFF` with the old carry c (45_inc_dec_shift.md R208). -/
def rolByte : Modify := fun v f => ((v <<< 1) ||| bitByte f.c, { f with c := bitAt v 7 })

/-- ROR: C from bit 0, `(v >> 1) | (c << 7)` with the old carry c (45_inc_dec_shift.md R209). -/
def rorByte : Modify := fun v f => ((v >>> 1) ||| (bitByte f.c <<< 7), { f with c := bitAt v 0 })

end Sys2Proof

namespace Sys2Proof.Machine

/-- `setNZ(v)` on the state's flags (10_state.md R31). -/
def State.setNZ (s : State) (v : Byte) : State := s.setFlags (s.flags.setNZ v)

/-- `pack()` of the state's flags (10_state.md R28). -/
def State.pack (s : State) : Byte := s.flags.pack

end Sys2Proof.Machine
end

