-- ==== Sys2Proof/Machine/Memory.lean ====
section
/-!
DEFINITION. The plain RAM adapter's contents: 65,536 bytes as a list of (address, byte) pairs in one canonical form
(20_memory.md R50, R54, log entry 4).
-/

namespace Sys2Proof.Machine

/-- What a byte that nothing has written reads as: "0 where nothing was written" (20_memory.md R54).
DESIGN CHOICE (log entry 4): the plain memory of the spec's vectors. Unsafe for claims that read unwritten bytes. -/
def Memory.unlisted : Byte := 0#8

/-- The byte at an address. -/
def Memory.read : Memory → Nat → Byte
  | [], _ => Memory.unlisted
  | (k, v) :: rest, a => if k = a then v else Memory.read rest a

/-- Lists a byte at the front, unless it is what an unlisted address reads as. -/
def Memory.place (a : Nat) (v : Byte) (rest : Memory) : Memory := if v = Memory.unlisted then rest else (a, v) :: rest

/-- Writes a byte, keeping the canonical form. -/
def Memory.write : Memory → Nat → Byte → Memory
  | [], a, v => Memory.place a v []
  | (k, w) :: rest, a, v =>
    if a < k then Memory.place a v ((k, w) :: rest)
    else if a = k then Memory.place a v rest
    else (k, w) :: Memory.write rest a v

/-- Are the addresses at least `low`, strictly rising and below 65,536, and is every byte unequal to the unlisted one? -/
def Memory.wfFrom : Nat → Memory → Bool
  | _, [] => true
  | low, (k, v) :: rest => decide (low ≤ k) && decide (k < 65536) && (v != Memory.unlisted) && Memory.wfFrom (k + 1) rest

/-- The canonical form. -/
def Memory.wf (m : Memory) : Bool := Memory.wfFrom 0 m

end Sys2Proof.Machine
end

