-- ==== Sys2Proof/Machine/Ops.lean ====
section
/-!
DEFINITION. The named operations over the bus, the stack and the program counter (20_memory.md R51 to R59), the draws
(00_scope.md R9), taking an interrupt (60_exceptions.md R304) and returning from one (46_control_transfer.md R223).
-/

namespace Sys2Proof.Machine

/-- What the adapter answers to a Read (20_memory.md R51, R53, R54): 0 from the stubs, the last value written from plain
RAM, a free value from any other adapter. -/
def State.busAnswer (s : State) (a : Word) : Byte :=
  match s.bus with
  | .stub => 0#8
  | .ram => s.mem.read a.toNat
  | .adapter k => adapterAnswer k s.busLog a

/-- `MemRead(addr, 1)`: one call of Read, recorded (20_memory.md R51, R54). -/
def State.memRead (a : Word) (s : State) : Byte × State :=
  (s.busAnswer a, s.logged [.read a (s.busAnswer a)])

/-- The contents of the plain RAM after one call of Write: only the plain RAM adapter keeps the byte there
(20_memory.md R52, R53, R54). -/
def State.memAfterWrite (s : State) (a : Word) (v : Byte) : Memory :=
  match s.bus with
  | .stub => s.mem
  | .ram => s.mem.write a.toNat v
  | .adapter _ => s.mem

/-- `MemWrite(addr, 1, v)`: one call of Write, recorded (20_memory.md R52, R54). -/
def State.memWrite (a : Word) (v : Byte) (s : State) : State :=
  (s.setMem (s.memAfterWrite a v)).logged [.write a v]

/-- `read16(a)`: low byte first, the second address modulo 2^16 (20_memory.md R55). -/
def State.read16 (a : Word) (s : State) : Word × State :=
  let (lo, s) := s.memRead a
  let (hi, s) := s.memRead (a + 1#16)
  (wordOf lo hi, s)

/-- `fetch8()`: the byte at PC, then PC + 1 modulo 2^16 (20_memory.md R56). -/
def State.fetch8 (s : State) : Byte × State :=
  let (v, s) := s.memRead s.pc
  (v, s.setPc (s.pc + 1#16))

/-- The address `0x0100 | S` (20_memory.md R58, R59). -/
def stackAddress (sp : Byte) : Word := 0x0100#16 ||| zext16 sp

/-- `push8(v)`: writes, then decrements S modulo 256 (20_memory.md R58). -/
def State.push8 (v : Byte) (s : State) : State :=
  let s := s.memWrite (stackAddress s.sp) v
  s.setSp (s.sp - 1#8)

/-- `pull8()`: increments S modulo 256, then reads (20_memory.md R59). -/
def State.pull8 (s : State) : Byte × State :=
  let s := s.setSp (s.sp + 1#8)
  s.memRead (stackAddress s.sp)

/-- A one-bit `draw()` (00_scope.md R9). -/
def State.drawBit (s : State) : Bool × State := (freeBit s.draws, s.setDraws (s.draws + 1))

/-- A one-byte `draw()` (00_scope.md R9). -/
def State.drawByte (s : State) : Byte × State := (freeByte s.draws, s.setDraws (s.draws + 1))

/-- The NMI vector (60_exceptions.md R305). -/
def nmiVector : Word := 0xFFFA#16

/-- The reset vector (60_exceptions.md R305). -/
def resetVector : Word := 0xFFFC#16

/-- The IRQ and BRK vector (60_exceptions.md R305). -/
def irqVector : Word := 0xFFFE#16

/-- `interruptEntry(vector)`, shared by BRK, NMI and IRQ (60_exceptions.md R304): push PC high, PC low and `pack()`,
set I, load PC from the vector. D and B are not changed. -/
def State.interruptEntry (vector : Word) (s : State) : State :=
  let s := s.push8 (highByte s.pc)
  let s := s.push8 (lowByte s.pc)
  let s := s.push8 s.pack
  let s := s.setFlags { s.flags with i := true }
  let (target, s) := s.read16 vector
  s.setPc target

/-- The return from an interrupt (46_control_transfer.md R223): pull all seven flags, then PC, low byte first. -/
def State.returnFromInterrupt (s : State) : State :=
  let (b, s) := s.pull8
  let s := s.setFlags (Flags.unpack b)
  let (lo, s) := s.pull8
  let (hi, s) := s.pull8
  s.setPc (wordOf lo hi)

end Sys2Proof.Machine
end

