-- ==== Sys2Proof/Syntax.lean ====
section
/-!
DEFINITION. The instruction set as syntax (30_encoding.md R81, R85, R86). One constructor of `Instr` for each of the 57
mnemonics of spec/opcode_table.json; its operand form and bytes say which of the table's 256 rows it is (log entry 11).
-/

namespace Sys2Proof

/-- The memory modes: those that compute an effective address (41_addressing_modes.md R124 to R129, R131, R132). -/
inductive Mem where
  /-- zero page, `$nn` -/
  | zp (a : Byte)
  /-- zero page indexed by X, `$nn,X` -/
  | zpx (a : Byte)
  /-- zero page indexed by Y, `$nn,Y` -/
  | zpy (a : Byte)
  /-- absolute, `$nnnn` -/
  | abs (a : Word)
  /-- absolute indexed by X, `$nnnn,X` -/
  | abx (a : Word)
  /-- absolute indexed by Y, `$nnnn,Y` -/
  | aby (a : Word)
  /-- zero-page indexed indirect, `($nn,X)` -/
  | izx (a : Byte)
  /-- zero-page indirect indexed, `($nn),Y` -/
  | izy (a : Byte)
deriving DecidableEq, Repr

/-- The operand of an instruction that reads data: immediate (41_addressing_modes.md R123) or memory. -/
inductive Src where
  | imm (v : Byte)
  | mem (m : Mem)
deriving DecidableEq, Repr

/-- The operand of a shift or rotate: the accumulator (41_addressing_modes.md R122) or memory. -/
inductive Dst where
  | acc
  | mem (m : Mem)
deriving DecidableEq, Repr

/-- The operand of JMP: absolute (41_addressing_modes.md R127) or indirect (R130). -/
inductive Target where
  | abs (a : Word)
  | ind (p : Word)
deriving DecidableEq, Repr

/-- The instructions: 30_encoding.md R85's 56 mnemonics, in its order, then the undefined opcodes of R86. -/
inductive Instr where
  -- 42_load_store_transfer.md
  | lda (src : Src)
  | ldx (src : Src)
  | ldy (src : Src)
  | sta (dst : Mem)
  | stx (dst : Mem)
  | sty (dst : Mem)
  | tax
  | tay
  | txa
  | tya
  | tsx
  | txs
  -- 43_stack.md
  | pha
  | php
  | pla
  | plp
  -- 44_arith_logic.md
  | adc (src : Src)
  | sbc (src : Src)
  | and (src : Src)
  | ora (src : Src)
  | eor (src : Src)
  | cmp (src : Src)
  | cpx (src : Src)
  | cpy (src : Src)
  | bit (src : Mem)
  -- 45_inc_dec_shift.md
  | inc (dst : Mem)
  | dec (dst : Mem)
  | inx
  | iny
  | dex
  | dey
  | asl (dst : Dst)
  | lsr (dst : Dst)
  | rol (dst : Dst)
  | ror (dst : Dst)
  -- 46_control_transfer.md
  | jmp (target : Target)
  | jsr (target : Word)
  | rts
  | rti
  | brk
  | bcc (rel : Byte)
  | bcs (rel : Byte)
  | beq (rel : Byte)
  | bne (rel : Byte)
  | bmi (rel : Byte)
  | bpl (rel : Byte)
  | bvc (rel : Byte)
  | bvs (rel : Byte)
  -- 47_flags_nop.md
  | clc
  | sec
  | cli
  | sei
  | cld
  | sed
  | clv
  | nop
  /-- one of the 105 opcode values with no documented instruction (48_undefined_opcodes.md R260) -/
  | undefined (opcode : Byte)
deriving DecidableEq, Repr

end Sys2Proof
end

