-- ==== Sys2Proof/Machine/Operands.lean ====
section
/-!
DEFINITION. Every operand form (41_addressing_modes.md): the effective address of the memory modes, the JMP and branch
targets, and the three access helpers load, store and modify. The operand bytes are already fetched, so PC holds the
address of the next instruction (R120).
-/

namespace Sys2Proof.Machine

/-- The 16-bit pointer in the zero page at `p`: its second byte is read at `(p + 1) & 0xFF`
(41_addressing_modes.md R131, R132). -/
def State.zeroPagePointer (p : Byte) (s : State) : Word × State :=
  let (lo, s) := s.memRead (zext16 p)
  let (hi, s) := s.memRead (zext16 (p + 1#8))
  (wordOf lo hi, s)

/-- The effective address of a memory mode, and the state after the mode's pointer reads
(41_addressing_modes.md R124 to R129, R131, R132). -/
def State.ea (m : Mem) (s : State) : Word × State :=
  match m with
  | .zp a => (zext16 a, s)
  | .zpx a => (zext16 (a + s.x), s)
  | .zpy a => (zext16 (a + s.y), s)
  | .abs a => (a, s)
  | .abx a => (a + zext16 s.x, s)
  | .aby a => (a + zext16 s.y, s)
  | .izx a => s.zeroPagePointer (a + s.x)
  | .izy a =>
    let (p, s) := s.zeroPagePointer a
    (p + zext16 s.y, s)

/-- `load()` (41_addressing_modes.md R134): the immediate with no bus call, or one read of the effective address. -/
def State.load (src : Src) (s : State) : Byte × State :=
  match src with
  | .imm v => (v, s)
  | .mem m =>
    let (a, s) := s.ea m
    s.memRead a

/-- `store(v)` (41_addressing_modes.md R135): one write of the effective address, no read of it. -/
def State.store (m : Mem) (v : Byte) (s : State) : State :=
  let (a, s) := s.ea m
  s.memWrite a v

/-- `modify(f)` (41_addressing_modes.md R136): on the accumulator, or one read and one write of the effective address.
`f` may also write flags. Answers the result `r`. -/
def State.modify (dst : Dst) (f : Modify) (s : State) : Byte × State :=
  match dst with
  | .acc =>
    let (r, flags) := f s.a s.flags
    (r, (s.setFlags flags).setA r)
  | .mem m =>
    let (a, s) := s.ea m
    let (v, s) := s.memRead a
    let (r, flags) := f v s.flags
    (r, (s.setFlags flags).memWrite a r)

/-- Where JMP (ind) reads the high byte of its target: in the pointer's own page when `JMP_IND_PAGE_WRAP`
(41_addressing_modes.md R130). -/
def jmpIndHighAddress (pageWrap : Bool) (ptr : Word) : Word :=
  if pageWrap then (ptr &&& 0xFF00#16) ||| ((ptr + 1#16) &&& 0x00FF#16) else ptr + 1#16

/-- The target of JMP (41_addressing_modes.md R127, R130). -/
def State.jumpTarget (t : Target) (s : State) : Word × State :=
  match t with
  | .abs a => (a, s)
  | .ind ptr =>
    let (lo, s) := s.memRead ptr
    let (hi, s) := s.memRead (jmpIndHighAddress s.config.jmpIndPageWrap ptr)
    (wordOf lo hi, s)

/-- The target of a branch: `(PC + sext_16(rel8)) & 0xFFFF`, with PC past the branch (41_addressing_modes.md R133). -/
def branchTarget (pc : Word) (rel : Byte) : Word := pc + sext16 rel

end Sys2Proof.Machine
end

