-- ==== Sys2Proof/Machine/Alu.lean ====
section
/-!
DEFINITION. The meanings of the ALU instructions (44_arith_logic.md R183 to R192), binary and decimal.
-/

namespace Sys2Proof.Machine

/-- What a binary ADC or SBC writes from the adder's result: A, C, V, then N and Z (44_arith_logic.md R183, R184). -/
def State.writeSum (sum : Sum) (s : State) : State :=
  ((s.setA sum.r).setFlags { s.flags with c := sum.cout, v := sum.v }).setNZ sum.r

/-- The result and the carry of a decimal operation: as computed, or a byte and a bit drawn where an operand is not
valid BCD (44_arith_logic.md R181, R182, 93_implementation_defined.md U7). -/
def State.settleDecimal (result : Option (Byte × Bool)) (s : State) : (Byte × Bool) × State :=
  match result with
  | some rc => (rc, s)
  | none =>
    let (r, s) := s.drawByte
    let (c, s) := s.drawBit
    ((r, c), s)

/-- What a decimal ADC or SBC writes: A and C, then N, Z and V each drawn (44_arith_logic.md R183, R184, U6). -/
def State.writeDecimal (result : Option (Byte × Bool)) (s : State) : State :=
  let ((r, c), s) := s.settleDecimal result
  let s := (s.setA r).setFlags { s.flags with c := c }
  let (n, s) := s.drawBit
  let (z, s) := s.drawBit
  let (v, s) := s.drawBit
  s.setFlags { s.flags with n := n, z := z, v := v }

/-- Does ADC or SBC compute in decimal: `DECIMAL_MODE` and `D = 1` (44_arith_logic.md R183, R184). -/
def State.decimal (s : State) : Bool := s.config.decimalMode && s.flags.d

/-- ADC (44_arith_logic.md R183). -/
def execAdc (src : Src) (s : State) : Result :=
  let (m, s) := s.load src
  if s.decimal then .next (s.writeDecimal (dadd s.a m s.flags.c))
  else .next (s.writeSum (add8 s.a m s.flags.c))

/-- SBC (44_arith_logic.md R184): C = 1 means no borrow. -/
def execSbc (src : Src) (s : State) : Result :=
  let (m, s) := s.load src
  if s.decimal then .next (s.writeDecimal (dsub s.a m s.flags.c))
  else .next (s.writeSum (add8 s.a (m ^^^ 0xFF#8) s.flags.c))

/-- `A <- r; setNZ(A)` (44_arith_logic.md R185 to R187). -/
def State.writeLogic (r : Byte) (s : State) : State := (s.setA r).setNZ r

/-- AND (44_arith_logic.md R185). -/
def execAnd (src : Src) (s : State) : Result :=
  let (m, s) := s.load src
  .next (s.writeLogic (s.a &&& m))

/-- ORA (44_arith_logic.md R186). -/
def execOra (src : Src) (s : State) : Result :=
  let (m, s) := s.load src
  .next (s.writeLogic (s.a ||| m))

/-- EOR (44_arith_logic.md R187). -/
def execEor (src : Src) (s : State) : Result :=
  let (m, s) := s.load src
  .next (s.writeLogic (s.a ^^^ m))

/-- CMP (44_arith_logic.md R189). -/
def execCmp (src : Src) (s : State) : Result :=
  let (m, s) := s.load src
  .next (s.setFlags (s.flags.compare s.a m))

/-- CPX (44_arith_logic.md R190). -/
def execCpx (src : Src) (s : State) : Result :=
  let (m, s) := s.load src
  .next (s.setFlags (s.flags.compare s.x m))

/-- CPY (44_arith_logic.md R191). -/
def execCpy (src : Src) (s : State) : Result :=
  let (m, s) := s.load src
  .next (s.setFlags (s.flags.compare s.y m))

/-- BIT (44_arith_logic.md R192). -/
def execBit (src : Mem) (s : State) : Result :=
  let (m, s) := s.load (.mem src)
  .next (s.setFlags (s.flags.bitTest s.a m))

end Sys2Proof.Machine
end

