-- ==== Sys2Proof/Machine/Control.lean ====
section
/-!
DEFINITION. The meanings of control transfer (46_control_transfer.md R220 to R233). Each runs with PC past the
instruction's fetched bytes.
-/

namespace Sys2Proof.Machine

/-- JMP (46_control_transfer.md R220). -/
def execJmp (target : Target) (s : State) : Result :=
  let (pc, s) := s.jumpTarget target
  .next (s.setPc pc)

/-- JSR (46_control_transfer.md R221): pushes the address of its own last byte, high byte first. -/
def execJsr (target : Word) (s : State) : Result :=
  let ret := s.pc - 1#16
  .next (((s.push8 (highByte ret)).push8 (lowByte ret)).setPc target)

/-- RTS (46_control_transfer.md R222). -/
def execRts (s : State) : Result :=
  let (lo, s) := s.pull8
  let (hi, s) := s.pull8
  .next (s.setPc (wordOf lo hi + 1#16))

/-- RTI (46_control_transfer.md R223). -/
def execRti (s : State) : Result := .next s.returnFromInterrupt

/-- BRK (46_control_transfer.md R224): skips the signature byte with no bus call, sets B, enters at the IRQ vector. -/
def execBrk (s : State) : Result :=
  let s := s.setPc (s.pc + 1#16)
  let s := s.setFlags { s.flags with b := true }
  .next (s.interruptEntry irqVector)

/-- `branch(cond)` (46_control_transfer.md R225). -/
def State.branch (cond : Bool) (rel : Byte) (s : State) : State :=
  if cond then s.setPc (branchTarget s.pc rel) else s

/-- BCC (46_control_transfer.md R226). -/
def execBcc (rel : Byte) (s : State) : Result := .next (s.branch (!s.flags.c) rel)

/-- BCS (46_control_transfer.md R227). -/
def execBcs (rel : Byte) (s : State) : Result := .next (s.branch s.flags.c rel)

/-- BEQ (46_control_transfer.md R228). -/
def execBeq (rel : Byte) (s : State) : Result := .next (s.branch s.flags.z rel)

/-- BNE (46_control_transfer.md R229). -/
def execBne (rel : Byte) (s : State) : Result := .next (s.branch (!s.flags.z) rel)

/-- BMI (46_control_transfer.md R230). -/
def execBmi (rel : Byte) (s : State) : Result := .next (s.branch s.flags.n rel)

/-- BPL (46_control_transfer.md R231). -/
def execBpl (rel : Byte) (s : State) : Result := .next (s.branch (!s.flags.n) rel)

/-- BVC (46_control_transfer.md R232). -/
def execBvc (rel : Byte) (s : State) : Result := .next (s.branch (!s.flags.v) rel)

/-- BVS (46_control_transfer.md R233). -/
def execBvs (rel : Byte) (s : State) : Result := .next (s.branch s.flags.v rel)

end Sys2Proof.Machine
end

