-- ==== Sys2Proof/Machine/FlagOps.lean ====
section
/-!
DEFINITION. The meanings of the flag instructions and NOP (47_flags_nop.md R240 to R247) and of the undefined opcodes
(48_undefined_opcodes.md R260).
-/

namespace Sys2Proof.Machine

/-- CLC (47_flags_nop.md R240). -/
def execClc (s : State) : Result := .next (s.setFlags { s.flags with c := false })

/-- SEC (47_flags_nop.md R241). -/
def execSec (s : State) : Result := .next (s.setFlags { s.flags with c := true })

/-- CLI (47_flags_nop.md R242). -/
def execCli (s : State) : Result := .next (s.setFlags { s.flags with i := false })

/-- SEI (47_flags_nop.md R243). -/
def execSei (s : State) : Result := .next (s.setFlags { s.flags with i := true })

/-- CLD (47_flags_nop.md R244). -/
def execCld (s : State) : Result := .next (s.setFlags { s.flags with d := false })

/-- SED (47_flags_nop.md R245). -/
def execSed (s : State) : Result := .next (s.setFlags { s.flags with d := true })

/-- CLV (47_flags_nop.md R246). -/
def execClv (s : State) : Result := .next (s.setFlags { s.flags with v := false })

/-- NOP (47_flags_nop.md R247): nothing, PC is already past it. -/
def execNop (s : State) : Result := .next s

/-- An undefined opcode (48_undefined_opcodes.md R260): a no-op that raises `undef_count`. The opcode value changes
nothing. -/
def execUndefined (_opcode : Byte) (s : State) : Result := .next { s with undefCount := s.undefCount + 1 }

end Sys2Proof.Machine
end

