-- ==== Sys2Proof/Machine/IncDecShift.lean ====
section
/-!
DEFINITION. The meanings of increment, decrement, shift and rotate (45_inc_dec_shift.md R200 to R209).
-/

namespace Sys2Proof.Machine

/-- `r <- modify(f); setNZ(r)` (45_inc_dec_shift.md R200, R201, R206 to R209). -/
def State.modifyNZ (dst : Dst) (f : Modify) (s : State) : State :=
  let (r, s) := s.modify dst f
  s.setNZ r

/-- INC (45_inc_dec_shift.md R200). -/
def execInc (dst : Mem) (s : State) : Result := .next (s.modifyNZ (.mem dst) incByte)

/-- DEC (45_inc_dec_shift.md R201). -/
def execDec (dst : Mem) (s : State) : Result := .next (s.modifyNZ (.mem dst) decByte)

/-- INX (45_inc_dec_shift.md R202). -/
def execInx (s : State) : Result := .next ((s.setX (s.x + 1#8)).setNZ (s.x + 1#8))

/-- INY (45_inc_dec_shift.md R203). -/
def execIny (s : State) : Result := .next ((s.setY (s.y + 1#8)).setNZ (s.y + 1#8))

/-- DEX (45_inc_dec_shift.md R204). -/
def execDex (s : State) : Result := .next ((s.setX (s.x - 1#8)).setNZ (s.x - 1#8))

/-- DEY (45_inc_dec_shift.md R205). -/
def execDey (s : State) : Result := .next ((s.setY (s.y - 1#8)).setNZ (s.y - 1#8))

/-- ASL (45_inc_dec_shift.md R206). -/
def execAsl (dst : Dst) (s : State) : Result := .next (s.modifyNZ dst aslByte)

/-- LSR (45_inc_dec_shift.md R207). -/
def execLsr (dst : Dst) (s : State) : Result := .next (s.modifyNZ dst lsrByte)

/-- ROL (45_inc_dec_shift.md R208). -/
def execRol (dst : Dst) (s : State) : Result := .next (s.modifyNZ dst rolByte)

/-- ROR (45_inc_dec_shift.md R209). -/
def execRor (dst : Dst) (s : State) : Result := .next (s.modifyNZ dst rorByte)

end Sys2Proof.Machine
end

