-- ==== Sys2Proof/Machine/LoadStore.lean ====
section
/-!
DEFINITION. The meanings of loads, stores and register transfers (42_load_store_transfer.md R150 to R161). Each runs on
the state after the operand fetch: PC is the next instruction's address (41_addressing_modes.md R120).
-/

namespace Sys2Proof.Machine

/-- LDA (42_load_store_transfer.md R150). -/
def execLda (src : Src) (s : State) : Result :=
  let (v, s) := s.load src
  .next ((s.setA v).setNZ v)

/-- LDX (42_load_store_transfer.md R151). -/
def execLdx (src : Src) (s : State) : Result :=
  let (v, s) := s.load src
  .next ((s.setX v).setNZ v)

/-- LDY (42_load_store_transfer.md R152). -/
def execLdy (src : Src) (s : State) : Result :=
  let (v, s) := s.load src
  .next ((s.setY v).setNZ v)

/-- STA (42_load_store_transfer.md R153). -/
def execSta (dst : Mem) (s : State) : Result := .next (s.store dst s.a)

/-- STX (42_load_store_transfer.md R154). -/
def execStx (dst : Mem) (s : State) : Result := .next (s.store dst s.x)

/-- STY (42_load_store_transfer.md R155). -/
def execSty (dst : Mem) (s : State) : Result := .next (s.store dst s.y)

/-- TAX (42_load_store_transfer.md R156). -/
def execTax (s : State) : Result := .next ((s.setX s.a).setNZ s.a)

/-- TAY (42_load_store_transfer.md R157). -/
def execTay (s : State) : Result := .next ((s.setY s.a).setNZ s.a)

/-- TXA (42_load_store_transfer.md R158). -/
def execTxa (s : State) : Result := .next ((s.setA s.x).setNZ s.x)

/-- TYA (42_load_store_transfer.md R159). -/
def execTya (s : State) : Result := .next ((s.setA s.y).setNZ s.y)

/-- TSX (42_load_store_transfer.md R160). -/
def execTsx (s : State) : Result := .next ((s.setX s.sp).setNZ s.sp)

/-- TXS (42_load_store_transfer.md R161): writes no flag. -/
def execTxs (s : State) : Result := .next (s.setSp s.x)

end Sys2Proof.Machine
end

