-- ==== Sys2Proof/Machine/Stack.lean ====
section
/-!
DEFINITION. The meanings of the stack instructions (43_stack.md R170 to R173).
-/

namespace Sys2Proof.Machine

/-- PHA (43_stack.md R170). -/
def execPha (s : State) : Result := .next (s.push8 s.a)

/-- PHP (43_stack.md R171): B as stored, bit 5 as 1. -/
def execPhp (s : State) : Result := .next (s.push8 s.pack)

/-- PLA (43_stack.md R172). -/
def execPla (s : State) : Result :=
  let (v, s) := s.pull8
  .next ((s.setA v).setNZ v)

/-- PLP (43_stack.md R173). -/
def execPlp (s : State) : Result :=
  let (b, s) := s.pull8
  .next (s.setFlags (Flags.unpack b))

end Sys2Proof.Machine
end

