-- ==== Sys2Proof/WellFormed.lean ====
section
/-!
DEFINITION. Which terms of `Instr` the opcode table has a row for: the operand forms each mnemonic is listed with
(the Operands lines of files 42 to 46) and the 105 undefined opcode values (30_encoding.md R86).
-/

namespace Sys2Proof

/-- The eight operand forms of LDA, ADC, SBC, AND, ORA, EOR and CMP (42_load_store_transfer.md R150,
44_arith_logic.md R183 to R189): all but zero page indexed by Y. -/
def Src.isStandard : Src → Bool
  | .mem (.zpy _) => false
  | .imm _ | .mem (.zp _) | .mem (.zpx _) | .mem (.abs _) | .mem (.abx _) | .mem (.aby _) | .mem (.izx _) => true
  | .mem (.izy _) => true

/-- The operand forms of LDX (42_load_store_transfer.md R151): the indexed forms use Y. -/
def Src.isLdx : Src → Bool
  | .imm _ | .mem (.zp _) | .mem (.zpy _) | .mem (.abs _) | .mem (.aby _) => true
  | .mem (.zpx _) | .mem (.abx _) | .mem (.izx _) | .mem (.izy _) => false

/-- The operand forms of LDY (42_load_store_transfer.md R152): the indexed forms use X. -/
def Src.isLdy : Src → Bool
  | .imm _ | .mem (.zp _) | .mem (.zpx _) | .mem (.abs _) | .mem (.abx _) => true
  | .mem (.zpy _) | .mem (.aby _) | .mem (.izx _) | .mem (.izy _) => false

/-- The operand forms of CPX and CPY (44_arith_logic.md R190, R191). -/
def Src.isCompareIndex : Src → Bool
  | .imm _ | .mem (.zp _) | .mem (.abs _) => true
  | .mem (.zpx _) | .mem (.zpy _) | .mem (.abx _) | .mem (.aby _) | .mem (.izx _) | .mem (.izy _) => false

/-- The operand forms of STA (42_load_store_transfer.md R153): no immediate form, no zero page indexed by Y. -/
def Mem.isSta : Mem → Bool
  | .zpy _ => false
  | .zp _ | .zpx _ | .abs _ | .abx _ | .aby _ | .izx _ | .izy _ => true

/-- The operand forms of STX (42_load_store_transfer.md R154). -/
def Mem.isStx : Mem → Bool
  | .zp _ | .zpy _ | .abs _ => true
  | .zpx _ | .abx _ | .aby _ | .izx _ | .izy _ => false

/-- The operand forms of STY (42_load_store_transfer.md R155). -/
def Mem.isSty : Mem → Bool
  | .zp _ | .zpx _ | .abs _ => true
  | .zpy _ | .abx _ | .aby _ | .izx _ | .izy _ => false

/-- The operand forms of BIT (44_arith_logic.md R192). -/
def Mem.isBit : Mem → Bool
  | .zp _ | .abs _ => true
  | .zpx _ | .zpy _ | .abx _ | .aby _ | .izx _ | .izy _ => false

/-- The memory operand forms of INC, DEC, ASL, LSR, ROL and ROR (45_inc_dec_shift.md R200, R201, R206 to R209). -/
def Mem.isModify : Mem → Bool
  | .zp _ | .zpx _ | .abs _ | .abx _ => true
  | .zpy _ | .aby _ | .izx _ | .izy _ => false

/-- The operand forms of ASL, LSR, ROL and ROR (45_inc_dec_shift.md R206 to R209). -/
def Dst.isShift : Dst → Bool
  | .acc => true
  | .mem m => m.isModify

/-- The 105 undefined opcode values, in the order of 30_encoding.md R86. -/
def undefinedOpcodes : List Byte :=
  [0x02, 0x03, 0x04, 0x07, 0x0B, 0x0C, 0x0F, 0x12, 0x13, 0x14, 0x17, 0x1A, 0x1B, 0x1C, 0x1F] ++
  [0x22, 0x23, 0x27, 0x2B, 0x2F, 0x32, 0x33, 0x34, 0x37, 0x3A, 0x3B, 0x3C, 0x3F] ++
  [0x42, 0x43, 0x44, 0x47, 0x4B, 0x4F, 0x52, 0x53, 0x54, 0x57, 0x5A, 0x5B, 0x5C, 0x5F] ++
  [0x62, 0x63, 0x64, 0x67, 0x6B, 0x6F, 0x72, 0x73, 0x74, 0x77, 0x7A, 0x7B, 0x7C, 0x7F] ++
  [0x80, 0x82, 0x83, 0x87, 0x89, 0x8B, 0x8F, 0x92, 0x93, 0x97, 0x9B, 0x9C, 0x9E, 0x9F] ++
  [0xA3, 0xA7, 0xAB, 0xAF, 0xB2, 0xB3, 0xB7, 0xBB, 0xBF] ++
  [0xC2, 0xC3, 0xC7, 0xCB, 0xCF, 0xD2, 0xD3, 0xD4, 0xD7, 0xDA, 0xDB, 0xDC, 0xDF] ++
  [0xE2, 0xE3, 0xE7, 0xEB, 0xEF, 0xF2, 0xF3, 0xF4, 0xF7, 0xFA, 0xFB, 0xFC, 0xFF]

/-- Does the opcode table have a row for this term? One check for each way a term can fail to be a row. -/
def Instr.wf : Instr → Bool
  | .lda src | .adc src | .sbc src | .and src | .ora src | .eor src | .cmp src => src.isStandard
  | .ldx src => src.isLdx
  | .ldy src => src.isLdy
  | .cpx src | .cpy src => src.isCompareIndex
  | .sta dst => dst.isSta
  | .stx dst => dst.isStx
  | .sty dst => dst.isSty
  | .bit src => src.isBit
  | .inc dst | .dec dst => dst.isModify
  | .asl dst | .lsr dst | .rol dst | .ror dst => dst.isShift
  | .undefined opcode => undefinedOpcodes.contains opcode
  | .tax | .tay | .txa | .tya | .tsx | .txs | .pha | .php | .pla | .plp | .inx | .iny | .dex | .dey => true
  | .jmp _ | .jsr _ | .rts | .rti | .brk => true
  | .bcc _ | .bcs _ | .beq _ | .bne _ | .bmi _ | .bpl _ | .bvc _ | .bvs _ => true
  | .clc | .sec | .cli | .sei | .cld | .sed | .clv | .nop => true

/-- The instruction is a row of the opcode table. -/
abbrev Instr.WellFormed (i : Instr) : Prop := i.wf = true

end Sys2Proof
end

