-- ==== Sys2Proof/Decode.lean ====
section
/-!
DEFINITION. The decoder and the encoder. The decoder is the source's "flat dispatch table indexed by the opcode byte value
(256 entries)" (30_encoding.md R80), laid out as the opcode map of R84 with the lengths and cycle costs of R88. The
encoder is written from the Operands lines of the instruction rules (files 42 to 46), not from the map, so that the two
check each other.
-/

namespace Sys2Proof

/-- One entry of the dispatch table: the instruction's length in bytes, its fixed cost (none: `UNDEF_CYCLES`), and the
instruction it spells, from the opcode and the two bytes after it (30_encoding.md R80, R81, R88). -/
structure Entry where
  length : Nat
  cycles : Option Nat
  build : Byte → Byte → Byte → Instr

/-- Implied (30_encoding.md R81): one byte. -/
def Entry.imp (i : Instr) (c : Nat) : Entry := ⟨1, some c, fun _ _ _ => i⟩

/-- Accumulator (30_encoding.md R81): one byte. -/
def Entry.acc (k : Dst → Instr) (c : Nat) : Entry := ⟨1, some c, fun _ _ _ => k .acc⟩

/-- Immediate (30_encoding.md R81): byte 1 is imm8. -/
def Entry.imm (k : Src → Instr) (c : Nat) : Entry := ⟨2, some c, fun _ b1 _ => k (.imm b1)⟩

/-- Zero page (30_encoding.md R81): byte 1 is the address. -/
def Entry.zp (k : Mem → Instr) (c : Nat) : Entry := ⟨2, some c, fun _ b1 _ => k (.zp b1)⟩

/-- Zero page,X (30_encoding.md R81). -/
def Entry.zpx (k : Mem → Instr) (c : Nat) : Entry := ⟨2, some c, fun _ b1 _ => k (.zpx b1)⟩

/-- Zero page,Y (30_encoding.md R81). -/
def Entry.zpy (k : Mem → Instr) (c : Nat) : Entry := ⟨2, some c, fun _ b1 _ => k (.zpy b1)⟩

/-- Absolute (30_encoding.md R81): byte 1 is the low byte of the address, byte 2 the high byte. -/
def Entry.abs (k : Mem → Instr) (c : Nat) : Entry := ⟨3, some c, fun _ b1 b2 => k (.abs (wordOf b1 b2))⟩

/-- Absolute,X (30_encoding.md R81). -/
def Entry.abx (k : Mem → Instr) (c : Nat) : Entry := ⟨3, some c, fun _ b1 b2 => k (.abx (wordOf b1 b2))⟩

/-- Absolute,Y (30_encoding.md R81). -/
def Entry.aby (k : Mem → Instr) (c : Nat) : Entry := ⟨3, some c, fun _ b1 b2 => k (.aby (wordOf b1 b2))⟩

/-- (Zero page,X) (30_encoding.md R81). -/
def Entry.izx (k : Mem → Instr) (c : Nat) : Entry := ⟨2, some c, fun _ b1 _ => k (.izx b1)⟩

/-- (Zero page),Y (30_encoding.md R81). -/
def Entry.izy (k : Mem → Instr) (c : Nat) : Entry := ⟨2, some c, fun _ b1 _ => k (.izy b1)⟩

/-- Relative (30_encoding.md R81): byte 1 is rel8. -/
def Entry.rel (k : Byte → Instr) (c : Nat) : Entry := ⟨2, some c, fun _ b1 _ => k b1⟩

/-- JMP absolute (30_encoding.md R81). -/
def Entry.jmpAbs (c : Nat) : Entry := ⟨3, some c, fun _ b1 b2 => .jmp (.abs (wordOf b1 b2))⟩

/-- JMP indirect (30_encoding.md R81). -/
def Entry.jmpInd (c : Nat) : Entry := ⟨3, some c, fun _ b1 b2 => .jmp (.ind (wordOf b1 b2))⟩

/-- JSR absolute (30_encoding.md R81). -/
def Entry.jsrAbs (c : Nat) : Entry := ⟨3, some c, fun _ b1 b2 => .jsr (wordOf b1 b2)⟩

/-- Undefined: length 1, cost `UNDEF_CYCLES` (30_encoding.md R80, R88). -/
def Entry.und : Entry := ⟨1, none, fun op _ _ => .undefined op⟩

/-- The memory forms of an instruction that also has an immediate form. -/
def ofSrc (k : Src → Instr) (m : Mem) : Instr := k (.mem m)

/-- The memory forms of an instruction that also has an accumulator form. -/
def ofDst (k : Dst → Instr) (m : Mem) : Instr := k (.mem m)

/-- Row 0x of 30_encoding.md R84, with the cycle costs of R88. -/
def opcodeRow0 : List Entry :=
  [.imp .brk 7, .izx (ofSrc .ora) 6, .und, .und,
   .und, .zp (ofSrc .ora) 3, .zp (ofDst .asl) 5, .und,
   .imp .php 3, .imm .ora 2, .acc .asl 2, .und,
   .und, .abs (ofSrc .ora) 4, .abs (ofDst .asl) 6, .und]

/-- Row 1x of 30_encoding.md R84, with the cycle costs of R88. -/
def opcodeRow1 : List Entry :=
  [.rel .bpl 2, .izy (ofSrc .ora) 5, .und, .und,
   .und, .zpx (ofSrc .ora) 4, .zpx (ofDst .asl) 6, .und,
   .imp .clc 2, .aby (ofSrc .ora) 4, .und, .und,
   .und, .abx (ofSrc .ora) 4, .abx (ofDst .asl) 7, .und]

/-- Row 2x of 30_encoding.md R84, with the cycle costs of R88. -/
def opcodeRow2 : List Entry :=
  [.jsrAbs 6, .izx (ofSrc .and) 6, .und, .und,
   .zp .bit 3, .zp (ofSrc .and) 3, .zp (ofDst .rol) 5, .und,
   .imp .plp 4, .imm .and 2, .acc .rol 2, .und,
   .abs .bit 4, .abs (ofSrc .and) 4, .abs (ofDst .rol) 6, .und]

/-- Row 3x of 30_encoding.md R84, with the cycle costs of R88. -/
def opcodeRow3 : List Entry :=
  [.rel .bmi 2, .izy (ofSrc .and) 5, .und, .und,
   .und, .zpx (ofSrc .and) 4, .zpx (ofDst .rol) 6, .und,
   .imp .sec 2, .aby (ofSrc .and) 4, .und, .und,
   .und, .abx (ofSrc .and) 4, .abx (ofDst .rol) 7, .und]

/-- Row 4x of 30_encoding.md R84, with the cycle costs of R88. -/
def opcodeRow4 : List Entry :=
  [.imp .rti 6, .izx (ofSrc .eor) 6, .und, .und,
   .und, .zp (ofSrc .eor) 3, .zp (ofDst .lsr) 5, .und,
   .imp .pha 3, .imm .eor 2, .acc .lsr 2, .und,
   .jmpAbs 3, .abs (ofSrc .eor) 4, .abs (ofDst .lsr) 6, .und]

/-- Row 5x of 30_encoding.md R84, with the cycle costs of R88. -/
def opcodeRow5 : List Entry :=
  [.rel .bvc 2, .izy (ofSrc .eor) 5, .und, .und,
   .und, .zpx (ofSrc .eor) 4, .zpx (ofDst .lsr) 6, .und,
   .imp .cli 2, .aby (ofSrc .eor) 4, .und, .und,
   .und, .abx (ofSrc .eor) 4, .abx (ofDst .lsr) 7, .und]

/-- Row 6x of 30_encoding.md R84, with the cycle costs of R88. -/
def opcodeRow6 : List Entry :=
  [.imp .rts 6, .izx (ofSrc .adc) 6, .und, .und,
   .und, .zp (ofSrc .adc) 3, .zp (ofDst .ror) 5, .und,
   .imp .pla 4, .imm .adc 2, .acc .ror 2, .und,
   .jmpInd 5, .abs (ofSrc .adc) 4, .abs (ofDst .ror) 6, .und]

/-- Row 7x of 30_encoding.md R84, with the cycle costs of R88. -/
def opcodeRow7 : List Entry :=
  [.rel .bvs 2, .izy (ofSrc .adc) 5, .und, .und,
   .und, .zpx (ofSrc .adc) 4, .zpx (ofDst .ror) 6, .und,
   .imp .sei 2, .aby (ofSrc .adc) 4, .und, .und,
   .und, .abx (ofSrc .adc) 4, .abx (ofDst .ror) 7, .und]

/-- Row 8x of 30_encoding.md R84, with the cycle costs of R88. -/
def opcodeRow8 : List Entry :=
  [.und, .izx .sta 6, .und, .und,
   .zp .sty 3, .zp .sta 3, .zp .stx 3, .und,
   .imp .dey 2, .und, .imp .txa 2, .und,
   .abs .sty 4, .abs .sta 4, .abs .stx 4, .und]

/-- Row 9x of 30_encoding.md R84, with the cycle costs of R88. -/
def opcodeRow9 : List Entry :=
  [.rel .bcc 2, .izy .sta 6, .und, .und,
   .zpx .sty 4, .zpx .sta 4, .zpy .stx 4, .und,
   .imp .tya 2, .aby .sta 5, .imp .txs 2, .und,
   .und, .abx .sta 5, .und, .und]

/-- Row Ax of 30_encoding.md R84, with the cycle costs of R88. -/
def opcodeRowA : List Entry :=
  [.imm .ldy 2, .izx (ofSrc .lda) 6, .imm .ldx 2, .und,
   .zp (ofSrc .ldy) 3, .zp (ofSrc .lda) 3, .zp (ofSrc .ldx) 3, .und,
   .imp .tay 2, .imm .lda 2, .imp .tax 2, .und,
   .abs (ofSrc .ldy) 4, .abs (ofSrc .lda) 4, .abs (ofSrc .ldx) 4, .und]

/-- Row Bx of 30_encoding.md R84, with the cycle costs of R88. -/
def opcodeRowB : List Entry :=
  [.rel .bcs 2, .izy (ofSrc .lda) 5, .und, .und,
   .zpx (ofSrc .ldy) 4, .zpx (ofSrc .lda) 4, .zpy (ofSrc .ldx) 4, .und,
   .imp .clv 2, .aby (ofSrc .lda) 4, .imp .tsx 2, .und,
   .abx (ofSrc .ldy) 4, .abx (ofSrc .lda) 4, .aby (ofSrc .ldx) 4, .und]

/-- Row Cx of 30_encoding.md R84, with the cycle costs of R88. -/
def opcodeRowC : List Entry :=
  [.imm .cpy 2, .izx (ofSrc .cmp) 6, .und, .und,
   .zp (ofSrc .cpy) 3, .zp (ofSrc .cmp) 3, .zp .dec 5, .und,
   .imp .iny 2, .imm .cmp 2, .imp .dex 2, .und,
   .abs (ofSrc .cpy) 4, .abs (ofSrc .cmp) 4, .abs .dec 6, .und]

/-- Row Dx of 30_encoding.md R84, with the cycle costs of R88. -/
def opcodeRowD : List Entry :=
  [.rel .bne 2, .izy (ofSrc .cmp) 5, .und, .und,
   .und, .zpx (ofSrc .cmp) 4, .zpx .dec 6, .und,
   .imp .cld 2, .aby (ofSrc .cmp) 4, .und, .und,
   .und, .abx (ofSrc .cmp) 4, .abx .dec 7, .und]

/-- Row Ex of 30_encoding.md R84, with the cycle costs of R88. -/
def opcodeRowE : List Entry :=
  [.imm .cpx 2, .izx (ofSrc .sbc) 6, .und, .und,
   .zp (ofSrc .cpx) 3, .zp (ofSrc .sbc) 3, .zp .inc 5, .und,
   .imp .inx 2, .imm .sbc 2, .imp .nop 2, .und,
   .abs (ofSrc .cpx) 4, .abs (ofSrc .sbc) 4, .abs .inc 6, .und]

/-- Row Fx of 30_encoding.md R84, with the cycle costs of R88. -/
def opcodeRowF : List Entry :=
  [.rel .beq 2, .izy (ofSrc .sbc) 5, .und, .und,
   .und, .zpx (ofSrc .sbc) 4, .zpx .inc 6, .und,
   .imp .sed 2, .aby (ofSrc .sbc) 4, .und, .und,
   .und, .abx (ofSrc .sbc) 4, .abx .inc 7, .und]
/-- The 256-entry dispatch table, a row for each high nibble (30_encoding.md R84). -/
def opcodeMap : List (List Entry) :=
  [opcodeRow0, opcodeRow1, opcodeRow2, opcodeRow3, opcodeRow4, opcodeRow5, opcodeRow6, opcodeRow7] ++
  [opcodeRow8, opcodeRow9, opcodeRowA, opcodeRowB, opcodeRowC, opcodeRowD, opcodeRowE, opcodeRowF]

/-- The dispatch-table entry of an opcode byte (30_encoding.md R80). -/
def entryOf (op : Byte) : Entry := (opcodeMap.getD (op.toNat / 16) []).getD (op.toNat % 16) .und

/-- Is the opcode one of the 151 defined values (30_encoding.md R85, R88)? -/
def isDefinedOpcode (op : Byte) : Bool := (entryOf op).cycles.isSome

/-- Why a byte string is not an instruction. Every opcode value decodes, so only missing bytes are rejected. -/
inductive DecodeError where
  /-- there is no byte at all -/
  | noBytes
  /-- the opcode is there, but its operand bytes are not all there -/
  | truncated (opcode : Byte)
deriving DecidableEq, Repr

/-- What the decoder answers: an instruction and the bytes after it, or a named rejection. -/
inductive Decoded where
  | instr (i : Instr) (rest : List Byte)
  | rejected (why : DecodeError)
deriving DecidableEq, Repr

/-- The decoder (30_encoding.md R80, R81): total on every byte string. -/
def decode : List Byte → Decoded
  | [] => .rejected .noBytes
  | op :: bytes =>
    match (entryOf op).length, bytes with
    | 1, rest => .instr ((entryOf op).build op 0 0) rest
    | 2, b1 :: rest => .instr ((entryOf op).build op b1 0) rest
    | _, b1 :: b2 :: rest => .instr ((entryOf op).build op b1 b2) rest
    | _, _ => .rejected (.truncated op)

/-- Opcodes of the eight standard operand forms, in the order the Operands lines list them:
imm, zp, zp,X, abs, abs,X, abs,Y, (zp,X), (zp),Y. -/
def Src.opcode (imm zp zpx abs abx aby izx izy : Byte) : Src → Option Byte
  | .imm _ => some imm
  | .mem (.zp _) => some zp
  | .mem (.zpx _) => some zpx
  | .mem (.abs _) => some abs
  | .mem (.abx _) => some abx
  | .mem (.aby _) => some aby
  | .mem (.izx _) => some izx
  | .mem (.izy _) => some izy
  | .mem (.zpy _) => none

/-- Opcodes of the immediate, zero-page and absolute forms of CPX and CPY. -/
def Src.compareOpcode (imm zp abs : Byte) : Src → Option Byte
  | .imm _ => some imm
  | .mem (.zp _) => some zp
  | .mem (.abs _) => some abs
  | .mem (.zpx _) | .mem (.zpy _) | .mem (.abx _) | .mem (.aby _) | .mem (.izx _) | .mem (.izy _) => none

/-- Opcodes of the zp, zp,X, abs and abs,X forms of a read-modify-write instruction. -/
def Mem.modifyOpcode (zp zpx abs abx : Byte) : Mem → Option Byte
  | .zp _ => some zp
  | .zpx _ => some zpx
  | .abs _ => some abs
  | .abx _ => some abx
  | .zpy _ | .aby _ | .izx _ | .izy _ => none

/-- Opcodes of the A, zp, zp,X, abs and abs,X forms of a shift or rotate. -/
def Dst.opcode (acc zp zpx abs abx : Byte) : Dst → Option Byte
  | .acc => some acc
  | .mem m => m.modifyOpcode zp zpx abs abx

/-- Opcodes of LDX (42_load_store_transfer.md R151). -/
def ldxOpcode : Src → Option Byte
  | .imm _ => some 0xA2
  | .mem (.zp _) => some 0xA6
  | .mem (.zpy _) => some 0xB6
  | .mem (.abs _) => some 0xAE
  | .mem (.aby _) => some 0xBE
  | .mem (.zpx _) | .mem (.abx _) | .mem (.izx _) | .mem (.izy _) => none

/-- Opcodes of LDY (42_load_store_transfer.md R152). -/
def ldyOpcode : Src → Option Byte
  | .imm _ => some 0xA0
  | .mem (.zp _) => some 0xA4
  | .mem (.zpx _) => some 0xB4
  | .mem (.abs _) => some 0xAC
  | .mem (.abx _) => some 0xBC
  | .mem (.zpy _) | .mem (.aby _) | .mem (.izx _) | .mem (.izy _) => none

/-- Opcodes of STA (42_load_store_transfer.md R153). -/
def staOpcode : Mem → Option Byte
  | .zp _ => some 0x85
  | .zpx _ => some 0x95
  | .abs _ => some 0x8D
  | .abx _ => some 0x9D
  | .aby _ => some 0x99
  | .izx _ => some 0x81
  | .izy _ => some 0x91
  | .zpy _ => none

/-- Opcodes of STX (42_load_store_transfer.md R154). -/
def stxOpcode : Mem → Option Byte
  | .zp _ => some 0x86
  | .zpy _ => some 0x96
  | .abs _ => some 0x8E
  | .zpx _ | .abx _ | .aby _ | .izx _ | .izy _ => none

/-- Opcodes of STY (42_load_store_transfer.md R155). -/
def styOpcode : Mem → Option Byte
  | .zp _ => some 0x84
  | .zpx _ => some 0x94
  | .abs _ => some 0x8C
  | .zpy _ | .abx _ | .aby _ | .izx _ | .izy _ => none

/-- Opcodes of BIT (44_arith_logic.md R192). -/
def bitOpcode : Mem → Option Byte
  | .zp _ => some 0x24
  | .abs _ => some 0x2C
  | .zpx _ | .zpy _ | .abx _ | .aby _ | .izx _ | .izy _ => none

/-- The opcode byte of an instruction, from the Operands lines of its rule. None: the opcode table has no such form. -/
def opcodeOf : Instr → Option Byte
  | .lda src => src.opcode 0xA9 0xA5 0xB5 0xAD 0xBD 0xB9 0xA1 0xB1
  | .ldx src => ldxOpcode src
  | .ldy src => ldyOpcode src
  | .sta dst => staOpcode dst
  | .stx dst => stxOpcode dst
  | .sty dst => styOpcode dst
  | .tax => some 0xAA
  | .tay => some 0xA8
  | .txa => some 0x8A
  | .tya => some 0x98
  | .tsx => some 0xBA
  | .txs => some 0x9A
  | .pha => some 0x48
  | .php => some 0x08
  | .pla => some 0x68
  | .plp => some 0x28
  | .adc src => src.opcode 0x69 0x65 0x75 0x6D 0x7D 0x79 0x61 0x71
  | .sbc src => src.opcode 0xE9 0xE5 0xF5 0xED 0xFD 0xF9 0xE1 0xF1
  | .and src => src.opcode 0x29 0x25 0x35 0x2D 0x3D 0x39 0x21 0x31
  | .ora src => src.opcode 0x09 0x05 0x15 0x0D 0x1D 0x19 0x01 0x11
  | .eor src => src.opcode 0x49 0x45 0x55 0x4D 0x5D 0x59 0x41 0x51
  | .cmp src => src.opcode 0xC9 0xC5 0xD5 0xCD 0xDD 0xD9 0xC1 0xD1
  | .cpx src => src.compareOpcode 0xE0 0xE4 0xEC
  | .cpy src => src.compareOpcode 0xC0 0xC4 0xCC
  | .bit src => bitOpcode src
  | .inc dst => dst.modifyOpcode 0xE6 0xF6 0xEE 0xFE
  | .dec dst => dst.modifyOpcode 0xC6 0xD6 0xCE 0xDE
  | .inx => some 0xE8
  | .iny => some 0xC8
  | .dex => some 0xCA
  | .dey => some 0x88
  | .asl dst => dst.opcode 0x0A 0x06 0x16 0x0E 0x1E
  | .lsr dst => dst.opcode 0x4A 0x46 0x56 0x4E 0x5E
  | .rol dst => dst.opcode 0x2A 0x26 0x36 0x2E 0x3E
  | .ror dst => dst.opcode 0x6A 0x66 0x76 0x6E 0x7E
  | .jmp (.abs _) => some 0x4C
  | .jmp (.ind _) => some 0x6C
  | .jsr _ => some 0x20
  | .rts => some 0x60
  | .rti => some 0x40
  | .brk => some 0x00
  | .bcc _ => some 0x90
  | .bcs _ => some 0xB0
  | .beq _ => some 0xF0
  | .bne _ => some 0xD0
  | .bmi _ => some 0x30
  | .bpl _ => some 0x10
  | .bvc _ => some 0x50
  | .bvs _ => some 0x70
  | .clc => some 0x18
  | .sec => some 0x38
  | .cli => some 0x58
  | .sei => some 0x78
  | .cld => some 0xD8
  | .sed => some 0xF8
  | .clv => some 0xB8
  | .nop => some 0xEA
  | .undefined opcode => if undefinedOpcodes.contains opcode then some opcode else none

/-- A 16-bit operand as two bytes, low byte first (30_encoding.md R81, R83). -/
def wordBytes (w : Word) : List Byte := [lowByte w, highByte w]

/-- The operand bytes of a memory mode (30_encoding.md R81). -/
def Mem.operandBytes : Mem → List Byte
  | .zp a | .zpx a | .zpy a | .izx a | .izy a => [a]
  | .abs a | .abx a | .aby a => wordBytes a

/-- The operand bytes of a reading operand (30_encoding.md R81). -/
def Src.operandBytes : Src → List Byte
  | .imm v => [v]
  | .mem m => m.operandBytes

/-- The operand bytes of a shift or rotate operand (30_encoding.md R81). -/
def Dst.operandBytes : Dst → List Byte
  | .acc => []
  | .mem m => m.operandBytes

/-- The operand bytes of an instruction, in increasing address order (30_encoding.md R80, R81). -/
def operandBytes : Instr → List Byte
  | .lda src | .ldx src | .ldy src | .adc src | .sbc src | .and src | .ora src | .eor src => src.operandBytes
  | .cmp src | .cpx src | .cpy src => src.operandBytes
  | .sta m | .stx m | .sty m | .bit m | .inc m | .dec m => m.operandBytes
  | .asl dst | .lsr dst | .rol dst | .ror dst => dst.operandBytes
  | .jmp (.abs a) | .jmp (.ind a) | .jsr a => wordBytes a
  | .bcc rel | .bcs rel | .beq rel | .bne rel | .bmi rel | .bpl rel | .bvc rel | .bvs rel => [rel]
  | .tax | .tay | .txa | .tya | .tsx | .txs | .pha | .php | .pla | .plp | .inx | .iny | .dex | .dey => []
  | .rts | .rti | .brk | .clc | .sec | .cli | .sei | .cld | .sed | .clv | .nop | .undefined _ => []

/-- The encoder: the bytes of an instruction, opcode first (30_encoding.md R80). None: no row of the table spells it. -/
def encode (i : Instr) : Option (List Byte) := (opcodeOf i).map (· :: operandBytes i)

/-- Byte `k` of an instruction whose `nbits` lowest bits are those of `w`, every bit above them 0. -/
def tableByte (nbits w k : Nat) : Byte := BitVec.ofNat 8 ((w % 2 ^ nbits) >>> (8 * k))

/-- The three bytes (the longest instruction) of a word numbered as spec/opcode_table.json numbers it: bit 0 is the
least significant bit of the first byte. -/
def tableBytes (nbits w : Nat) : List Byte := [tableByte nbits w 0, tableByte nbits w 1, tableByte nbits w 2]

/-- The instruction the decoder reads from such a word. -/
def decodeTableWord (nbits w : Nat) : Option Instr :=
  match decode (tableBytes nbits w) with
  | .instr i _ => some i
  | .rejected _ => none

/-- The rel8 of a branch assembled at address `a` with target `t`, and none where the assembler must refuse it
(30_encoding.md R90). -/
def assembleRel (a t : Nat) : Option Byte :=
  let distance : Int := (t : Int) - ((a : Int) + 2)
  if -128 ≤ distance ∧ distance ≤ 127 then some (BitVec.ofInt 8 distance) else none

end Sys2Proof
end

