-- ==== Sys2Proof/Machine/Fetch.lean ====
section
/-!
DEFINITION. Fetching one instruction (40_execution_cycle.md R101, 41_addressing_modes.md R120 phase 1), and placing one
where the next step fetches it.
-/

namespace Sys2Proof.Machine

/-- An instruction as fetched: its opcode byte and what it decodes to. -/
structure Fetched where
  opcode : Byte
  instr : Instr
deriving DecidableEq, Repr

/-- Fetches the opcode, then as many operand bytes as its length says, each by `fetch8()`
(30_encoding.md R80, 20_memory.md R56). -/
def State.fetchInstr (s : State) : Fetched × State :=
  let (op, s) := s.fetch8
  match (entryOf op).length with
  | 1 => (⟨op, (entryOf op).build op 0 0⟩, s)
  | 2 =>
    let (b1, s) := s.fetch8
    (⟨op, (entryOf op).build op b1 0⟩, s)
  | _ =>
    let (b1, s) := s.fetch8
    let (b2, s) := s.fetch8
    (⟨op, (entryOf op).build op b1 b2⟩, s)

/-- The RAM with `bytes` stored from `a` on, addresses modulo 2^16. -/
def storeBytes (m : Memory) (a : Word) : List Byte → Memory
  | [] => m
  | b :: rest => storeBytes (m.write a.toNat b) (a + 1#16) rest

/-- Makes the state one whose next step fetches `bytes` at PC: plain RAM holding them there, Setup and Reset run
(log entry 3). Everything else is kept. -/
def State.placeAtPc (bytes : List Byte) (s : State) : State :=
  { s with
    mem := storeBytes s.mem s.pc bytes
    bus := .ram
    resetDone := true
    cyclesPerFrame := some (s.cyclesPerFrame.getD 20000) }

end Sys2Proof.Machine
end

