-- ==== Sys2Proof/Machine/Timing.lean ====
section
/-!
DEFINITION. Cycle accounting (40_execution_cycle.md R102) and the frame-boundary test (R103).
-/

namespace Sys2Proof.Machine

/-- The cost ExecuteOne adds for an opcode: `CYCLES[op]`, or `UNDEF_CYCLES` (40_execution_cycle.md R102). -/
def costOf (cfg : Config) (op : Byte) : Nat := (entryOf op).cycles.getD cfg.undefCycles

/-- `cycles <- cycles + cost` (40_execution_cycle.md R102, 60_exceptions.md R313). -/
def State.addCycles (cost : Nat) (s : State) : State := s.setCycles (s.cycles + cost)

/-- The frame-boundary test (40_execution_cycle.md R103): one subtraction at most, and what ExecuteOne returns. -/
def State.frameTest (frame : Nat) (s : State) : State :=
  if s.cycles ≥ (frame : Int) then (s.setCycles (s.cycles - frame)).setFrameSignal true else s.setFrameSignal false

end Sys2Proof.Machine
end

