-- ==== Sys2Proof/Machine/Step.lean ====
section
/-!
DEFINITION. The step: one ExecuteOne (40_execution_cycle.md R101). Fetch, run the instruction, add its cost, test for the
frame boundary. What it returns is left in `frameSignal` (log entry 9).
-/

namespace Sys2Proof.Machine

/-- `ExecuteOne()` (40_execution_cycle.md R101): refused before Reset and before Setup. -/
def step (s : State) : Host.Outcome State Fault Refusal :=
  match s.resetDone, s.cyclesPerFrame with
  | false, _ => .refused .resetNotRun
  | true, none => .refused .setupNotRun
  | true, some frame =>
    match exec s.fetchInstr.1.instr s.fetchInstr.2 with
    | .next t => .next ((t.addCycles (costOf s.config s.fetchInstr.1.opcode)).frameTest frame)
    | .fault r => .fault r
    | .refused r => .refused r

/-- The state with one instruction of the opcode table stored where the step fetches its next instruction. -/
def State.withFetchWord (s : State) (nbits w : Nat) : State := s.placeAtPc (tableBytes nbits w)

end Sys2Proof.Machine
end

