-- ==== Sys2Proof/Machine/HostCalls.lean ====
section
/-!
DEFINITION. The host interface (40_execution_cycle.md R100): Setup, Reset, TriggerNMI, TriggerIRQ and GetStatus beside
ExecuteOne (Machine/Step.lean), runs of host calls in any order (70_reset_and_hazards.md R353, log entry 10), and the end of
a program's run (40_execution_cycle.md R109).
-/

namespace Sys2Proof.Machine

/-- `Setup(bus, clockSpeedHz, frameRateHz)` (40_execution_cycle.md R106). No adapter stands for a null or invalid one
(93_implementation_defined.md U2). -/
def setup (adapter : Option Bus) (clockHz rateHz : Nat) (s : State) : Result :=
  match adapter, rateHz with
  | none, _ => .refused .invalidAdapter
  | some _, 0 => .refused .zeroFrameRate
  | some bus, rate => .next { s with bus := bus, cyclesPerFrame := some (clockHz / rate) }

/-- The registers, flags and cycle accumulator after Reset, before the vector is read (70_reset_and_hazards.md R340). -/
def State.withResetValues (s : State) : State :=
  { s with
    a := s.config.resetA
    x := s.config.resetX
    y := s.config.resetY
    sp := s.config.resetS
    flags := s.config.resetFlags
    cycles := 0
    resetDone := true }

/-- `Reset()` (70_reset_and_hazards.md R340, R341): two bus reads, no write. -/
def resetCore (s : State) : State :=
  let (target, s) := s.withResetValues.read16 resetVector
  s.setPc target

/-- `TriggerNMI()` (60_exceptions.md R306). -/
def triggerNmi (s : State) : Result :=
  match s.resetDone with
  | false => .refused .resetNotRun
  | true => .next ((s.interruptEntry nmiVector).addCycles s.config.intEntryCycles)

/-- `TriggerIRQ()` (60_exceptions.md R310, R311): what it answers to the host is whether it was serviced. -/
def triggerIrq (s : State) : Host.Outcome (State × Bool) Fault Refusal :=
  match s.resetDone, s.flags.i with
  | false, _ => .refused .resetNotRun
  | true, false => .next ((s.interruptEntry irqVector).addCycles s.config.intEntryCycles, true)
  | true, true => .next (s, false)

/-- The snapshot record of `GetStatus()`: A, X, Y, S, PC and P, with the two model-only observations
(40_execution_cycle.md R108). -/
structure Status where
  a : Byte
  x : Byte
  y : Byte
  sp : Byte
  pc : Word
  p : Byte
  cycles : Int
  undefCount : Nat
deriving DecidableEq, Repr

/-- The snapshot of a state (40_execution_cycle.md R108). -/
def State.status (s : State) : Status := ⟨s.a, s.x, s.y, s.sp, s.pc, s.pack, s.cycles, s.undefCount⟩

/-- `GetStatus()` (40_execution_cycle.md R108, 10_state.md R40): a pure read, refused before Reset. -/
def getStatus (s : State) : Host.Outcome Status Fault Refusal :=
  match s.resetDone with
  | false => .refused .resetNotRun
  | true => .next s.status

/-- A host call (40_execution_cycle.md R100). -/
inductive HostCall where
  | setup (adapter : Option Bus) (clockHz rateHz : Nat)
  | reset
  | executeOne
  | triggerNmi
  | triggerIrq
  | getStatus
deriving DecidableEq, Repr

/-- What a host call returns (40_execution_cycle.md R100). -/
inductive HostReturn where
  /-- Setup returns nothing -/
  | nothing
  /-- Reset and TriggerNMI return success, always true -/
  | success
  /-- ExecuteOne returns 1 at a frame boundary, else 0 -/
  | frame (boundary : Bool)
  /-- TriggerIRQ returns whether the interrupt was serviced -/
  | serviced (taken : Bool)
  /-- GetStatus returns the snapshot -/
  | status (snapshot : Status)
deriving DecidableEq, Repr

/-- What a host call answers: the state after it and its return value. -/
abbrev CallResult := Host.Outcome (State × HostReturn) Fault Refusal

/-- A state and a return value, from a call that answers a state. -/
def returning (f : State → HostReturn) : Result → CallResult
  | .next t => .next (t, f t)
  | .fault r => .fault r
  | .refused r => .refused r

/-- One host call (40_execution_cycle.md R100). -/
def call (c : HostCall) (s : State) : CallResult :=
  match c with
  | .setup adapter clockHz rateHz => returning (fun _ => .nothing) (setup adapter clockHz rateHz s)
  | .reset => .next (resetCore s, .success)
  | .executeOne => returning (fun t => .frame t.frameSignal) (step s)
  | .triggerNmi => returning (fun _ => .success) (triggerNmi s)
  | .triggerIrq =>
    match triggerIrq s with
    | .next (t, taken) => .next (t, .serviced taken)
    | .fault r => .fault r
    | .refused r => .refused r
  | .getStatus =>
    match getStatus s with
    | .next snapshot => .next (s, .status snapshot)
    | .fault r => .fault r
    | .refused r => .refused r

/-- Host calls one after another (20_memory.md R62, 40_execution_cycle.md R105), with what each returned. -/
def runCalls : List HostCall → State → Host.Outcome (State × List HostReturn) Fault Refusal
  | [], s => .next (s, [])
  | c :: cs, s =>
    match call c s with
    | .fault r => .fault r
    | .refused r => .refused r
    | .next (t, ret) =>
      match runCalls cs t with
      | .fault r => .fault r
      | .refused r => .refused r
      | .next (u, rets) => .next (u, ret :: rets)

/-- Is a call that left `t` the end of a program's run at the named address `e`: a return from ExecuteOne with PC = `e`
(40_execution_cycle.md R109)? -/
def endsRun (e : Word) (c : HostCall) (t : State) : Bool := decide (c = .executeOne) && decide (t.pc = e)

/-- A program's run under the host's calls, Trigger calls between the instructions included: it ends at the first return
from ExecuteOne with PC = `e` (40_execution_cycle.md R109), and the calls after that are not made. Answers the state
there and what the calls returned, and none where these calls do not end the run. -/
def runUntil (e : Word) : List HostCall → State → Option (State × List HostReturn)
  | [], _ => none
  | c :: cs, s =>
    match call c s with
    | .fault _ => none
    | .refused _ => none
    | .next (t, ret) =>
      if endsRun e c t then some (t, [ret]) else (runUntil e cs t).map fun (u, rets) => (u, ret :: rets)

end Sys2Proof.Machine
end

