-- ==== Sys2Proof/Safety.lean ====
section
/-!
DEFINITION. The words claims are stated in. What makes a run safe to speak of: Reset and Setup have run, plain memory
(20_memory.md R54), no undefined opcode (48_undefined_opcodes.md R261), the invariant every step keeps, the end of a run
(40_execution_cycle.md R109). And what the spec's prose says of whole classes of instructions: which bytes spell them,
which registers and flags they write, which bytes they store to, which bus calls they make, and what runs cost.
-/

namespace Sys2Proof.Machine

/-! ## Safe runs -/

/-- Reset and Setup have run, so ExecuteOne has a meaning (40_execution_cycle.md R101). -/
def State.Ready (s : State) : Prop := s.resetDone = true ∧ s.cyclesPerFrame ≠ none

/-- The premise of plain memory (20_memory.md R54). -/
def State.PlainMemory (s : State) : Prop := s.bus = .ram ∧ s.mem.wf = true

/-- The invariant: Reset and Setup have run, and the plain RAM's contents are in canonical form. -/
def State.Inv (s : State) : Prop := s.Ready ∧ s.mem.wf = true

/-- The premise of a claim that should hold of a chip too: `undef_count` does not grow (48_undefined_opcodes.md R261). -/
def NoUndefined (before after : State) : Prop := after.undefCount = before.undefCount

/-- The run of `calls` from `s`, Trigger calls included, is a program's whole run to the named address `e`: its last call is
an ExecuteOne after which PC is `e`, and after no earlier ExecuteOne is PC `e` (40_execution_cycle.md R109). `runUntil`
computes it. -/
def EndsAt (e : Word) (calls : List HostCall) (s t : State) (returns : List HostReturn) : Prop :=
  runCalls calls s = .next (t, returns) ∧ calls.getLast? = some .executeOne ∧ t.pc = e ∧
  ∀ earlier later u rets, calls = earlier ++ .executeOne :: later → later ≠ [] →
    runCalls (earlier ++ [.executeOne]) s = .next (u, rets) → u.pc ≠ e

/-! ## Spelling -/

/-- The one byte `op` spells `i`, at the fixed cost of `cost` cycles (30_encoding.md R81, R88). -/
def Spells1 (op : Byte) (cost : Nat) (i : Instr) : Prop :=
  (∀ rest, decode (op :: rest) = .instr i rest) ∧ ∀ cfg, costOf cfg op = cost

/-- `op` and one operand byte spell `k` of that byte. -/
def Spells2 (op : Byte) (cost : Nat) (k : Byte → Instr) : Prop :=
  (∀ b rest, decode (op :: b :: rest) = .instr (k b) rest) ∧ ∀ cfg, costOf cfg op = cost

/-- `op` and two operand bytes spell `k` of the little-endian word they make. -/
def Spells3 (op : Byte) (cost : Nat) (k : Word → Instr) : Prop :=
  (∀ lo hi rest, decode (op :: lo :: hi :: rest) = .instr (k (hi ++ lo)) rest) ∧ ∀ cfg, costOf cfg op = cost

/-- The eight opcodes of an Operands line, in its order: imm, zp, zp,X, abs, abs,X, abs,Y, (zp,X), (zp),Y. -/
def SpellsStandard (k : Src → Instr) (imm zp zpx abs abx aby izx izy : Byte) : Prop :=
  Spells2 imm 2 (fun v => k (.imm v)) ∧ Spells2 zp 3 (fun a => k (.mem (.zp a))) ∧
  Spells2 zpx 4 (fun a => k (.mem (.zpx a))) ∧ Spells3 abs 4 (fun a => k (.mem (.abs a))) ∧
  Spells3 abx 4 (fun a => k (.mem (.abx a))) ∧ Spells3 aby 4 (fun a => k (.mem (.aby a))) ∧
  Spells2 izx 6 (fun a => k (.mem (.izx a))) ∧ Spells2 izy 5 (fun a => k (.mem (.izy a)))

/-- The opcodes zp, zp,X, abs and abs,X of a read-modify-write instruction. -/
def SpellsModify (k : Mem → Instr) (zp zpx abs abx : Byte) : Prop :=
  Spells2 zp 5 (fun a => k (.zp a)) ∧ Spells2 zpx 6 (fun a => k (.zpx a)) ∧
  Spells3 abs 6 (fun a => k (.abs a)) ∧ Spells3 abx 7 (fun a => k (.abx a))

/-! ## What instructions write -/

/-- `f` with N and Z from `v` (10_state.md R31). -/
def nzFrom (f : Flags) (v : Byte) : Flags := { f with n := v.getLsbD 7, z := decide (v.toNat = 0) }

/-- What a decimal ADC or SBC leaves, from the state after its operand read and its decimal result: A and C as computed, or
drawn where the spec draws them, and N, Z and V drawn (44_arith_logic.md R181 to R184). -/
def State.withDecimal (after : State) (result : Option (Byte × Bool)) : State :=
  let k := after.draws
  match result with
  | some (r, c) =>
    { after with
      a := r, draws := k + 3
      flags := { after.flags with c := c, n := freeBit k, z := freeBit (k + 1), v := freeBit (k + 2) } }
  | none =>
    { after with
      a := freeByte k, draws := k + 5
      flags := { after.flags with
        c := freeBit (k + 1), n := freeBit (k + 2), z := freeBit (k + 3), v := freeBit (k + 4) } }

/-- The instructions that write A (10_state.md R21, and the accumulator forms of the shifts, 41_addressing_modes.md R136). -/
def writesA : Instr → Bool
  | .lda _ | .pla | .txa | .tya | .adc _ | .sbc _ | .and _ | .ora _ | .eor _ => true
  | .asl .acc | .lsr .acc | .rol .acc | .ror .acc => true
  | .ldx _ | .ldy _ | .sta _ | .stx _ | .sty _ | .tax | .tay | .tsx | .txs | .pha | .php | .plp | .cmp _ => false
  | .cpx _ | .cpy _ | .bit _ | .inc _ | .dec _ | .inx | .iny | .dex | .dey | .asl (.mem _) | .lsr (.mem _) => false
  | .rol (.mem _) | .ror (.mem _) | .jmp _ | .jsr _ | .rts | .rti | .brk | .bcc _ | .bcs _ | .beq _ | .bne _ => false
  | .bmi _ | .bpl _ | .bvc _ | .bvs _ | .clc | .sec | .cli | .sei | .cld | .sed | .clv | .nop | .undefined _ => false

/-- The instructions that write X (10_state.md R22). -/
def writesX : Instr → Bool
  | .ldx _ | .inx | .dex | .tax | .tsx => true
  | .lda _ | .ldy _ | .sta _ | .stx _ | .sty _ | .tay | .txa | .tya | .txs | .pha | .php | .pla | .plp => false
  | .adc _ | .sbc _ | .and _ | .ora _ | .eor _ | .cmp _ | .cpx _ | .cpy _ | .bit _ | .inc _ | .dec _ | .iny => false
  | .dey | .asl _ | .lsr _ | .rol _ | .ror _ | .jmp _ | .jsr _ | .rts | .rti | .brk | .bcc _ | .bcs _ => false
  | .beq _ | .bne _ | .bmi _ | .bpl _ | .bvc _ | .bvs _ | .clc | .sec | .cli | .sei | .cld | .sed | .clv => false
  | .nop | .undefined _ => false

/-- The instructions that write Y (10_state.md R22). -/
def writesY : Instr → Bool
  | .ldy _ | .iny | .dey | .tay => true
  | .lda _ | .ldx _ | .sta _ | .stx _ | .sty _ | .tax | .txa | .tya | .tsx | .txs | .pha | .php | .pla | .plp => false
  | .adc _ | .sbc _ | .and _ | .ora _ | .eor _ | .cmp _ | .cpx _ | .cpy _ | .bit _ | .inc _ | .dec _ | .inx => false
  | .dex | .asl _ | .lsr _ | .rol _ | .ror _ | .jmp _ | .jsr _ | .rts | .rti | .brk | .bcc _ | .bcs _ => false
  | .beq _ | .bne _ | .bmi _ | .bpl _ | .bvc _ | .bvs _ | .clc | .sec | .cli | .sei | .cld | .sed | .clv => false
  | .nop | .undefined _ => false

/-- The instructions that write S (10_state.md R23). -/
def writesS : Instr → Bool
  | .txs | .pha | .php | .pla | .plp | .jsr _ | .rts | .rti | .brk => true
  | .lda _ | .ldx _ | .ldy _ | .sta _ | .stx _ | .sty _ | .tax | .tay | .txa | .tya | .tsx | .adc _ | .sbc _ => false
  | .and _ | .ora _ | .eor _ | .cmp _ | .cpx _ | .cpy _ | .bit _ | .inc _ | .dec _ | .inx | .iny | .dex => false
  | .dey | .asl _ | .lsr _ | .rol _ | .ror _ | .jmp _ | .bcc _ | .bcs _ | .beq _ | .bne _ | .bmi _ | .bpl _ => false
  | .bvc _ | .bvs _ | .clc | .sec | .cli | .sei | .cld | .sed | .clv | .nop | .undefined _ => false

/-- The instructions that write PC beyond the operand fetch (file 46). -/
def writesPc : Instr → Bool
  | .jmp _ | .jsr _ | .rts | .rti | .brk => true
  | .bcc _ | .bcs _ | .beq _ | .bne _ | .bmi _ | .bpl _ | .bvc _ | .bvs _ => true
  | .lda _ | .ldx _ | .ldy _ | .sta _ | .stx _ | .sty _ | .tax | .tay | .txa | .tya | .tsx | .txs | .pha => false
  | .php | .pla | .plp | .adc _ | .sbc _ | .and _ | .ora _ | .eor _ | .cmp _ | .cpx _ | .cpy _ | .bit _ => false
  | .inc _ | .dec _ | .inx | .iny | .dex | .dey | .asl _ | .lsr _ | .rol _ | .ror _ | .clc | .sec | .cli => false
  | .sei | .cld | .sed | .clv | .nop | .undefined _ => false

/-- The instructions that write C (10_state.md R25). -/
def writesC : Instr → Bool
  | .adc _ | .sbc _ | .cmp _ | .cpx _ | .cpy _ | .asl _ | .lsr _ | .rol _ | .ror _ => true
  | .clc | .sec | .plp | .rti => true
  | .lda _ | .ldx _ | .ldy _ | .sta _ | .stx _ | .sty _ | .tax | .tay | .txa | .tya | .tsx | .txs | .pha => false
  | .php | .pla | .and _ | .ora _ | .eor _ | .bit _ | .inc _ | .dec _ | .inx | .iny | .dex | .dey | .jmp _ => false
  | .jsr _ | .rts | .brk | .bcc _ | .bcs _ | .beq _ | .bne _ | .bmi _ | .bpl _ | .bvc _ | .bvs _ | .cli => false
  | .sei | .cld | .sed | .clv | .nop | .undefined _ => false

/-- The instructions that write N and Z (10_state.md R25): those that call setNZ or draw them, the compares (44 R188),
BIT, PLP and RTI. -/
def writesNZ : Instr → Bool
  | .lda _ | .ldx _ | .ldy _ | .tax | .tay | .txa | .tya | .tsx | .pla => true
  | .adc _ | .sbc _ | .and _ | .ora _ | .eor _ | .cmp _ | .cpx _ | .cpy _ | .bit _ => true
  | .inc _ | .dec _ | .inx | .iny | .dex | .dey | .asl _ | .lsr _ | .rol _ | .ror _ => true
  | .plp | .rti => true
  | .sta _ | .stx _ | .sty _ | .txs | .pha | .php | .jmp _ | .jsr _ | .rts | .brk | .bcc _ | .bcs _ | .beq _ => false
  | .bne _ | .bmi _ | .bpl _ | .bvc _ | .bvs _ | .clc | .sec | .cli | .sei | .cld | .sed | .clv | .nop => false
  | .undefined _ => false

/-- The instructions that write I (10_state.md R25). -/
def writesI : Instr → Bool
  | .sei | .cli | .plp | .rti | .brk => true
  | .lda _ | .ldx _ | .ldy _ | .sta _ | .stx _ | .sty _ | .tax | .tay | .txa | .tya | .tsx | .txs | .pha => false
  | .php | .pla | .adc _ | .sbc _ | .and _ | .ora _ | .eor _ | .cmp _ | .cpx _ | .cpy _ | .bit _ | .inc _ => false
  | .dec _ | .inx | .iny | .dex | .dey | .asl _ | .lsr _ | .rol _ | .ror _ | .jmp _ | .jsr _ | .rts | .bcc _ => false
  | .bcs _ | .beq _ | .bne _ | .bmi _ | .bpl _ | .bvc _ | .bvs _ | .clc | .sec | .cld | .sed | .clv | .nop => false
  | .undefined _ => false

/-- The instructions that write D (10_state.md R25). -/
def writesD : Instr → Bool
  | .sed | .cld | .plp | .rti => true
  | .lda _ | .ldx _ | .ldy _ | .sta _ | .stx _ | .sty _ | .tax | .tay | .txa | .tya | .tsx | .txs | .pha => false
  | .php | .pla | .adc _ | .sbc _ | .and _ | .ora _ | .eor _ | .cmp _ | .cpx _ | .cpy _ | .bit _ | .inc _ => false
  | .dec _ | .inx | .iny | .dex | .dey | .asl _ | .lsr _ | .rol _ | .ror _ | .jmp _ | .jsr _ | .rts | .brk => false
  | .bcc _ | .bcs _ | .beq _ | .bne _ | .bmi _ | .bpl _ | .bvc _ | .bvs _ | .clc | .sec | .cli | .sei | .clv => false
  | .nop | .undefined _ => false

/-- The instructions that write B (10_state.md R25). -/
def writesB : Instr → Bool
  | .brk | .plp | .rti => true
  | .lda _ | .ldx _ | .ldy _ | .sta _ | .stx _ | .sty _ | .tax | .tay | .txa | .tya | .tsx | .txs | .pha => false
  | .php | .pla | .adc _ | .sbc _ | .and _ | .ora _ | .eor _ | .cmp _ | .cpx _ | .cpy _ | .bit _ | .inc _ => false
  | .dec _ | .inx | .iny | .dex | .dey | .asl _ | .lsr _ | .rol _ | .ror _ | .jmp _ | .jsr _ | .rts | .bcc _ => false
  | .bcs _ | .beq _ | .bne _ | .bmi _ | .bpl _ | .bvc _ | .bvs _ | .clc | .sec | .cli | .sei | .cld | .sed => false
  | .clv | .nop | .undefined _ => false

/-- The instructions that write V (10_state.md R25, 46_control_transfer.md R232). -/
def writesV : Instr → Bool
  | .adc _ | .sbc _ | .bit _ | .clv | .plp | .rti => true
  | .lda _ | .ldx _ | .ldy _ | .sta _ | .stx _ | .sty _ | .tax | .tay | .txa | .tya | .tsx | .txs | .pha => false
  | .php | .pla | .and _ | .ora _ | .eor _ | .cmp _ | .cpx _ | .cpy _ | .inc _ | .dec _ | .inx | .iny | .dex => false
  | .dey | .asl _ | .lsr _ | .rol _ | .ror _ | .jmp _ | .jsr _ | .rts | .brk | .bcc _ | .bcs _ | .beq _ => false
  | .bne _ | .bmi _ | .bpl _ | .bvc _ | .bvs _ | .clc | .sec | .cli | .sei | .cld | .sed | .nop => false
  | .undefined _ => false

/-- The addresses an instruction stores to: the effective address of its operand form, or the stack bytes it pushes. -/
def storedAddresses (i : Instr) (s : State) : List Word :=
  match i with
  | .sta m | .stx m | .sty m | .inc m | .dec m => [(s.ea m).1]
  | .asl (.mem m) | .lsr (.mem m) | .rol (.mem m) | .ror (.mem m) => [(s.ea m).1]
  | .pha | .php => [stackAddress s.sp]
  | .jsr _ => [stackAddress s.sp, stackAddress (s.sp - 1)]
  | .brk => [stackAddress s.sp, stackAddress (s.sp - 1), stackAddress (s.sp - 1 - 1)]
  | .lda _ | .ldx _ | .ldy _ | .tax | .tay | .txa | .tya | .tsx | .txs | .pla | .plp | .adc _ | .sbc _ | .and _ => []
  | .ora _ | .eor _ | .cmp _ | .cpx _ | .cpy _ | .bit _ | .inx | .iny | .dex | .dey | .asl .acc | .lsr .acc => []
  | .rol .acc | .ror .acc | .jmp _ | .rts | .rti | .bcc _ | .bcs _ | .beq _ | .bne _ | .bmi _ | .bpl _ | .bvc _ => []
  | .bvs _ | .clc | .sec | .cli | .sei | .cld | .sed | .clv | .nop | .undefined _ => []

/-- The state with the stored break flag set to `b` (10_state.md R25, R26). -/
def State.withB (s : State) (b : Bool) : State := { s with flags := { s.flags with b := b } }

/-! ## Bus calls -/

/-- A bus call's kind and address. -/
inductive BusAccess where
  /-- a Read of the address -/
  | rd (addr : Word)
  /-- a Write at the address -/
  | wr (addr : Word)
deriving DecidableEq, Repr

/-- The kind and address of a recorded bus call. -/
def BusEvent.access : BusEvent → BusAccess
  | .read a _ => .rd a
  | .write a _ => .wr a

/-- A memory mode's pointer reads: the zero-page pointer's two bytes, the second at `(p + 1) & 0xFF`
(41_addressing_modes.md R131, R132). -/
def pointerAccesses (m : Mem) (s : State) : List BusAccess :=
  match m with
  | .izx a => [.rd (zext16 (a + s.x)), .rd (zext16 (a + s.x + 1))]
  | .izy a => [.rd (zext16 a), .rd (zext16 (a + 1))]
  | .zp _ | .zpx _ | .zpy _ | .abs _ | .abx _ | .aby _ => []

/-- The bus calls of reading an operand: one read of the effective address (41_addressing_modes.md R134). -/
def loadAccesses (src : Src) (s : State) : List BusAccess :=
  match src with
  | .imm _ => []
  | .mem m => pointerAccesses m s ++ [.rd (s.ea m).1]

/-- The bus calls of a store: one write of the effective address (41_addressing_modes.md R135). -/
def storeAccesses (m : Mem) (s : State) : List BusAccess := pointerAccesses m s ++ [.wr (s.ea m).1]

/-- The bus calls of a read-modify-write: one read and one write of the same address (20_memory.md R65,
41_addressing_modes.md R136). -/
def modifyAccesses (dst : Dst) (s : State) : List BusAccess :=
  match dst with
  | .acc => []
  | .mem m => pointerAccesses m s ++ [.rd (s.ea m).1, .wr (s.ea m).1]

/-- The bus calls an instruction makes after its operand fetch, in order (41_addressing_modes.md R120, 20_memory.md R69):
at the effective address, at the stack bytes pushed or pulled, at the pointer of JMP (ind), and at BRK's vector. -/
def busAccesses (i : Instr) (s : State) : List BusAccess :=
  match i with
  | .lda src | .ldx src | .ldy src | .adc src | .sbc src | .and src | .ora src | .eor src => loadAccesses src s
  | .cmp src | .cpx src | .cpy src => loadAccesses src s
  | .bit m => loadAccesses (.mem m) s
  | .sta m | .stx m | .sty m => storeAccesses m s
  | .inc m | .dec m => modifyAccesses (.mem m) s
  | .asl dst | .lsr dst | .rol dst | .ror dst => modifyAccesses dst s
  | .pha | .php => [.wr (stackAddress s.sp)]
  | .pla | .plp => [.rd (stackAddress (s.sp + 1))]
  | .jmp (.abs _) => []
  | .jmp (.ind p) => [.rd p, .rd (jmpIndHighAddress s.config.jmpIndPageWrap p)]
  | .jsr _ => [.wr (stackAddress s.sp), .wr (stackAddress (s.sp - 1))]
  | .rts => [.rd (stackAddress (s.sp + 1)), .rd (stackAddress (s.sp + 1 + 1))]
  | .rti => [.rd (stackAddress (s.sp + 1)), .rd (stackAddress (s.sp + 1 + 1)), .rd (stackAddress (s.sp + 1 + 1 + 1))]
  | .brk =>
    [.wr (stackAddress s.sp), .wr (stackAddress (s.sp - 1)), .wr (stackAddress (s.sp - 1 - 1)), .rd 0xFFFE, .rd 0xFFFF]
  | .tax | .tay | .txa | .tya | .tsx | .txs | .inx | .iny | .dex | .dey => []
  | .bcc _ | .bcs _ | .beq _ | .bne _ | .bmi _ | .bpl _ | .bvc _ | .bvs _ => []
  | .clc | .sec | .cli | .sei | .cld | .sed | .clv | .nop | .undefined _ => []

/-- The value of the latest write to `a` among recorded calls (latest first), or what memory held before them. -/
def latestWrite (initial : Memory) : List BusEvent → Nat → Byte
  | [], a => initial.read a
  | .write b v :: earlier, a => if b.toNat = a then v else latestWrite initial earlier a
  | .read _ _ :: earlier, a => latestWrite initial earlier a

/-- Every recorded read returned the value of the latest earlier write to its address (20_memory.md R63). -/
def ReadsLatest (initial : Memory) : List BusEvent → Prop
  | [] => True
  | .write _ _ :: earlier => ReadsLatest initial earlier
  | .read a v :: earlier => v = latestWrite initial earlier a.toNat ∧ ReadsLatest initial earlier

/-- On plain memory that held `initial` when recording began: every recorded read returned the latest earlier write, and
memory holds the latest writes (20_memory.md R63). -/
def State.Consistent (initial : Memory) (s : State) : Prop :=
  s.PlainMemory ∧ ReadsLatest initial s.busLog ∧ ∀ a, s.mem.read a = latestWrite initial s.busLog a

/-! ## Fetching -/

/-- `n` bytes taken by `fetch8()` one after another (20_memory.md R56). -/
def State.fetchBytes : Nat → State → List Byte × State
  | 0, s => ([], s)
  | n + 1, s =>
    let (b, s) := s.fetch8
    let (bs, s) := State.fetchBytes n s
    (b :: bs, s)

/-! ## Costs and counters -/

/-- The cycles a host call adds: an instruction's cost, or a serviced interrupt's (70_reset_and_hazards.md R361). -/
def callCost (c : HostCall) (s : State) : Nat :=
  match c with
  | .executeOne => costOf s.config s.fetchInstr.1.opcode
  | .triggerNmi => s.config.intEntryCycles
  | .triggerIrq => if s.flags.i then 0 else s.config.intEntryCycles
  | .setup _ _ _ | .reset | .getStatus => 0

/-- The cycles a run of host calls adds in all. -/
def runCost : List HostCall → State → Nat
  | [], _ => 0
  | c :: cs, s =>
    match call c s with
    | .next (t, _) => callCost c s + runCost cs t
    | .fault _ => 0
    | .refused _ => 0

/-- The run's calls hold no Reset and no Setup (40_execution_cycle.md R110). -/
def keepsTiming : HostCall → Bool
  | .setup _ _ _ | .reset => false
  | .executeOne | .triggerNmi | .triggerIrq | .getStatus => true

/-- The premise of 40_execution_cycle.md R110: between two frame tests at most `frame` cycles are added. `pending` is what
interrupts have added since the last test. -/
def GapsFit (frame : Nat) : Nat → List HostCall → State → Prop
  | _, [], _ => True
  | pending, c :: cs, s =>
    match call c s with
    | .next (t, _) =>
      if c = .executeOne then pending + callCost c s ≤ frame ∧ GapsFit frame 0 cs t
      else GapsFit frame (pending + callCost c s) cs t
    | .fault _ => True
    | .refused _ => True

/-- How many of the returned values signal a frame boundary. -/
def frameSignals (returns : List HostReturn) : Nat := returns.count (.frame true)

/-- The state without its counters: what no instruction can read (10_state.md R33, R34, R36, 70_reset_and_hazards.md R360). -/
def State.withoutCounters (s : State) : State :=
  { s with cycles := 0, cyclesPerFrame := none, undefCount := 0, frameSignal := false }

end Sys2Proof.Machine
end

