-- ==== Sys2Proof/Certificates/Slice0/Obligations.lean ====
section
/-!
DEFINITION. The statements for the provers, from the numbered rules of spec/. Each docstring names the rule it formalises.
`exec i s` runs on the state after the operand fetch, so `s.pc` is the address of the next instruction
(41_addressing_modes.md R120); Obligations.StepRunsTheDecodedInstruction ties it to a step.
-/

open Sys2Proof Sys2Proof.Machine

/-! ## Encoding -/

/-- Words written out from 30_encoding.md R84 and R88, one for each family, decode to what they stand for (R81, R85). -/
def Obligations.SpelledWordsDecode : Prop :=
  decode [0b10101001, 0x80] = .instr (.lda (.imm 0x80)) [] ∧
  decode [0b10010001, 0x20, 0x55] = .instr (.sta (.izy 0x20)) [0x55] ∧
  decode [0b10011010] = .instr .txs [] ∧
  decode [0b00101000] = .instr .plp [] ∧
  decode [0b01101101, 0x34, 0x12] = .instr (.adc (.mem (.abs 0x1234))) [] ∧
  decode [0b00111110, 0x00, 0x30] = .instr (.rol (.mem (.abx 0x3000))) [] ∧
  decode [0b01101100, 0xFF, 0x12] = .instr (.jmp (.ind 0x12FF)) [] ∧
  decode [0b11010000, 0xF9] = .instr (.bne 0xF9) [] ∧
  decode [0b01111000] = .instr .sei [] ∧
  decode [0b00000010, 0xA9] = .instr (.undefined 0x02) [0xA9]

/-- Decoding what the encoder gives any row of the opcode table gives the row back, and leaves the bytes after it
(30_encoding.md R80, R81, R88). -/
def Obligations.DecodeOfEncode : Prop :=
  ∀ (i : Instr) (rest : List Byte), i.WellFormed →
    ∃ bytes, encode i = some bytes ∧ decode (bytes ++ rest) = .instr i rest

/-- Every word has one meaning: what decodes is a row of the opcode table, and the encoder spells it with the very bytes
that were read (30_encoding.md R80, R88). -/
def Obligations.EncodeOfDecode : Prop :=
  ∀ (bytes : List Byte) (i : Instr) (rest : List Byte), decode bytes = .instr i rest →
    i.WellFormed ∧ ∃ word, encode i = some word ∧ bytes = word ++ rest

/-- The assembler's rel8 (30_encoding.md R90) reaches its target: where it is defined, a branch at `a` with that rel8
has target `t`; and it is refused exactly when the distance does not fit. -/
def Obligations.AssembledBranchReachesTarget : Prop :=
  ∀ (a t : Word),
    (∀ rel, assembleRel a.toNat t.toNat = some rel → branchTarget (a + 2#16) rel = t) ∧
    (assembleRel a.toNat t.toNat = none ↔
      ((t.toNat : Int) - (a.toNat + 2) < -128 ∨ 127 < (t.toNat : Int) - (a.toNat + 2)))

/-! ## Memory, the bus and the stack -/

/-- Before Setup the bus is the stubs: a read returns 0 for every address, and a write changes nothing but the record of
calls (20_memory.md R53). -/
def Obligations.StubBusReadsZeroAndDiscardsWrites : Prop :=
  State.created.bus = .stub ∧
  ∀ (s : State) (a : Word) (v : Byte), s.bus = .stub →
    (s.memRead a).1 = 0 ∧ s.memWrite a v = s.logged [.write a v]

/-- Plain memory (20_memory.md R54): a read returns the last value written at its address, and 0 at every address that
memory does not list; a write leaves every other address alone. That an unlisted byte is 0 is the model's choice too (log
entry 4). -/
def Obligations.PlainMemoryReadsLastWrite : Prop :=
  ∀ (s : State) (a : Word) (v : Byte), s.PlainMemory →
    ((s.memWrite a v).memRead a).1 = v ∧
    (∀ b, b ≠ a → ((s.memWrite a v).memRead b).1 = (s.memRead b).1) ∧
    (a.toNat ∉ s.mem.map Prod.fst → (s.memRead a).1 = 0) ∧ (s.memWrite a v).PlainMemory

/-- `read16` (20_memory.md R55): the low byte is read first, at `a`, then the high byte at `(a + 1) & 0xFFFF`, and the
value is `hi * 256 + lo`. -/
def Obligations.Read16IsLittleEndian : Prop :=
  ∀ (s : State) (a : Word),
    let lo := s.memRead a
    let hi := lo.2.memRead (BitVec.ofNat 16 (a.toNat + 1))
    (s.read16 a).1.toNat = hi.1.toNat * 256 + lo.1.toNat ∧ (s.read16 a).2 = hi.2

/-- `push8` and `pull8` (20_memory.md R58, R59): the stack byte is at 0x0100 + S, S moves by one modulo 256, and nothing
else of the state moves. -/
def Obligations.PushAndPullUseTheStackPage : Prop :=
  ∀ (s : State) (v : Byte),
    s.push8 v = { s.memWrite (BitVec.ofNat 16 (0x100 + s.sp.toNat)) v with sp := BitVec.ofNat 8 (s.sp.toNat + 255) } ∧
    s.pull8 = ({ s with sp := BitVec.ofNat 8 (s.sp.toNat + 1) } : State).memRead
      (BitVec.ofNat 16 (0x100 + (s.sp.toNat + 1) % 256))

/-- On plain memory a pull gives back the byte just pushed and the S of before, for every S, the wrap of 0x00 to 0xFF
included (20_memory.md R58, R59). -/
def Obligations.PullUndoesPush : Prop :=
  ∀ (s : State) (v : Byte), s.PlainMemory →
    (s.push8 v).pull8.1 = v ∧ (s.push8 v).pull8.2.sp = s.sp ∧
    ∀ b, b ≠ stackAddress s.sp → (s.push8 v).pull8.2.mem.read b.toNat = s.mem.read b.toNat

/-- Every host call but Setup keeps sequential consistency on plain memory (20_memory.md R63): every read recorded
returned the value of the latest earlier write to its address, and memory holds the latest writes. -/
def Obligations.EveryReadReturnsTheLatestWrite : Prop :=
  ∀ (initial : Memory) (c : HostCall) (s t : State) (ret : HostReturn),
    (∀ adapter clockHz rateHz, c ≠ .setup adapter clockHz rateHz) →
    s.Consistent initial → call c s = .next (t, ret) → t.Consistent initial

/-- The bus calls of every instruction after its operand fetch (20_memory.md R65, R69, 41_addressing_modes.md R120, R134 to
R136): exactly the reads and writes its rule lists, each at the address the rule gives, in that order, and no others; a
read-modify-write reads and writes the same address; calls made before are kept. The bytes moved are in the result
statements. -/
def Obligations.BusCallsAreTheListedOnes : Prop :=
  ∀ (i : Instr) (s t : State), exec i s = .next t →
    ∃ calls, t.busLog = calls ++ s.busLog ∧ calls.reverse.map BusEvent.access = busAccesses i s

/-! ## Addressing modes -/

/-- The effective addresses of the memory modes (41_addressing_modes.md R124 to R129, R131, R132), as numbers, with the
pointer reads they make and nothing else changed. -/
def Obligations.EffectiveAddresses : Prop :=
  ∀ (s : State) (a : Byte) (w : Word),
    ((s.ea (.zp a)).1.toNat = a.toNat ∧ (s.ea (.zp a)).2 = s) ∧
    ((s.ea (.zpx a)).1.toNat = (a.toNat + s.x.toNat) % 256 ∧ (s.ea (.zpx a)).2 = s) ∧
    ((s.ea (.zpy a)).1.toNat = (a.toNat + s.y.toNat) % 256 ∧ (s.ea (.zpy a)).2 = s) ∧
    s.ea (.abs w) = (w, s) ∧
    ((s.ea (.abx w)).1.toNat = (w.toNat + s.x.toNat) % 65536 ∧ (s.ea (.abx w)).2 = s) ∧
    ((s.ea (.aby w)).1.toNat = (w.toNat + s.y.toNat) % 65536 ∧ (s.ea (.aby w)).2 = s) ∧
    (let p := (a.toNat + s.x.toNat) % 256
     let lo := s.memRead (BitVec.ofNat 16 p)
     let hi := lo.2.memRead (BitVec.ofNat 16 ((p + 1) % 256))
     (s.ea (.izx a)).1.toNat = hi.1.toNat * 256 + lo.1.toNat ∧ (s.ea (.izx a)).2 = hi.2) ∧
    (let lo := s.memRead (BitVec.ofNat 16 a.toNat)
     let hi := lo.2.memRead (BitVec.ofNat 16 ((a.toNat + 1) % 256))
     (s.ea (.izy a)).1.toNat = (hi.1.toNat * 256 + lo.1.toNat + s.y.toNat) % 65536 ∧ (s.ea (.izy a)).2 = hi.2)

/-- Reading an operand (41_addressing_modes.md R134): the immediate with no bus call, or one read at the effective
address; and in either case no register, flag, counter or byte of memory changes. -/
def Obligations.OperandReadChangesNothing : Prop :=
  ∀ (src : Src) (s : State),
    (∀ v, src = .imm v → s.load src = (v, s)) ∧
    (∀ m, src = .mem m → s.load src = (s.ea m).2.memRead (s.ea m).1) ∧
    { (s.load src).2 with busLog := s.busLog } = s

/-! ## Instructions: results -/

/-- LDA, LDX and LDY (42_load_store_transfer.md R150, R151, R152): opcodes and costs, the register loaded, N and Z, all
else kept. -/
def Obligations.LoadsWriteRegisterAndNZ : Prop :=
  (SpellsStandard .lda 0xA9 0xA5 0xB5 0xAD 0xBD 0xB9 0xA1 0xB1 ∧
   Spells2 0xA2 2 (fun v => .ldx (.imm v)) ∧ Spells2 0xA6 3 (fun a => .ldx (.mem (.zp a))) ∧
   Spells2 0xB6 4 (fun a => .ldx (.mem (.zpy a))) ∧ Spells3 0xAE 4 (fun a => .ldx (.mem (.abs a))) ∧
   Spells3 0xBE 4 (fun a => .ldx (.mem (.aby a))) ∧
   Spells2 0xA0 2 (fun v => .ldy (.imm v)) ∧ Spells2 0xA4 3 (fun a => .ldy (.mem (.zp a))) ∧
   Spells2 0xB4 4 (fun a => .ldy (.mem (.zpx a))) ∧ Spells3 0xAC 4 (fun a => .ldy (.mem (.abs a))) ∧
   Spells3 0xBC 4 (fun a => .ldy (.mem (.abx a)))) ∧
  ∀ (src : Src) (s : State),
    let v := (s.load src).1
    let after := (s.load src).2
    exec (.lda src) s = .next { after with a := v, flags := nzFrom s.flags v } ∧
    exec (.ldx src) s = .next { after with x := v, flags := nzFrom s.flags v } ∧
    exec (.ldy src) s = .next { after with y := v, flags := nzFrom s.flags v }

/-- STA, STX and STY (42_load_store_transfer.md R153, R154, R155): opcodes and costs, one write of the register at the
effective address with no read of it, no flag. -/
def Obligations.StoresWriteOneByte : Prop :=
  (Spells2 0x85 3 (fun a => .sta (.zp a)) ∧ Spells2 0x95 4 (fun a => .sta (.zpx a)) ∧
   Spells3 0x8D 4 (fun a => .sta (.abs a)) ∧
   Spells3 0x9D 5 (fun a => .sta (.abx a)) ∧ Spells3 0x99 5 (fun a => .sta (.aby a)) ∧
   Spells2 0x81 6 (fun a => .sta (.izx a)) ∧
   Spells2 0x91 6 (fun a => .sta (.izy a)) ∧
   Spells2 0x86 3 (fun a => .stx (.zp a)) ∧ Spells2 0x96 4 (fun a => .stx (.zpy a)) ∧
   Spells3 0x8E 4 (fun a => .stx (.abs a)) ∧
   Spells2 0x84 3 (fun a => .sty (.zp a)) ∧ Spells2 0x94 4 (fun a => .sty (.zpx a)) ∧
   Spells3 0x8C 4 (fun a => .sty (.abs a))) ∧
  ∀ (m : Mem) (s : State),
    exec (.sta m) s = .next ((s.ea m).2.memWrite (s.ea m).1 s.a) ∧
    exec (.stx m) s = .next ((s.ea m).2.memWrite (s.ea m).1 s.x) ∧
    exec (.sty m) s = .next ((s.ea m).2.memWrite (s.ea m).1 s.y)

/-- TAX, TAY, TXA, TYA, TSX and TXS (42_load_store_transfer.md R156 to R161): opcodes and costs, the register moved, N
and Z of the value moved except for TXS, all else kept. -/
def Obligations.TransfersMoveRegisters : Prop :=
  (Spells1 0xAA 2 .tax ∧ Spells1 0xA8 2 .tay ∧ Spells1 0x8A 2 .txa ∧ Spells1 0x98 2 .tya ∧ Spells1 0xBA 2 .tsx ∧
   Spells1 0x9A 2 .txs) ∧
  ∀ s : State,
    exec .tax s = .next { s with x := s.a, flags := nzFrom s.flags s.a } ∧
    exec .tay s = .next { s with y := s.a, flags := nzFrom s.flags s.a } ∧
    exec .txa s = .next { s with a := s.x, flags := nzFrom s.flags s.x } ∧
    exec .tya s = .next { s with a := s.y, flags := nzFrom s.flags s.y } ∧
    exec .tsx s = .next { s with x := s.sp, flags := nzFrom s.flags s.sp } ∧
    exec .txs s = .next { s with sp := s.x }

/-- PHA, PHP, PLA and PLP (43_stack.md R170 to R173): opcodes and costs, the byte pushed or pulled, the flags, all else
kept. -/
def Obligations.StackInstructionResults : Prop :=
  (Spells1 0x48 3 .pha ∧ Spells1 0x08 3 .php ∧ Spells1 0x68 4 .pla ∧ Spells1 0x28 4 .plp) ∧
  ∀ s : State,
    exec .pha s = .next (s.push8 s.a) ∧
    exec .php s = .next (s.push8 s.flags.pack) ∧
    exec .pla s = .next { s.pull8.2 with a := s.pull8.1, flags := nzFrom s.flags s.pull8.1 } ∧
    exec .plp s = .next { s.pull8.2 with flags := Flags.unpack s.pull8.1 }

/-- The binary adder (44_arith_logic.md R180): the sum modulo 256, carry exactly when the unsigned sum exceeds 255,
overflow exactly when the signed sum leaves -128 to 127. -/
def Obligations.AdderCarriesAndOverflows : Prop :=
  ∀ (a m : Byte) (cin : Bool),
    (add8 a m cin).r.toNat = (a.toNat + m.toNat + cin.toNat) % 256 ∧
    ((add8 a m cin).cout = true ↔ a.toNat + m.toNat + cin.toNat > 255) ∧
    ((add8 a m cin).v = true ↔
      (a.toInt + m.toInt + (cin.toNat : Int) < -128 ∨ a.toInt + m.toInt + (cin.toNat : Int) > 127))

/-- Decimal addition and subtraction of valid BCD operands are exact (44_arith_logic.md R181, R182): the result is valid
BCD, its digits with the carry as the hundreds are the decimal sum, and with the borrow the decimal difference. On
operands that are not valid BCD the spec gives no result. -/
def Obligations.DecimalArithmeticIsExact : Prop :=
  ∀ (a m : Byte) (cin : Bool),
    (validBcd a = true → validBcd m = true →
      (∃ r c, dadd a m cin = some (r, c) ∧ validBcd r = true ∧
        dec r + 100 * c.toNat = dec a + dec m + cin.toNat) ∧
      (∃ r c, dsub a m cin = some (r, c) ∧ validBcd r = true ∧
        (dec r : Int) - 100 * (1 - c.toNat) = (dec a : Int) - dec m - (1 - cin.toNat))) ∧
    (¬ (validBcd a = true ∧ validBcd m = true) → dadd a m cin = none ∧ dsub a m cin = none)

/-- ADC (44_arith_logic.md R183): opcodes and costs. With D = 0 or without `DECIMAL_MODE`, A is the sum modulo 256, C
the unsigned carry, V the signed overflow, N and Z of the result. Otherwise A and C are those of `dadd`, or drawn where
it draws them, and N, Z and V are drawn; nothing is said of what is drawn. How a draw is supplied, by the opaque freeBit
and freeByte at a counter that each draw advances, is the model's choice (log entry 7, DESIGN CHOICE). All else kept. -/
def Obligations.AdcResult : Prop :=
  SpellsStandard .adc 0x69 0x65 0x75 0x6D 0x7D 0x79 0x61 0x71 ∧
  ∀ (src : Src) (s : State),
    let m := (s.load src).1
    let sum := s.a.toNat + m.toNat + s.flags.c.toNat
    let signed := s.a.toInt + m.toInt + (s.flags.c.toNat : Int)
    exec (.adc src) s = .next
      (if s.config.decimalMode = true ∧ s.flags.d = true then (s.load src).2.withDecimal (dadd s.a m s.flags.c)
       else
        { (s.load src).2 with
          a := BitVec.ofNat 8 sum
          flags := nzFrom { s.flags with c := decide (sum > 255), v := decide (signed < -128 ∨ signed > 127) }
            (BitVec.ofNat 8 sum) })

/-- SBC (44_arith_logic.md R184): opcodes and costs. With D = 0 or without `DECIMAL_MODE`, A is `A - m - (1 - C)` modulo
256, C = 1 exactly when no borrow is needed, V the signed overflow, N and Z of the result. Otherwise A and C are those
of `dsub`, or drawn where it draws them, and N, Z and V are drawn; nothing is said of what is drawn. How a draw is
supplied, by the opaque freeBit and freeByte at a counter that each draw advances, is the model's choice (log entry 7,
DESIGN CHOICE). All else kept. -/
def Obligations.SbcResult : Prop :=
  SpellsStandard .sbc 0xE9 0xE5 0xF5 0xED 0xFD 0xF9 0xE1 0xF1 ∧
  ∀ (src : Src) (s : State),
    let m := (s.load src).1
    let difference : Int := (s.a.toNat : Int) - m.toNat - (1 - s.flags.c.toNat)
    let signed : Int := s.a.toInt - m.toInt - (1 - s.flags.c.toNat)
    exec (.sbc src) s = .next
      (if s.config.decimalMode = true ∧ s.flags.d = true then (s.load src).2.withDecimal (dsub s.a m s.flags.c)
       else
        { (s.load src).2 with
          a := BitVec.ofInt 8 difference
          flags := nzFrom { s.flags with c := decide (0 ≤ difference), v := decide (signed < -128 ∨ signed > 127) }
            (BitVec.ofInt 8 difference) })

/-- AND, ORA and EOR (44_arith_logic.md R185, R186, R187): opcodes and costs; each bit of A is the operation on the bits
of A and the operand, N and Z of the result; C, V and all else kept. -/
def Obligations.LogicResults : Prop :=
  (SpellsStandard .and 0x29 0x25 0x35 0x2D 0x3D 0x39 0x21 0x31 ∧
   SpellsStandard .ora 0x09 0x05 0x15 0x0D 0x1D 0x19 0x01 0x11 ∧
   SpellsStandard .eor 0x49 0x45 0x55 0x4D 0x5D 0x59 0x41 0x51) ∧
  ∀ (src : Src) (s : State),
    let m := (s.load src).1
    let after := (s.load src).2
    (∃ r : Byte, exec (.and src) s = .next { after with a := r, flags := nzFrom s.flags r } ∧
      ∀ k, r.getLsbD k = (s.a.getLsbD k && m.getLsbD k)) ∧
    (∃ r : Byte, exec (.ora src) s = .next { after with a := r, flags := nzFrom s.flags r } ∧
      ∀ k, r.getLsbD k = (s.a.getLsbD k || m.getLsbD k)) ∧
    (∃ r : Byte, exec (.eor src) s = .next { after with a := r, flags := nzFrom s.flags r } ∧
      ∀ k, r.getLsbD k = (s.a.getLsbD k ^^ m.getLsbD k))

/-- CMP, CPX, CPY and BIT (44_arith_logic.md R188 to R192): opcodes and costs. A compare's C is the unsigned `register
>= m`, Z equality, N bit 7 of the difference modulo 256. BIT's Z is that of `A & m`, N and V are bits 7 and 6 of the
operand. No register is written, the other flags and all else are kept, whatever D is. -/
def Obligations.CompareAndBitTestResults : Prop :=
  (SpellsStandard .cmp 0xC9 0xC5 0xD5 0xCD 0xDD 0xD9 0xC1 0xD1 ∧
   Spells2 0xE0 2 (fun v => .cpx (.imm v)) ∧ Spells2 0xE4 3 (fun a => .cpx (.mem (.zp a))) ∧
   Spells3 0xEC 4 (fun a => .cpx (.mem (.abs a))) ∧
   Spells2 0xC0 2 (fun v => .cpy (.imm v)) ∧ Spells2 0xC4 3 (fun a => .cpy (.mem (.zp a))) ∧
   Spells3 0xCC 4 (fun a => .cpy (.mem (.abs a))) ∧
   Spells2 0x24 3 (fun a => .bit (.zp a)) ∧ Spells3 0x2C 4 (fun a => .bit (.abs a))) ∧
  (∀ (src : Src) (s : State),
    let m := (s.load src).1
    let compared (r : Byte) : Flags :=
      { s.flags with
        c := decide (m.toNat ≤ r.toNat), z := decide (r.toNat = m.toNat)
        n := decide ((r.toNat + 256 - m.toNat) % 256 ≥ 128) }
    exec (.cmp src) s = .next { (s.load src).2 with flags := compared s.a } ∧
    exec (.cpx src) s = .next { (s.load src).2 with flags := compared s.x } ∧
    exec (.cpy src) s = .next { (s.load src).2 with flags := compared s.y }) ∧
  ∀ (mode : Mem) (s : State),
    let m := (s.load (.mem mode)).1
    exec (.bit mode) s = .next { (s.load (.mem mode)).2 with
      flags := { s.flags with z := decide (s.a &&& m = 0), n := m.getLsbD 7, v := m.getLsbD 6 } }

/-- INC, DEC, INX, INY, DEX and DEY (45_inc_dec_shift.md R200 to R205): opcodes and costs. The byte or the register plus
or minus one modulo 256; for memory one read and one write of the effective address. N and Z of the result; C, V and all
else kept, whatever D is. -/
def Obligations.IncrementAndDecrementResults : Prop :=
  (SpellsModify .inc 0xE6 0xF6 0xEE 0xFE ∧ SpellsModify .dec 0xC6 0xD6 0xCE 0xDE ∧
   Spells1 0xE8 2 .inx ∧ Spells1 0xC8 2 .iny ∧ Spells1 0xCA 2 .dex ∧ Spells1 0x88 2 .dey) ∧
  ∀ (m : Mem) (s : State),
    let up (v : Byte) : Byte := BitVec.ofNat 8 (v.toNat + 1)
    let down (v : Byte) : Byte := BitVec.ofNat 8 (v.toNat + 255)
    let old := (s.ea m).2.memRead (s.ea m).1
    exec (.inc m) s = .next { old.2.memWrite (s.ea m).1 (up old.1) with flags := nzFrom s.flags (up old.1) } ∧
    exec (.dec m) s = .next { old.2.memWrite (s.ea m).1 (down old.1) with flags := nzFrom s.flags (down old.1) } ∧
    exec .inx s = .next { s with x := up s.x, flags := nzFrom s.flags (up s.x) } ∧
    exec .iny s = .next { s with y := up s.y, flags := nzFrom s.flags (up s.y) } ∧
    exec .dex s = .next { s with x := down s.x, flags := nzFrom s.flags (down s.x) } ∧
    exec .dey s = .next { s with y := down s.y, flags := nzFrom s.flags (down s.y) }

/-- ASL, LSR, ROL and ROR (45_inc_dec_shift.md R206 to R209): opcodes and costs; on A, or by one read and one write of
the effective address; the result as a number, C the bit shifted out, N and Z of the result; V and all else kept. -/
def Obligations.ShiftAndRotateResults : Prop :=
  ((Spells1 0x0A 2 (.asl .acc) ∧ SpellsModify (fun m => .asl (.mem m)) 0x06 0x16 0x0E 0x1E) ∧
   (Spells1 0x4A 2 (.lsr .acc) ∧ SpellsModify (fun m => .lsr (.mem m)) 0x46 0x56 0x4E 0x5E) ∧
   (Spells1 0x2A 2 (.rol .acc) ∧ SpellsModify (fun m => .rol (.mem m)) 0x26 0x36 0x2E 0x3E) ∧
   (Spells1 0x6A 2 (.ror .acc) ∧ SpellsModify (fun m => .ror (.mem m)) 0x66 0x76 0x6E 0x7E)) ∧
  ∀ (m : Mem) (s : State),
    let old := (s.ea m).2.memRead (s.ea m).1
    let inA (r : Byte) (c : Bool) : State := { s with a := r, flags := nzFrom { s.flags with c := c } r }
    let inMem (r : Byte) (c : Bool) : State :=
      { old.2.memWrite (s.ea m).1 r with flags := nzFrom { s.flags with c := c } r }
    let asl (v : Byte) := BitVec.ofNat 8 (2 * v.toNat)
    let lsr (v : Byte) := BitVec.ofNat 8 (v.toNat / 2)
    let rol (v : Byte) := BitVec.ofNat 8 (2 * v.toNat + s.flags.c.toNat)
    let ror (v : Byte) := BitVec.ofNat 8 (v.toNat / 2 + 128 * s.flags.c.toNat)
    exec (.asl .acc) s = .next (inA (asl s.a) (s.a.getLsbD 7)) ∧
    exec (.asl (.mem m)) s = .next (inMem (asl old.1) (old.1.getLsbD 7)) ∧
    exec (.lsr .acc) s = .next (inA (lsr s.a) (s.a.getLsbD 0)) ∧
    exec (.lsr (.mem m)) s = .next (inMem (lsr old.1) (old.1.getLsbD 0)) ∧
    exec (.rol .acc) s = .next (inA (rol s.a) (s.a.getLsbD 7)) ∧
    exec (.rol (.mem m)) s = .next (inMem (rol old.1) (old.1.getLsbD 7)) ∧
    exec (.ror .acc) s = .next (inA (ror s.a) (s.a.getLsbD 0)) ∧
    exec (.ror (.mem m)) s = .next (inMem (ror old.1) (old.1.getLsbD 0))

/-- Nine ROLs of any A with any C run, and restore both A and C (45_inc_dec_shift.md R208, corner cases). -/
def Obligations.NineRotatesRestore : Prop :=
  ∀ s : State, ∃ run : Nat → State, run 0 = s ∧ (∀ k < 9, exec (.rol .acc) (run k) = .next (run (k + 1))) ∧
    (run 9).a = s.a ∧ (run 9).flags.c = s.flags.c

/-- JMP (46_control_transfer.md R220, 41_addressing_modes.md R130): opcodes and costs; absolute goes to the operand;
indirect goes to the word whose low byte is read at the pointer and whose high byte is read in the same page when
`JMP_IND_PAGE_WRAP`, at the next address otherwise; nothing else changes. -/
def Obligations.JumpTargets : Prop :=
  (Spells3 0x4C 3 (fun a => .jmp (.abs a)) ∧ Spells3 0x6C 5 (fun p => .jmp (.ind p))) ∧
  ∀ (w : Word) (s : State),
    let lo := s.memRead w
    let high := if s.config.jmpIndPageWrap then w.toNat / 256 * 256 + (w.toNat + 1) % 256 else w.toNat + 1
    let hi := lo.2.memRead (BitVec.ofNat 16 high)
    exec (.jmp (.abs w)) s = .next { s with pc := w } ∧
    exec (.jmp (.ind w)) s = .next { hi.2 with pc := BitVec.ofNat 16 (hi.1.toNat * 256 + lo.1.toNat) }

/-- JSR and RTS (46_control_transfer.md R221, R222): opcodes and costs; JSR pushes the address of its last byte, high
byte first, and goes to its operand; RTS pulls the low byte, then the high byte, and goes to one past that address. -/
def Obligations.CallAndReturnResults : Prop :=
  (Spells3 0x20 6 (fun a => .jsr a) ∧ Spells1 0x60 6 .rts) ∧
  ∀ (target : Word) (s : State),
    let ret := (s.pc.toNat + 65535) % 65536
    let pushed := (s.push8 (BitVec.ofNat 8 (ret / 256))).push8 (BitVec.ofNat 8 (ret % 256))
    let lo := s.pull8
    let hi := lo.2.pull8
    exec (.jsr target) s = .next { pushed with pc := target } ∧
    exec .rts s = .next { hi.2 with pc := BitVec.ofNat 16 (hi.1.toNat * 256 + lo.1.toNat + 1) }

/-- On plain memory a JSR then an RTS comes back to the instruction after the JSR with S and every register and flag as
before, for every S (46_control_transfer.md R221, R222). -/
def Obligations.ReturnComesBackFromCall : Prop :=
  ∀ (target : Word) (s : State), s.PlainMemory →
    ∃ t u, exec (.jsr target) s = .next t ∧ t.pc = target ∧ exec .rts t = .next u ∧
      u.pc = s.pc ∧ u.sp = s.sp ∧ u.a = s.a ∧ u.x = s.x ∧ u.y = s.y ∧ u.flags = s.flags

/-- BRK and RTI (46_control_transfer.md R224, R223): opcodes and costs. BRK skips the signature byte with no bus call,
sets B before the push, and enters at 0xFFFE by the sequence of 60_exceptions.md R304, whatever I is. RTI pulls all
seven flags, then PC low byte first, and adds nothing to PC. -/
def Obligations.BreakAndReturnFromInterruptResults : Prop :=
  (Spells1 0x00 7 .brk ∧ Spells1 0x40 6 .rti) ∧
  ∀ s : State,
    let b := s.pull8
    let lo := ({ b.2 with flags := Flags.unpack b.1 } : State).pull8
    let hi := lo.2.pull8
    exec .brk s = .next
      (State.interruptEntry 0xFFFE
        { s with pc := BitVec.ofNat 16 (s.pc.toNat + 1), flags := { s.flags with b := true } }) ∧
    exec .rti s = .next { hi.2 with pc := BitVec.ofNat 16 (hi.1.toNat * 256 + lo.1.toNat) }

/-- The conditional branches (46_control_transfer.md R225 to R233): opcodes and costs; each goes to PC plus the two's
complement offset, modulo 2^16, exactly when its flag has the value that takes it, and changes nothing but PC. -/
def Obligations.BranchResults : Prop :=
  (Spells2 0x90 2 .bcc ∧ Spells2 0xB0 2 .bcs ∧ Spells2 0xF0 2 .beq ∧ Spells2 0xD0 2 .bne ∧ Spells2 0x30 2 .bmi ∧
   Spells2 0x10 2 .bpl ∧
   Spells2 0x50 2 .bvc ∧ Spells2 0x70 2 .bvs) ∧
  ∀ (rel : Byte) (s : State),
    let branched (cond : Bool) : State := if cond then { s with pc := BitVec.ofInt 16 (s.pc.toNat + rel.toInt) } else s
    exec (.bcc rel) s = .next (branched (s.flags.c == false)) ∧
    exec (.bcs rel) s = .next (branched (s.flags.c == true)) ∧
    exec (.beq rel) s = .next (branched (s.flags.z == true)) ∧
    exec (.bne rel) s = .next (branched (s.flags.z == false)) ∧
    exec (.bmi rel) s = .next (branched (s.flags.n == true)) ∧
    exec (.bpl rel) s = .next (branched (s.flags.n == false)) ∧
    exec (.bvc rel) s = .next (branched (s.flags.v == false)) ∧
    exec (.bvs rel) s = .next (branched (s.flags.v == true))

/-- The flag instructions and NOP (47_flags_nop.md R240 to R247): opcodes and costs; the one flag written, all else
kept. -/
def Obligations.FlagInstructionResults : Prop :=
  (Spells1 0x18 2 .clc ∧ Spells1 0x38 2 .sec ∧ Spells1 0x58 2 .cli ∧ Spells1 0x78 2 .sei ∧ Spells1 0xD8 2 .cld ∧
   Spells1 0xF8 2 .sed ∧
   Spells1 0xB8 2 .clv ∧ Spells1 0xEA 2 .nop) ∧
  ∀ s : State,
    exec .clc s = .next { s with flags := { s.flags with c := false } } ∧
    exec .sec s = .next { s with flags := { s.flags with c := true } } ∧
    exec .cli s = .next { s with flags := { s.flags with i := false } } ∧
    exec .sei s = .next { s with flags := { s.flags with i := true } } ∧
    exec .cld s = .next { s with flags := { s.flags with d := false } } ∧
    exec .sed s = .next { s with flags := { s.flags with d := true } } ∧
    exec .clv s = .next { s with flags := { s.flags with v := false } } ∧
    exec .nop s = .next s

/-- Undefined opcodes (48_undefined_opcodes.md R260): each of the 105 values spells a one-byte instruction that raises
`undef_count` by one, changes nothing else, and costs `UNDEF_CYCLES`. -/
def Obligations.UndefinedOpcodeIsNoOp : Prop :=
  ∀ op ∈ undefinedOpcodes, (∀ rest, decode (op :: rest) = .instr (.undefined op) rest) ∧
    (∀ cfg, costOf cfg op = cfg.undefCycles) ∧
    ∀ s : State, exec (.undefined op) s = .next { s with undefCount := s.undefCount + 1 }

/-! ## The status byte -/

/-- `pack()` and `unpack(b)` bit by bit (10_state.md R28, R29): N V 1 B D I Z C. -/
def Obligations.StatusByteLayout : Prop :=
  ∀ (f : Flags) (b : Byte),
    (f.pack.getLsbD 7 = f.n ∧ f.pack.getLsbD 6 = f.v ∧ f.pack.getLsbD 5 = true ∧ f.pack.getLsbD 4 = f.b ∧
     f.pack.getLsbD 3 = f.d ∧ f.pack.getLsbD 2 = f.i ∧ f.pack.getLsbD 1 = f.z ∧ f.pack.getLsbD 0 = f.c) ∧
    Flags.unpack b = ⟨b.getLsbD 7, b.getLsbD 6, b.getLsbD 4, b.getLsbD 3, b.getLsbD 2, b.getLsbD 1, b.getLsbD 0⟩

/-- The round trips (10_state.md R30): unpacking a packed byte gives back every flag, and packing an unpacked byte gives
the byte with bit 5 set. -/
def Obligations.PackUnpackRoundTrip : Prop :=
  (∀ f : Flags, Flags.unpack f.pack = f) ∧ (∀ b : Byte, (Flags.unpack b).pack = b ||| 0x20)

/-! ## What instructions leave alone -/

/-- B reaches software only through the pushed status byte (10_state.md R26): but for PHP, no instruction's effect
depends on the B it finds, not even BRK's, which sets B before it pushes. Two states that differ only in B are taken to
states that differ at most in B. The two executions are compared with adapters that answer alike to equal histories (log
entry 5, DEDUCED) and free values that fall out alike at equal counters (log entry 7, DESIGN CHOICE), as the model
supplies both. -/
def Obligations.BreakFlagIsReadOnlyByPushes : Prop :=
  ∀ (i : Instr) (s t : State) (b : Bool), i ≠ .php → exec i s = .next t →
    ∃ u, exec i (s.withB b) = .next u ∧ u.withB false = t.withB false

/-- Which instructions write A, X, Y, S and PC (10_state.md R21 to R24): every other instruction leaves them as they
are. -/
def Obligations.OnlyListedInstructionsWriteRegisters : Prop :=
  ∀ (i : Instr) (s t : State), exec i s = .next t →
    (writesA i = false → t.a = s.a) ∧ (writesX i = false → t.x = s.x) ∧ (writesY i = false → t.y = s.y) ∧
    (writesS i = false → t.sp = s.sp) ∧ (writesPc i = false → t.pc = s.pc)

/-- Which instructions write each flag (10_state.md R25): every other instruction leaves it as it is. -/
def Obligations.OnlyListedInstructionsWriteFlags : Prop :=
  ∀ (i : Instr) (s t : State), exec i s = .next t →
    (writesC i = false → t.flags.c = s.flags.c) ∧
    (writesNZ i = false → t.flags.n = s.flags.n ∧ t.flags.z = s.flags.z) ∧
    (writesI i = false → t.flags.i = s.flags.i) ∧ (writesD i = false → t.flags.d = s.flags.d) ∧
    (writesB i = false → t.flags.b = s.flags.b) ∧ (writesV i = false → t.flags.v = s.flags.v)

/-- Every byte of memory is unchanged except the bytes the instruction stores to: the effective address of STA, STX, STY
and the memory forms of INC, DEC and the shifts, and the stack bytes PHA, PHP, JSR and BRK push. -/
def Obligations.MemoryChangesOnlyAtStoredAddresses : Prop :=
  ∀ (i : Instr) (s t : State), exec i s = .next t →
    ∀ a : Word, a ∉ storedAddresses i s → t.mem.read a.toNat = s.mem.read a.toNat

/-- No instruction writes the cycle accumulator, the cycles per frame, the bus, the configuration or whether Reset has
run (10_state.md R33 to R35); only an undefined opcode raises `undef_count` (R36), and only a decimal ADC or SBC takes
free values. -/
def Obligations.InstructionsLeaveTheHostsStateAlone : Prop :=
  ∀ (i : Instr) (s t : State), exec i s = .next t →
    t.cycles = s.cycles ∧ t.cyclesPerFrame = s.cyclesPerFrame ∧ t.bus = s.bus ∧ t.config = s.config ∧
    t.resetDone = s.resetDone ∧ t.frameSignal = s.frameSignal ∧
    ((∀ op, i ≠ .undefined op) → t.undefCount = s.undefCount) ∧
    ((∀ src, i ≠ .adc src ∧ i ≠ .sbc src) ∨ s.flags.d = false ∨ s.config.decimalMode = false → t.draws = s.draws)

/-! ## The execution cycle -/

/-- A step runs the decoded instruction (40_execution_cycle.md R101): when the bytes `fetch8` takes at PC decode to `i`,
the step is `exec i` on the state after the fetch, then the cost of the opcode, then the frame test. What ExecuteOne
returns is left in `frameSignal` (log entry 9). -/
def Obligations.StepRunsTheDecodedInstruction : Prop :=
  ∀ (s : State) (frame n : Nat) (op : Byte) (operands : List Byte) (i : Instr),
    s.resetDone = true → s.cyclesPerFrame = some frame →
    (s.fetchBytes n).1 = op :: operands → decode (op :: operands) = .instr i [] →
    i.WellFormed ∧ ∃ t, exec i (s.fetchBytes n).2 = .next t ∧
      step s = .next
        (let total := t.cycles + (costOf s.config op : Int)
         { t with
           cycles := if (frame : Int) ≤ total then total - frame else total
           frameSignal := decide ((frame : Int) ≤ total) })

/-- On plain memory the bytes fetched are the bytes of memory from PC on, in increasing address order modulo 2^16, and
PC moves past them (10_state.md R24, 20_memory.md R56). Nothing else changes but the record of calls. -/
def Obligations.FetchTakesTheBytesAtPc : Prop :=
  ∀ (s : State) (n : Nat), s.PlainMemory →
    (s.fetchBytes n).1 = (List.range n).map (fun k => s.mem.read (s.pc + BitVec.ofNat 16 k).toNat) ∧
    { (s.fetchBytes n).2 with busLog := s.busLog } = { s with pc := s.pc + BitVec.ofNat 16 n }

/-- ExecuteOne answers a next state exactly when Reset and Setup have run (40_execution_cycle.md R101, R109: every
opcode, defined or undefined, completes), and is refused by name otherwise (10_state.md R40). -/
def Obligations.EveryStepCompletes : Prop :=
  ∀ s : State,
    (s.Ready → ∃ t, step s = .next t) ∧
    (s.resetDone = false → step s = .refused .resetNotRun) ∧
    (s.resetDone = true → s.cyclesPerFrame = none → step s = .refused .setupNotRun)

/-- Cycle accounting and the frame-boundary test (40_execution_cycle.md R102, R103): a step adds the cost of its
opcode once; if the total reaches the cycles per frame they are subtracted once and the step signals, else it
does not signal. -/
def Obligations.StepAccountsForCycles : Prop :=
  ∀ (s t : State) (frame : Nat), s.cyclesPerFrame = some frame → step s = .next t →
    let total := s.cycles + (costOf s.config s.fetch8.1 : Int)
    (t.frameSignal = true ↔ (frame : Int) ≤ total) ∧
    t.cycles = total - (if t.frameSignal then (frame : Int) else 0)

/-- No cycles are lost or counted twice over any run of host calls without Reset or Setup, interrupts included
(40_execution_cycle.md R102, R103, 60_exceptions.md R313): the accumulator at the end and the cycles of the frames
signalled are the accumulator at the start and the costs of the calls. -/
def Obligations.RunsConserveCycles : Prop :=
  ∀ (calls : List HostCall) (s t : State) (frame : Nat) (returns : List HostReturn),
    s.cyclesPerFrame = some frame → (∀ c ∈ calls, keepsTiming c = true) →
    runCalls calls s = .next (t, returns) →
    t.cycles + (frame : Int) * (frameSignals returns : Int) = s.cycles + (runCost calls s : Int)

/-- Frame counting (40_execution_cycle.md R110): a run from `cycles = 0`, with no Reset or Setup, that ends with an
ExecuteOne and never adds more than a frame between two tests, whose costs sum to `k` frames and `r` cycles, signals
exactly `k` times and ends with `cycles = r`. -/
def Obligations.FrameCountingIsExact : Prop :=
  ∀ (calls : List HostCall) (s t : State) (frame k r : Nat) (returns : List HostReturn),
    s.cycles = 0 → s.cyclesPerFrame = some frame → (∀ c ∈ calls, keepsTiming c = true) →
    GapsFit frame 0 (calls ++ [.executeOne]) s →
    runCalls (calls ++ [.executeOne]) s = .next (t, returns) →
    runCost (calls ++ [.executeOne]) s = k * frame + r → r < frame →
    frameSignals returns = k ∧ t.cycles = r

/-- No register, flag or byte of memory depends on the cycle accumulator, the cycles per frame or `undef_count`
(10_state.md R33, R34, R36, 70_reset_and_hazards.md R360): the same host call on two states that differ only in these
counters and the model's frame signal leaves states that differ only in these, and an IRQ is serviced in both or in
neither. The two executions are compared with adapters that answer alike to equal histories (log entry 5, DEDUCED) and
free values that fall out alike at equal counters of draws (log entry 7, DESIGN CHOICE), as the model supplies both. -/
def Obligations.CountersAreNotObserved : Prop :=
  ∀ (c : HostCall) (s s' t t' : State) (ret ret' : HostReturn), s.withoutCounters = s'.withoutCounters →
    call c s = .next (t, ret) → call c s' = .next (t', ret') →
    t.withoutCounters = t'.withoutCounters ∧ ∀ taken, ret = .serviced taken → ret' = .serviced taken

/-! ## Interrupts and the host interface -/

/-- The entry sequence (60_exceptions.md R304): PC high, PC low and the status byte are pushed at S, S - 1 and S - 2
(modulo 256, in the stack page), S goes down by 3, I is set, D and B and the other flags are kept, and PC is the word at
the vector, low byte first; A, X and Y are kept. -/
def Obligations.InterruptEntrySequence : Prop :=
  ∀ (s : State) (vector : Word),
    let returnAddress := (s.push8 (BitVec.ofNat 8 (s.pc.toNat / 256))).push8 (BitVec.ofNat 8 (s.pc.toNat % 256))
    let pushed := returnAddress.push8 s.flags.pack
    let entered : State := { pushed with flags := { s.flags with i := true } }
    s.interruptEntry vector = { (entered.read16 vector).2 with pc := (entered.read16 vector).1 } ∧
    (s.interruptEntry vector).sp.toNat = (s.sp.toNat + 253) % 256 ∧
    (s.interruptEntry vector).a = s.a ∧ (s.interruptEntry vector).x = s.x ∧ (s.interruptEntry vector).y = s.y

/-- TriggerNMI (60_exceptions.md R306): refused before Reset; after it, it enters at 0xFFFA whatever I is, adds
`INT_ENTRY_CYCLES`, runs no frame test and reports success. -/
def Obligations.TriggerNmiAlwaysEnters : Prop :=
  ∀ s : State,
    (s.resetDone = false → call .triggerNmi s = .refused .resetNotRun) ∧
    (s.resetDone = true → call .triggerNmi s = .next
      ({ s.interruptEntry 0xFFFA with cycles := s.cycles + (s.config.intEntryCycles : Int) }, .success)) ∧
    (s.interruptEntry 0xFFFA).frameSignal = s.frameSignal

/-- TriggerIRQ (60_exceptions.md R310, R311): refused before Reset; after it, with I = 0 it enters at 0xFFFE, adds
`INT_ENTRY_CYCLES` and reports that it was serviced; with I = 1 it changes nothing and reports that it was not. -/
def Obligations.TriggerIrqIsGatedByI : Prop :=
  ∀ s : State,
    (s.resetDone = false → call .triggerIrq s = .refused .resetNotRun) ∧
    (s.resetDone = true → s.flags.i = false → call .triggerIrq s = .next
      ({ s.interruptEntry 0xFFFE with cycles := s.cycles + (s.config.intEntryCycles : Int) }, .serviced true)) ∧
    (s.resetDone = true → s.flags.i = true → call .triggerIrq s = .next (s, .serviced false))

/-- On plain memory an RTI after a serviced NMI or IRQ resumes exactly where the interrupt came: PC, S, every flag and
register as at the call (60_exceptions.md R312, R315). -/
def Obligations.ReturnResumesTheInterruptedCode : Prop :=
  ∀ (c : HostCall) (s t : State) (ret : HostReturn), s.PlainMemory →
    (c = .triggerNmi ∨ c = .triggerIrq ∧ s.flags.i = false) → call c s = .next (t, ret) →
    t.flags.i = true ∧
    ∃ u, exec .rti t = .next u ∧ u.pc = s.pc ∧ u.sp = s.sp ∧ u.flags = s.flags ∧ u.a = s.a ∧ u.x = s.x ∧ u.y = s.y

/-- On plain memory BRK then RTI comes back to the address of BRK + 2 with S and every flag as before except B, which
stays 1 (46_control_transfer.md R223, R224). `s.pc` is the address of BRK + 1. -/
def Obligations.ReturnComesBackFromBreak : Prop :=
  ∀ s : State, s.PlainMemory →
    ∃ t u, exec .brk s = .next t ∧ t.flags.i = true ∧ t.flags.b = true ∧ t.flags.d = s.flags.d ∧
      t.pc.toNat = (s.mem.read 0xFFFF).toNat * 256 + (s.mem.read 0xFFFE).toNat ∧
      exec .rti t = .next u ∧ u.pc.toNat = (s.pc.toNat + 1) % 65536 ∧ u.sp = s.sp ∧
      u.flags = { s.flags with b := true }

/-- The order of the host's calls decides between an NMI and an IRQ (60_exceptions.md R314). NMI then IRQ, whatever I is:
the IRQ is not serviced and changes nothing. IRQ then NMI: with I = 1 only the NMI is entered; with I = 0, on plain memory,
both are entered, and the NMI's RTI returns into the IRQ handler with PC, S, every flag and A, X and Y as the IRQ's entry
left them. -/
def Obligations.OrderOfTriggersDecides : Prop :=
  ∀ s : State, s.resetDone = true →
    (∃ t, call .triggerNmi s = .next (t, .success) ∧
      runCalls [.triggerNmi, .triggerIrq] s = .next (t, [.success, .serviced false]) ∧
      (s.flags.i = true → runCalls [.triggerIrq, .triggerNmi] s = .next (t, [.serviced false, .success]))) ∧
    (s.flags.i = false → s.PlainMemory →
      ∃ t u v, call .triggerIrq s = .next (t, .serviced true) ∧
        runCalls [.triggerIrq, .triggerNmi] s = .next (u, [.serviced true, .success]) ∧
        exec .rti u = .next v ∧ v.pc = t.pc ∧ v.sp = t.sp ∧ v.flags = t.flags ∧ v.a = t.a ∧ v.x = t.x ∧ v.y = t.y)

/-- Setup (40_execution_cycle.md R106, R107): it stores the adapter and `clock / rate`, changes nothing else, returns
nothing, and is refused for rate 0 or an invalid adapter. That no adapter stands for an invalid one, and that it is the
refusal named where the rate is 0 too, is the model's choice (log entry 14, DESIGN CHOICE). -/
def Obligations.SetupStoresAdapterAndTiming : Prop :=
  ∀ (s : State) (bus : Bus) (clockHz rateHz : Nat),
    (0 < rateHz → call (.setup (some bus) clockHz rateHz) s = .next
      ({ s with bus := bus, cyclesPerFrame := some (clockHz / rateHz) }, .nothing)) ∧
    call (.setup (some bus) clockHz 0) s = .refused .zeroFrameRate ∧
    call (.setup none clockHz rateHz) s = .refused .invalidAdapter

/-- Reset (70_reset_and_hazards.md R340, R341, R342): every register, flag and the cycle accumulator from the configured
constants, PC from the reset vector by exactly two reads, low byte first, and nothing else changed. From the stubs the
vector is 0x0000. -/
def Obligations.ResetInstallsConfiguredValues : Prop :=
  ∀ s : State,
    let lo := s.memRead 0xFFFC
    let hi := lo.2.memRead 0xFFFD
    call .reset s = .next
      ({ hi.2 with
         a := s.config.resetA, x := s.config.resetX, y := s.config.resetY, sp := s.config.resetS
         flags := s.config.resetFlags, cycles := 0, resetDone := true
         pc := BitVec.ofNat 16 (hi.1.toNat * 256 + lo.1.toNat) }, .success) ∧
    (s.bus = .stub → BitVec.ofNat 16 (hi.1.toNat * 256 + lo.1.toNat) = 0x0000#16)

/-- GetStatus (40_execution_cycle.md R108): the registers, PC and `pack()`, with no effect at all. That the snapshot also
carries `cycles` and `undef_count`, which R108 allows and does not ask for, is the model's choice (log entry 14, DESIGN
CHOICE). -/
def Obligations.GetStatusIsAPureRead : Prop :=
  ∀ s : State, s.resetDone = true → ∃ snapshot, call .getStatus s = .next (s, .status snapshot) ∧
    snapshot.a = s.a ∧ snapshot.x = s.x ∧ snapshot.y = s.y ∧ snapshot.sp = s.sp ∧ snapshot.pc = s.pc ∧
    snapshot.p = s.flags.pack ∧ snapshot.cycles = s.cycles ∧ snapshot.undefCount = s.undefCount

/-- Before the first Reset, ExecuteOne, TriggerNMI, TriggerIRQ and GetStatus are refused, and a new instance is in that
state with the stub bus and no cycles per frame (10_state.md R40). The zeros its registers hold are never read (log
entry 8). -/
def Obligations.CallsBeforeResetAreRefused : Prop :=
  (State.created.resetDone = false ∧ State.created.bus = .stub ∧ State.created.cyclesPerFrame = none) ∧
  ∀ s : State, s.resetDone = false →
    ∀ c ∈ [HostCall.executeOne, .triggerNmi, .triggerIrq, .getStatus], call c s = .refused .resetNotRun

/-! ## Invariants -/

/-- Every step keeps the invariant: Reset and Setup have run, and the plain RAM's contents are in canonical form. -/
def Obligations.StepKeepsInvariant : Prop :=
  ∀ s t : State, s.Inv → step s = .next t → t.Inv

/-- The state right after reset meets the invariant, and is consistent with a memory in which nothing is written
(20_memory.md R63). What State.reset is, is the model's choice (log entry 3). -/
def Obligations.ResetMeetsInvariants : Prop := State.reset.Inv ∧ State.reset.Consistent []

/-- Every host call that answers keeps the invariant, so every reachable state after boot meets it
(40_execution_cycle.md R100). -/
def Obligations.HostCallsKeepInvariant : Prop :=
  ∀ (calls : List HostCall) (s t : State) (returns : List HostReturn),
    s.Inv → runCalls calls s = .next (t, returns) → t.Inv
end

