-- ==== Sys2Proof/Laws/Bits.lean ====
section
/-!
SUPPORT. What the byte-order and extension helpers compute, as numbers.
-/

namespace Sys2Proof

/-- The word of a little-endian pair of bytes, as a number (20_memory.md R55). -/
theorem wordOf_toNat (lo hi : Byte) : (wordOf lo hi).toNat = hi.toNat * 256 + lo.toNat := by
  have hl := lo.isLt
  have hh := hi.isLt
  have h : (hi.toNat <<< 8) % 2 ^ 16 = hi.toNat <<< 8 := by
    rw [Nat.shiftLeft_eq]; exact Nat.mod_eq_of_lt (by omega)
  simp only [wordOf, BitVec.zeroExtend, BitVec.toNat_or, BitVec.toNat_shiftLeft, BitVec.toNat_setWidth]
  rw [Nat.mod_eq_of_lt (a := lo.toNat) (by omega), Nat.mod_eq_of_lt (a := hi.toNat) (by omega), h,
    ← Nat.shiftLeft_add_eq_or_of_lt (by omega), Nat.shiftLeft_eq]

/-- The word of a pair of bytes is their concatenation (00_scope.md R6). -/
theorem wordOf_eq_append (lo hi : Byte) : wordOf lo hi = (hi ++ lo : BitVec 16) := by
  apply BitVec.eq_of_toNat_eq
  rw [wordOf_toNat, BitVec.toNat_append, ← Nat.shiftLeft_add_eq_or_of_lt lo.isLt, Nat.shiftLeft_eq]

theorem lowByte_toNat (w : Word) : (lowByte w).toNat = w.toNat % 256 := by
  simp [lowByte]

theorem highByte_toNat (w : Word) : (highByte w).toNat = w.toNat / 256 := by
  have := w.isLt
  simp only [highByte, BitVec.truncate, BitVec.toNat_setWidth, BitVec.toNat_ushiftRight, Nat.shiftRight_eq_div_pow]
  omega

/-- The two bytes of a word make the word again. -/
@[simp] theorem wordOf_bytes (w : Word) : wordOf (lowByte w) (highByte w) = w := by
  apply BitVec.eq_of_toNat_eq
  rw [wordOf_toNat, lowByte_toNat, highByte_toNat]
  omega

@[simp] theorem lowByte_wordOf (lo hi : Byte) : lowByte (wordOf lo hi) = lo := by
  have := lo.isLt
  apply BitVec.eq_of_toNat_eq
  rw [lowByte_toNat, wordOf_toNat]
  omega

@[simp] theorem highByte_wordOf (lo hi : Byte) : highByte (wordOf lo hi) = hi := by
  have := lo.isLt
  have := hi.isLt
  apply BitVec.eq_of_toNat_eq
  rw [highByte_toNat, wordOf_toNat]
  omega

@[simp] theorem zext16_toNat (b : Byte) : (zext16 b).toNat = b.toNat := by
  have := b.isLt
  simp only [zext16, BitVec.zeroExtend, BitVec.toNat_setWidth]
  omega

/-- `sext_16` is the two's complement value of the byte (00_scope.md R7). -/
theorem sext16_eq_ofInt (b : Byte) : sext16 b = BitVec.ofInt 16 b.toInt := by
  revert b; decide

@[simp] theorem bitAt_seven (v : Byte) : bitAt v 7 = v.msb := by
  simp [bitAt, BitVec.msb_eq_getLsbD_last]

@[simp] theorem bitByte_toNat (f : Bool) : (bitByte f).toNat = if f then 1 else 0 := by
  cases f <;> rfl

end Sys2Proof
end

