-- ==== Sys2Proof/Laws/Decode.lean ====
section
/-!
SUPPORT. The decoder by the length of the opcode's entry, and the bytes of a 16-bit operand.
-/

namespace Sys2Proof

@[simp] theorem decode_nil : decode [] = .rejected .noBytes := rfl

/-- A one-byte instruction (30_encoding.md R80). -/
theorem decode_one {op : Byte} (h : (entryOf op).length = 1) (rest : List Byte) :
    decode (op :: rest) = .instr ((entryOf op).build op 0 0) rest := by
  simp [decode, h]

/-- A two-byte instruction (30_encoding.md R80). -/
theorem decode_two {op : Byte} (h : (entryOf op).length = 2) (b1 : Byte) (rest : List Byte) :
    decode (op :: b1 :: rest) = .instr ((entryOf op).build op b1 0) rest := by
  simp [decode, h]

/-- A three-byte instruction (30_encoding.md R80). -/
theorem decode_three {op : Byte} (h : (entryOf op).length = 3) (b1 b2 : Byte) (rest : List Byte) :
    decode (op :: b1 :: b2 :: rest) = .instr ((entryOf op).build op b1 b2) rest := by
  simp [decode, h]

/-- Every opcode's length is 1, 2 or 3 (30_encoding.md R80). -/
theorem entryOf_length (op : Byte) :
    (entryOf op).length = 1 ∨ (entryOf op).length = 2 ∨ (entryOf op).length = 3 := by
  revert op; decide

@[simp] theorem wordBytes_length (w : Word) : (wordBytes w).length = 2 := rfl

/-- A 16-bit operand written as two bytes reads back (30_encoding.md R83). -/
theorem wordBytes_wordOf (lo hi : Byte) : wordBytes (wordOf lo hi) = [lo, hi] := by
  simp [wordBytes]

end Sys2Proof
end

