-- ==== Sys2Proof/Laws/Memory.lean ====
section
/-!
SUPPORT. The laws of the plain RAM's contents: read after write, canonical form kept by every write, and equal reads
meaning equal memories.
-/

namespace Sys2Proof.Machine

@[simp] theorem Memory.read_nil (a : Nat) : Memory.read [] a = Memory.unlisted := rfl

theorem Memory.read_cons (k : Nat) (v : Byte) (m : Memory) (a : Nat) :
    Memory.read ((k, v) :: m) a = if k = a then v else Memory.read m a := rfl

/-- An address that memory does not list reads as an unlisted byte (20_memory.md R54, log entry 4). -/
theorem Memory.read_unlisted {m : Memory} {a : Nat} (h : a ∉ m.map Prod.fst) : m.read a = Memory.unlisted := by
  induction m with
  | nil => rfl
  | cons c m ih =>
    simp only [List.map_cons, List.mem_cons, not_or] at h
    rw [show Memory.read (c :: m) a = _ from Memory.read_cons c.1 c.2 m a, if_neg (Ne.symm h.1), ih h.2]

/-- Below the least listed address every byte is unlisted. -/
theorem Memory.read_below {low : Nat} {m : Memory} {a : Nat} (h : Memory.wfFrom low m = true) (ha : a < low) :
    Memory.read m a = Memory.unlisted := by
  induction m generalizing low with
  | nil => rfl
  | cons c rest ih =>
    obtain ⟨k, v⟩ := c
    simp only [Memory.wfFrom, Bool.and_eq_true, decide_eq_true_eq] at h
    rw [Memory.read_cons, if_neg (by omega)]
    exact ih h.2 (by omega)

theorem Memory.read_place (a : Nat) (v : Byte) {low : Nat} {m : Memory} (h : Memory.wfFrom low m = true) (ha : a < low)
    (b : Nat) : Memory.read (Memory.place a v m) b = if b = a then v else Memory.read m b := by
  unfold Memory.place
  split <;> rename_i hv <;> by_cases hb : b = a
  · rw [if_pos hb, hb, hv]; exact Memory.read_below h ha
  · rw [if_neg hb]
  · simp [Memory.read_cons, hb]
  · simp [Memory.read_cons, hb, Ne.symm hb]

/-- Read after write: the written address gives the value written, every other address what it gave before. -/
theorem Memory.read_write_from {low : Nat} {m : Memory} (h : Memory.wfFrom low m = true) (a : Nat) (v : Byte) (b : Nat) :
    Memory.read (Memory.write m a v) b = if b = a then v else Memory.read m b := by
  induction m generalizing low with
  | nil => exact Memory.read_place a v (low := a + 1) rfl (by omega) b
  | cons c rest ih =>
    obtain ⟨k, w⟩ := c
    have h' := h
    simp only [Memory.wfFrom, Bool.and_eq_true, decide_eq_true_eq] at h
    obtain ⟨⟨⟨-, hk⟩, hw⟩, hr⟩ := h
    unfold Memory.write
    split
    · rename_i hlt
      exact Memory.read_place a v (low := k) (by simp only [Memory.wfFrom, Bool.and_eq_true, decide_eq_true_eq]; exact ⟨⟨⟨le_refl _, hk⟩, hw⟩, hr⟩) hlt b
    · split
      · rename_i heq
        subst heq
        rw [Memory.read_place a v hr (by omega) b, Memory.read_cons]
        by_cases hb : b = a
        · simp [hb]
        · simp [hb, Ne.symm hb]
      · rename_i hne
        rw [Memory.read_cons, Memory.read_cons, ih hr]
        by_cases hb : b = a
        · subst hb; simp [Ne.symm hne]
        · simp [hb]

theorem Memory.wfFrom_mono {low low' : Nat} {m : Memory} (h : Memory.wfFrom low m = true) (hl : low' ≤ low) :
    Memory.wfFrom low' m = true := by
  cases m with
  | nil => rfl
  | cons c rest =>
    obtain ⟨k, v⟩ := c
    simp only [Memory.wfFrom, Bool.and_eq_true, decide_eq_true_eq] at h ⊢
    exact ⟨⟨⟨by omega, h.1.1.2⟩, h.1.2⟩, h.2⟩

theorem Memory.place_wfFrom {low a : Nat} {v : Byte} {m : Memory} (h : Memory.wfFrom (a + 1) m = true) (hl : low ≤ a)
    (ha : a < 65536) : Memory.wfFrom low (Memory.place a v m) = true := by
  unfold Memory.place
  split
  · exact Memory.wfFrom_mono h (by omega)
  · rename_i hv
    simp only [Memory.wfFrom, Bool.and_eq_true, decide_eq_true_eq, bne_iff_ne]
    exact ⟨⟨⟨hl, ha⟩, hv⟩, h⟩

theorem Memory.write_wfFrom {low : Nat} {m : Memory} (h : Memory.wfFrom low m = true) {a : Nat} (hl : low ≤ a)
    (ha : a < 65536) (v : Byte) : Memory.wfFrom low (Memory.write m a v) = true := by
  induction m generalizing low with
  | nil => exact Memory.place_wfFrom (m := []) rfl hl ha
  | cons c rest ih =>
    obtain ⟨k, w⟩ := c
    simp only [Memory.wfFrom, Bool.and_eq_true, decide_eq_true_eq] at h
    obtain ⟨⟨⟨hlk, hk⟩, hw⟩, hr⟩ := h
    unfold Memory.write
    split
    · refine Memory.place_wfFrom ?_ hl ha
      simp only [Memory.wfFrom, Bool.and_eq_true, decide_eq_true_eq]
      exact ⟨⟨⟨by omega, hk⟩, hw⟩, hr⟩
    · split
      · rename_i heq
        subst heq
        exact Memory.place_wfFrom hr hl ha
      · simp only [Memory.wfFrom, Bool.and_eq_true, decide_eq_true_eq]
        exact ⟨⟨⟨hlk, hk⟩, hw⟩, ih hr (by omega)⟩

/-- A write keeps the canonical form. -/
theorem Memory.write_wf {m : Memory} (h : m.wf = true) {a : Nat} (ha : a < 65536) (v : Byte) :
    (m.write a v).wf = true :=
  Memory.write_wfFrom h (Nat.zero_le a) ha v

/-- A write at a 16-bit address keeps the canonical form. -/
theorem Memory.write_wf_word {m : Memory} (h : m.wf = true) (a : Word) (v : Byte) : (m.write a.toNat v).wf = true :=
  Memory.write_wf h a.isLt v

/-- Read after write on a memory in canonical form. -/
theorem Memory.read_write {m : Memory} (h : m.wf = true) (a : Nat) (v : Byte) (b : Nat) :
    (m.write a v).read b = if b = a then v else m.read b :=
  Memory.read_write_from h a v b

theorem Memory.read_place_ne (a : Nat) (v : Byte) (m : Memory) {b : Nat} (hb : b ≠ a) :
    Memory.read (Memory.place a v m) b = Memory.read m b := by
  unfold Memory.place
  split
  · rfl
  · simp [Memory.read_cons, Ne.symm hb]

/-- A write leaves every other address alone, on any list. -/
theorem Memory.read_write_ne (m : Memory) {a b : Nat} (v : Byte) (hb : b ≠ a) :
    (m.write a v).read b = m.read b := by
  induction m with
  | nil => exact Memory.read_place_ne a v [] hb
  | cons c rest ih =>
    obtain ⟨k, w⟩ := c
    unfold Memory.write
    split
    · exact Memory.read_place_ne a v _ hb
    · split
      · rename_i heq
        subst heq
        rw [Memory.read_place_ne a v rest hb, Memory.read_cons, if_neg (Ne.symm hb)]
      · rw [Memory.read_cons, Memory.read_cons, ih]

theorem Memory.ext_from {low : Nat} {m m' : Memory} (h : Memory.wfFrom low m = true) (h' : Memory.wfFrom low m' = true)
    (heq : ∀ a, m.read a = m'.read a) : m = m' := by
  induction m generalizing low m' with
  | nil =>
    cases m' with
    | nil => rfl
    | cons c rest =>
      obtain ⟨k, v⟩ := c
      simp only [Memory.wfFrom, Bool.and_eq_true, decide_eq_true_eq, bne_iff_ne] at h'
      have := heq k
      simp only [Memory.read_nil, Memory.read_cons, if_true] at this
      exact absurd this.symm h'.1.2
  | cons c rest ih =>
    obtain ⟨k, v⟩ := c
    have hf := h
    simp only [Memory.wfFrom, Bool.and_eq_true, decide_eq_true_eq, bne_iff_ne] at h
    cases m' with
    | nil =>
      have := heq k
      simp only [Memory.read_nil, Memory.read_cons, if_true] at this
      exact absurd this h.1.2
    | cons c' rest' =>
      obtain ⟨k', v'⟩ := c'
      have hf' := h'
      simp only [Memory.wfFrom, Bool.and_eq_true, decide_eq_true_eq, bne_iff_ne] at h'
      have hkk : k = k' := by
        rcases Nat.lt_trichotomy k k' with hlt | he | hlt
        · have := heq k
          rw [Memory.read_cons, if_pos rfl, Memory.read_cons, if_neg (by omega),
            Memory.read_below h'.2 (by omega)] at this
          exact absurd this h.1.2
        · exact he
        · have := heq k'
          rw [Memory.read_cons, if_neg (by omega), Memory.read_below h.2 (by omega), Memory.read_cons,
            if_pos rfl] at this
          exact absurd this.symm h'.1.2
      subst hkk
      have hv : v = v' := by simpa [Memory.read_cons] using heq k
      subst hv
      have : rest = rest' := by
        refine ih h.2 h'.2 fun a => ?_
        by_cases ha : a = k
        · subst ha
          rw [Memory.read_below h.2 (by omega), Memory.read_below h'.2 (by omega)]
        · simpa [Memory.read_cons, Ne.symm ha] using heq a
      rw [this]

/-- Memories in canonical form that read alike are the same list. -/
theorem Memory.ext_read {m m' : Memory} (h : m.wf = true) (h' : m'.wf = true) (heq : ∀ a, m.read a = m'.read a) :
    m = m' :=
  Memory.ext_from h h' heq

end Sys2Proof.Machine
end

