-- ==== Sys2Proof/Laws/State.lean ====
section
/-!
SUPPORT. One lemma per field per setter of State, each true by rfl: no later proof unfolds a record update.
-/

namespace Sys2Proof.Machine

variable (s : State)

@[simp] theorem State.setA_a (v : Byte) : (s.setA v).a = v := rfl
@[simp] theorem State.setA_x (v : Byte) : (s.setA v).x = s.x := rfl
@[simp] theorem State.setA_y (v : Byte) : (s.setA v).y = s.y := rfl
@[simp] theorem State.setA_sp (v : Byte) : (s.setA v).sp = s.sp := rfl
@[simp] theorem State.setA_pc (v : Byte) : (s.setA v).pc = s.pc := rfl
@[simp] theorem State.setA_flags (v : Byte) : (s.setA v).flags = s.flags := rfl
@[simp] theorem State.setA_cycles (v : Byte) : (s.setA v).cycles = s.cycles := rfl
@[simp] theorem State.setA_cyclesPerFrame (v : Byte) : (s.setA v).cyclesPerFrame = s.cyclesPerFrame := rfl
@[simp] theorem State.setA_bus (v : Byte) : (s.setA v).bus = s.bus := rfl
@[simp] theorem State.setA_undefCount (v : Byte) : (s.setA v).undefCount = s.undefCount := rfl
@[simp] theorem State.setA_mem (v : Byte) : (s.setA v).mem = s.mem := rfl
@[simp] theorem State.setA_busLog (v : Byte) : (s.setA v).busLog = s.busLog := rfl
@[simp] theorem State.setA_resetDone (v : Byte) : (s.setA v).resetDone = s.resetDone := rfl
@[simp] theorem State.setA_draws (v : Byte) : (s.setA v).draws = s.draws := rfl
@[simp] theorem State.setA_frameSignal (v : Byte) : (s.setA v).frameSignal = s.frameSignal := rfl
@[simp] theorem State.setA_config (v : Byte) : (s.setA v).config = s.config := rfl

@[simp] theorem State.setX_a (v : Byte) : (s.setX v).a = s.a := rfl
@[simp] theorem State.setX_x (v : Byte) : (s.setX v).x = v := rfl
@[simp] theorem State.setX_y (v : Byte) : (s.setX v).y = s.y := rfl
@[simp] theorem State.setX_sp (v : Byte) : (s.setX v).sp = s.sp := rfl
@[simp] theorem State.setX_pc (v : Byte) : (s.setX v).pc = s.pc := rfl
@[simp] theorem State.setX_flags (v : Byte) : (s.setX v).flags = s.flags := rfl
@[simp] theorem State.setX_cycles (v : Byte) : (s.setX v).cycles = s.cycles := rfl
@[simp] theorem State.setX_cyclesPerFrame (v : Byte) : (s.setX v).cyclesPerFrame = s.cyclesPerFrame := rfl
@[simp] theorem State.setX_bus (v : Byte) : (s.setX v).bus = s.bus := rfl
@[simp] theorem State.setX_undefCount (v : Byte) : (s.setX v).undefCount = s.undefCount := rfl
@[simp] theorem State.setX_mem (v : Byte) : (s.setX v).mem = s.mem := rfl
@[simp] theorem State.setX_busLog (v : Byte) : (s.setX v).busLog = s.busLog := rfl
@[simp] theorem State.setX_resetDone (v : Byte) : (s.setX v).resetDone = s.resetDone := rfl
@[simp] theorem State.setX_draws (v : Byte) : (s.setX v).draws = s.draws := rfl
@[simp] theorem State.setX_frameSignal (v : Byte) : (s.setX v).frameSignal = s.frameSignal := rfl
@[simp] theorem State.setX_config (v : Byte) : (s.setX v).config = s.config := rfl

@[simp] theorem State.setY_a (v : Byte) : (s.setY v).a = s.a := rfl
@[simp] theorem State.setY_x (v : Byte) : (s.setY v).x = s.x := rfl
@[simp] theorem State.setY_y (v : Byte) : (s.setY v).y = v := rfl
@[simp] theorem State.setY_sp (v : Byte) : (s.setY v).sp = s.sp := rfl
@[simp] theorem State.setY_pc (v : Byte) : (s.setY v).pc = s.pc := rfl
@[simp] theorem State.setY_flags (v : Byte) : (s.setY v).flags = s.flags := rfl
@[simp] theorem State.setY_cycles (v : Byte) : (s.setY v).cycles = s.cycles := rfl
@[simp] theorem State.setY_cyclesPerFrame (v : Byte) : (s.setY v).cyclesPerFrame = s.cyclesPerFrame := rfl
@[simp] theorem State.setY_bus (v : Byte) : (s.setY v).bus = s.bus := rfl
@[simp] theorem State.setY_undefCount (v : Byte) : (s.setY v).undefCount = s.undefCount := rfl
@[simp] theorem State.setY_mem (v : Byte) : (s.setY v).mem = s.mem := rfl
@[simp] theorem State.setY_busLog (v : Byte) : (s.setY v).busLog = s.busLog := rfl
@[simp] theorem State.setY_resetDone (v : Byte) : (s.setY v).resetDone = s.resetDone := rfl
@[simp] theorem State.setY_draws (v : Byte) : (s.setY v).draws = s.draws := rfl
@[simp] theorem State.setY_frameSignal (v : Byte) : (s.setY v).frameSignal = s.frameSignal := rfl
@[simp] theorem State.setY_config (v : Byte) : (s.setY v).config = s.config := rfl

@[simp] theorem State.setSp_a (v : Byte) : (s.setSp v).a = s.a := rfl
@[simp] theorem State.setSp_x (v : Byte) : (s.setSp v).x = s.x := rfl
@[simp] theorem State.setSp_y (v : Byte) : (s.setSp v).y = s.y := rfl
@[simp] theorem State.setSp_sp (v : Byte) : (s.setSp v).sp = v := rfl
@[simp] theorem State.setSp_pc (v : Byte) : (s.setSp v).pc = s.pc := rfl
@[simp] theorem State.setSp_flags (v : Byte) : (s.setSp v).flags = s.flags := rfl
@[simp] theorem State.setSp_cycles (v : Byte) : (s.setSp v).cycles = s.cycles := rfl
@[simp] theorem State.setSp_cyclesPerFrame (v : Byte) : (s.setSp v).cyclesPerFrame = s.cyclesPerFrame := rfl
@[simp] theorem State.setSp_bus (v : Byte) : (s.setSp v).bus = s.bus := rfl
@[simp] theorem State.setSp_undefCount (v : Byte) : (s.setSp v).undefCount = s.undefCount := rfl
@[simp] theorem State.setSp_mem (v : Byte) : (s.setSp v).mem = s.mem := rfl
@[simp] theorem State.setSp_busLog (v : Byte) : (s.setSp v).busLog = s.busLog := rfl
@[simp] theorem State.setSp_resetDone (v : Byte) : (s.setSp v).resetDone = s.resetDone := rfl
@[simp] theorem State.setSp_draws (v : Byte) : (s.setSp v).draws = s.draws := rfl
@[simp] theorem State.setSp_frameSignal (v : Byte) : (s.setSp v).frameSignal = s.frameSignal := rfl
@[simp] theorem State.setSp_config (v : Byte) : (s.setSp v).config = s.config := rfl

@[simp] theorem State.setPc_a (v : Word) : (s.setPc v).a = s.a := rfl
@[simp] theorem State.setPc_x (v : Word) : (s.setPc v).x = s.x := rfl
@[simp] theorem State.setPc_y (v : Word) : (s.setPc v).y = s.y := rfl
@[simp] theorem State.setPc_sp (v : Word) : (s.setPc v).sp = s.sp := rfl
@[simp] theorem State.setPc_pc (v : Word) : (s.setPc v).pc = v := rfl
@[simp] theorem State.setPc_flags (v : Word) : (s.setPc v).flags = s.flags := rfl
@[simp] theorem State.setPc_cycles (v : Word) : (s.setPc v).cycles = s.cycles := rfl
@[simp] theorem State.setPc_cyclesPerFrame (v : Word) : (s.setPc v).cyclesPerFrame = s.cyclesPerFrame := rfl
@[simp] theorem State.setPc_bus (v : Word) : (s.setPc v).bus = s.bus := rfl
@[simp] theorem State.setPc_undefCount (v : Word) : (s.setPc v).undefCount = s.undefCount := rfl
@[simp] theorem State.setPc_mem (v : Word) : (s.setPc v).mem = s.mem := rfl
@[simp] theorem State.setPc_busLog (v : Word) : (s.setPc v).busLog = s.busLog := rfl
@[simp] theorem State.setPc_resetDone (v : Word) : (s.setPc v).resetDone = s.resetDone := rfl
@[simp] theorem State.setPc_draws (v : Word) : (s.setPc v).draws = s.draws := rfl
@[simp] theorem State.setPc_frameSignal (v : Word) : (s.setPc v).frameSignal = s.frameSignal := rfl
@[simp] theorem State.setPc_config (v : Word) : (s.setPc v).config = s.config := rfl

@[simp] theorem State.setFlags_a (f : Flags) : (s.setFlags f).a = s.a := rfl
@[simp] theorem State.setFlags_x (f : Flags) : (s.setFlags f).x = s.x := rfl
@[simp] theorem State.setFlags_y (f : Flags) : (s.setFlags f).y = s.y := rfl
@[simp] theorem State.setFlags_sp (f : Flags) : (s.setFlags f).sp = s.sp := rfl
@[simp] theorem State.setFlags_pc (f : Flags) : (s.setFlags f).pc = s.pc := rfl
@[simp] theorem State.setFlags_flags (f : Flags) : (s.setFlags f).flags = f := rfl
@[simp] theorem State.setFlags_cycles (f : Flags) : (s.setFlags f).cycles = s.cycles := rfl
@[simp] theorem State.setFlags_cyclesPerFrame (f : Flags) : (s.setFlags f).cyclesPerFrame = s.cyclesPerFrame := rfl
@[simp] theorem State.setFlags_bus (f : Flags) : (s.setFlags f).bus = s.bus := rfl
@[simp] theorem State.setFlags_undefCount (f : Flags) : (s.setFlags f).undefCount = s.undefCount := rfl
@[simp] theorem State.setFlags_mem (f : Flags) : (s.setFlags f).mem = s.mem := rfl
@[simp] theorem State.setFlags_busLog (f : Flags) : (s.setFlags f).busLog = s.busLog := rfl
@[simp] theorem State.setFlags_resetDone (f : Flags) : (s.setFlags f).resetDone = s.resetDone := rfl
@[simp] theorem State.setFlags_draws (f : Flags) : (s.setFlags f).draws = s.draws := rfl
@[simp] theorem State.setFlags_frameSignal (f : Flags) : (s.setFlags f).frameSignal = s.frameSignal := rfl
@[simp] theorem State.setFlags_config (f : Flags) : (s.setFlags f).config = s.config := rfl

@[simp] theorem State.setCycles_a (c : Int) : (s.setCycles c).a = s.a := rfl
@[simp] theorem State.setCycles_x (c : Int) : (s.setCycles c).x = s.x := rfl
@[simp] theorem State.setCycles_y (c : Int) : (s.setCycles c).y = s.y := rfl
@[simp] theorem State.setCycles_sp (c : Int) : (s.setCycles c).sp = s.sp := rfl
@[simp] theorem State.setCycles_pc (c : Int) : (s.setCycles c).pc = s.pc := rfl
@[simp] theorem State.setCycles_flags (c : Int) : (s.setCycles c).flags = s.flags := rfl
@[simp] theorem State.setCycles_cycles (c : Int) : (s.setCycles c).cycles = c := rfl
@[simp] theorem State.setCycles_cyclesPerFrame (c : Int) : (s.setCycles c).cyclesPerFrame = s.cyclesPerFrame := rfl
@[simp] theorem State.setCycles_bus (c : Int) : (s.setCycles c).bus = s.bus := rfl
@[simp] theorem State.setCycles_undefCount (c : Int) : (s.setCycles c).undefCount = s.undefCount := rfl
@[simp] theorem State.setCycles_mem (c : Int) : (s.setCycles c).mem = s.mem := rfl
@[simp] theorem State.setCycles_busLog (c : Int) : (s.setCycles c).busLog = s.busLog := rfl
@[simp] theorem State.setCycles_resetDone (c : Int) : (s.setCycles c).resetDone = s.resetDone := rfl
@[simp] theorem State.setCycles_draws (c : Int) : (s.setCycles c).draws = s.draws := rfl
@[simp] theorem State.setCycles_frameSignal (c : Int) : (s.setCycles c).frameSignal = s.frameSignal := rfl
@[simp] theorem State.setCycles_config (c : Int) : (s.setCycles c).config = s.config := rfl

@[simp] theorem State.setFrameSignal_a (b : Bool) : (s.setFrameSignal b).a = s.a := rfl
@[simp] theorem State.setFrameSignal_x (b : Bool) : (s.setFrameSignal b).x = s.x := rfl
@[simp] theorem State.setFrameSignal_y (b : Bool) : (s.setFrameSignal b).y = s.y := rfl
@[simp] theorem State.setFrameSignal_sp (b : Bool) : (s.setFrameSignal b).sp = s.sp := rfl
@[simp] theorem State.setFrameSignal_pc (b : Bool) : (s.setFrameSignal b).pc = s.pc := rfl
@[simp] theorem State.setFrameSignal_flags (b : Bool) : (s.setFrameSignal b).flags = s.flags := rfl
@[simp] theorem State.setFrameSignal_cycles (b : Bool) : (s.setFrameSignal b).cycles = s.cycles := rfl
@[simp] theorem State.setFrameSignal_cyclesPerFrame (b : Bool) : (s.setFrameSignal b).cyclesPerFrame = s.cyclesPerFrame := rfl
@[simp] theorem State.setFrameSignal_bus (b : Bool) : (s.setFrameSignal b).bus = s.bus := rfl
@[simp] theorem State.setFrameSignal_undefCount (b : Bool) : (s.setFrameSignal b).undefCount = s.undefCount := rfl
@[simp] theorem State.setFrameSignal_mem (b : Bool) : (s.setFrameSignal b).mem = s.mem := rfl
@[simp] theorem State.setFrameSignal_busLog (b : Bool) : (s.setFrameSignal b).busLog = s.busLog := rfl
@[simp] theorem State.setFrameSignal_resetDone (b : Bool) : (s.setFrameSignal b).resetDone = s.resetDone := rfl
@[simp] theorem State.setFrameSignal_draws (b : Bool) : (s.setFrameSignal b).draws = s.draws := rfl
@[simp] theorem State.setFrameSignal_frameSignal (b : Bool) : (s.setFrameSignal b).frameSignal = b := rfl
@[simp] theorem State.setFrameSignal_config (b : Bool) : (s.setFrameSignal b).config = s.config := rfl

@[simp] theorem State.setMem_a (m : Memory) : (s.setMem m).a = s.a := rfl
@[simp] theorem State.setMem_x (m : Memory) : (s.setMem m).x = s.x := rfl
@[simp] theorem State.setMem_y (m : Memory) : (s.setMem m).y = s.y := rfl
@[simp] theorem State.setMem_sp (m : Memory) : (s.setMem m).sp = s.sp := rfl
@[simp] theorem State.setMem_pc (m : Memory) : (s.setMem m).pc = s.pc := rfl
@[simp] theorem State.setMem_flags (m : Memory) : (s.setMem m).flags = s.flags := rfl
@[simp] theorem State.setMem_cycles (m : Memory) : (s.setMem m).cycles = s.cycles := rfl
@[simp] theorem State.setMem_cyclesPerFrame (m : Memory) : (s.setMem m).cyclesPerFrame = s.cyclesPerFrame := rfl
@[simp] theorem State.setMem_bus (m : Memory) : (s.setMem m).bus = s.bus := rfl
@[simp] theorem State.setMem_undefCount (m : Memory) : (s.setMem m).undefCount = s.undefCount := rfl
@[simp] theorem State.setMem_mem (m : Memory) : (s.setMem m).mem = m := rfl
@[simp] theorem State.setMem_busLog (m : Memory) : (s.setMem m).busLog = s.busLog := rfl
@[simp] theorem State.setMem_resetDone (m : Memory) : (s.setMem m).resetDone = s.resetDone := rfl
@[simp] theorem State.setMem_draws (m : Memory) : (s.setMem m).draws = s.draws := rfl
@[simp] theorem State.setMem_frameSignal (m : Memory) : (s.setMem m).frameSignal = s.frameSignal := rfl
@[simp] theorem State.setMem_config (m : Memory) : (s.setMem m).config = s.config := rfl

@[simp] theorem State.setDraws_a (k : Nat) : (s.setDraws k).a = s.a := rfl
@[simp] theorem State.setDraws_x (k : Nat) : (s.setDraws k).x = s.x := rfl
@[simp] theorem State.setDraws_y (k : Nat) : (s.setDraws k).y = s.y := rfl
@[simp] theorem State.setDraws_sp (k : Nat) : (s.setDraws k).sp = s.sp := rfl
@[simp] theorem State.setDraws_pc (k : Nat) : (s.setDraws k).pc = s.pc := rfl
@[simp] theorem State.setDraws_flags (k : Nat) : (s.setDraws k).flags = s.flags := rfl
@[simp] theorem State.setDraws_cycles (k : Nat) : (s.setDraws k).cycles = s.cycles := rfl
@[simp] theorem State.setDraws_cyclesPerFrame (k : Nat) : (s.setDraws k).cyclesPerFrame = s.cyclesPerFrame := rfl
@[simp] theorem State.setDraws_bus (k : Nat) : (s.setDraws k).bus = s.bus := rfl
@[simp] theorem State.setDraws_undefCount (k : Nat) : (s.setDraws k).undefCount = s.undefCount := rfl
@[simp] theorem State.setDraws_mem (k : Nat) : (s.setDraws k).mem = s.mem := rfl
@[simp] theorem State.setDraws_busLog (k : Nat) : (s.setDraws k).busLog = s.busLog := rfl
@[simp] theorem State.setDraws_resetDone (k : Nat) : (s.setDraws k).resetDone = s.resetDone := rfl
@[simp] theorem State.setDraws_draws (k : Nat) : (s.setDraws k).draws = k := rfl
@[simp] theorem State.setDraws_frameSignal (k : Nat) : (s.setDraws k).frameSignal = s.frameSignal := rfl
@[simp] theorem State.setDraws_config (k : Nat) : (s.setDraws k).config = s.config := rfl

@[simp] theorem State.logged_a (es : List BusEvent) : (s.logged es).a = s.a := rfl
@[simp] theorem State.logged_x (es : List BusEvent) : (s.logged es).x = s.x := rfl
@[simp] theorem State.logged_y (es : List BusEvent) : (s.logged es).y = s.y := rfl
@[simp] theorem State.logged_sp (es : List BusEvent) : (s.logged es).sp = s.sp := rfl
@[simp] theorem State.logged_pc (es : List BusEvent) : (s.logged es).pc = s.pc := rfl
@[simp] theorem State.logged_flags (es : List BusEvent) : (s.logged es).flags = s.flags := rfl
@[simp] theorem State.logged_cycles (es : List BusEvent) : (s.logged es).cycles = s.cycles := rfl
@[simp] theorem State.logged_cyclesPerFrame (es : List BusEvent) : (s.logged es).cyclesPerFrame = s.cyclesPerFrame := rfl
@[simp] theorem State.logged_bus (es : List BusEvent) : (s.logged es).bus = s.bus := rfl
@[simp] theorem State.logged_undefCount (es : List BusEvent) : (s.logged es).undefCount = s.undefCount := rfl
@[simp] theorem State.logged_mem (es : List BusEvent) : (s.logged es).mem = s.mem := rfl
@[simp] theorem State.logged_busLog (es : List BusEvent) : (s.logged es).busLog = es ++ s.busLog := rfl
@[simp] theorem State.logged_resetDone (es : List BusEvent) : (s.logged es).resetDone = s.resetDone := rfl
@[simp] theorem State.logged_draws (es : List BusEvent) : (s.logged es).draws = s.draws := rfl
@[simp] theorem State.logged_frameSignal (es : List BusEvent) : (s.logged es).frameSignal = s.frameSignal := rfl
@[simp] theorem State.logged_config (es : List BusEvent) : (s.logged es).config = s.config := rfl

@[simp] theorem State.logged_nil : s.logged [] = s := rfl

@[simp] theorem State.logged_logged (es es' : List BusEvent) :
    (s.logged es).logged es' = s.logged (es' ++ es) := by
  simp [State.logged]

end Sys2Proof.Machine
end

