-- ==== Sys2Proof/Laws/Ops.lean ====
section
/-!
SUPPORT. One lemma for each shared operation that says everything it does, so that no proof unfolds an operation: what it
answers, the bus calls it records, and (by the setters' lemmas) what it leaves alone.
-/

namespace Sys2Proof.Machine

variable (s : State)

@[simp] theorem State.setA_busAnswer (v : Byte) (a : Word) : (s.setA v).busAnswer a = s.busAnswer a := rfl
@[simp] theorem State.setA_logged (v : Byte) (es : List BusEvent) : (s.logged es).setA v = (s.setA v).logged es := rfl
@[simp] theorem State.setX_busAnswer (v : Byte) (a : Word) : (s.setX v).busAnswer a = s.busAnswer a := rfl
@[simp] theorem State.setX_logged (v : Byte) (es : List BusEvent) : (s.logged es).setX v = (s.setX v).logged es := rfl
@[simp] theorem State.setY_busAnswer (v : Byte) (a : Word) : (s.setY v).busAnswer a = s.busAnswer a := rfl
@[simp] theorem State.setY_logged (v : Byte) (es : List BusEvent) : (s.logged es).setY v = (s.setY v).logged es := rfl
@[simp] theorem State.setSp_busAnswer (v : Byte) (a : Word) : (s.setSp v).busAnswer a = s.busAnswer a := rfl
@[simp] theorem State.setSp_logged (v : Byte) (es : List BusEvent) : (s.logged es).setSp v = (s.setSp v).logged es := rfl
@[simp] theorem State.setPc_busAnswer (v : Word) (a : Word) : (s.setPc v).busAnswer a = s.busAnswer a := rfl
@[simp] theorem State.setPc_logged (v : Word) (es : List BusEvent) : (s.logged es).setPc v = (s.setPc v).logged es := rfl
@[simp] theorem State.setFlags_busAnswer (f : Flags) (a : Word) : (s.setFlags f).busAnswer a = s.busAnswer a := rfl
@[simp] theorem State.setFlags_logged (f : Flags) (es : List BusEvent) : (s.logged es).setFlags f = (s.setFlags f).logged es := rfl
@[simp] theorem State.setCycles_busAnswer (c : Int) (a : Word) : (s.setCycles c).busAnswer a = s.busAnswer a := rfl
@[simp] theorem State.setCycles_logged (c : Int) (es : List BusEvent) : (s.logged es).setCycles c = (s.setCycles c).logged es := rfl
@[simp] theorem State.setFrameSignal_busAnswer (b : Bool) (a : Word) : (s.setFrameSignal b).busAnswer a = s.busAnswer a := rfl
@[simp] theorem State.setFrameSignal_logged (b : Bool) (es : List BusEvent) : (s.logged es).setFrameSignal b = (s.setFrameSignal b).logged es := rfl
@[simp] theorem State.setDraws_busAnswer (k : Nat) (a : Word) : (s.setDraws k).busAnswer a = s.busAnswer a := rfl
@[simp] theorem State.setDraws_logged (k : Nat) (es : List BusEvent) : (s.logged es).setDraws k = (s.setDraws k).logged es := rfl

/-- A plain RAM answers its contents, whatever has been recorded. -/
theorem State.busAnswer_ram {s : State} (h : s.bus = .ram) (a : Word) : s.busAnswer a = s.mem.read a.toNat := by
  simp [State.busAnswer, h]

/-- The stubs answer 0 (20_memory.md R53). -/
theorem State.busAnswer_stub {s : State} (h : s.bus = .stub) (a : Word) : s.busAnswer a = 0#8 := by
  simp [State.busAnswer, h]

/-- What a Write does to the RAM's contents, whichever adapter is set up. -/
theorem State.memAfterWrite_eq (a : Word) (v : Byte) :
    s.memAfterWrite a v = if s.bus = .ram then s.mem.write a.toNat v else s.mem := by
  unfold State.memAfterWrite
  cases s.bus <;> simp

@[simp] theorem State.memRead_fst (a : Word) : (s.memRead a).1 = s.busAnswer a := rfl

@[simp] theorem State.memRead_snd (a : Word) : (s.memRead a).2 = s.logged [.read a (s.busAnswer a)] := rfl

@[simp] theorem State.memWrite_a (a : Word) (v : Byte) : (s.memWrite a v).a = s.a := rfl
@[simp] theorem State.memWrite_x (a : Word) (v : Byte) : (s.memWrite a v).x = s.x := rfl
@[simp] theorem State.memWrite_y (a : Word) (v : Byte) : (s.memWrite a v).y = s.y := rfl
@[simp] theorem State.memWrite_sp (a : Word) (v : Byte) : (s.memWrite a v).sp = s.sp := rfl
@[simp] theorem State.memWrite_pc (a : Word) (v : Byte) : (s.memWrite a v).pc = s.pc := rfl
@[simp] theorem State.memWrite_flags (a : Word) (v : Byte) : (s.memWrite a v).flags = s.flags := rfl
@[simp] theorem State.memWrite_cycles (a : Word) (v : Byte) : (s.memWrite a v).cycles = s.cycles := rfl
@[simp] theorem State.memWrite_cyclesPerFrame (a : Word) (v : Byte) : (s.memWrite a v).cyclesPerFrame = s.cyclesPerFrame := rfl
@[simp] theorem State.memWrite_bus (a : Word) (v : Byte) : (s.memWrite a v).bus = s.bus := rfl
@[simp] theorem State.memWrite_undefCount (a : Word) (v : Byte) : (s.memWrite a v).undefCount = s.undefCount := rfl
@[simp] theorem State.memWrite_mem (a : Word) (v : Byte) : (s.memWrite a v).mem = s.memAfterWrite a v := rfl
@[simp] theorem State.memWrite_busLog (a : Word) (v : Byte) : (s.memWrite a v).busLog = .write a v :: s.busLog := rfl
@[simp] theorem State.memWrite_resetDone (a : Word) (v : Byte) : (s.memWrite a v).resetDone = s.resetDone := rfl
@[simp] theorem State.memWrite_draws (a : Word) (v : Byte) : (s.memWrite a v).draws = s.draws := rfl
@[simp] theorem State.memWrite_frameSignal (a : Word) (v : Byte) : (s.memWrite a v).frameSignal = s.frameSignal := rfl
@[simp] theorem State.memWrite_config (a : Word) (v : Byte) : (s.memWrite a v).config = s.config := rfl

@[simp] theorem State.read16_fst (a : Word) :
    (s.read16 a).1 = wordOf (s.busAnswer a) ((s.logged [.read a (s.busAnswer a)]).busAnswer (a + 1#16)) := rfl

/-- `read16` makes two reads, low byte first, and changes nothing else (20_memory.md R55). -/
theorem State.read16_snd (a : Word) :
    (s.read16 a).2 = s.logged [.read (a + 1#16) ((s.logged [.read a (s.busAnswer a)]).busAnswer (a + 1#16)),
      .read a (s.busAnswer a)] := by
  simp [State.read16]

@[simp] theorem State.fetch8_fst : s.fetch8.1 = s.busAnswer s.pc := rfl

/-- `fetch8` makes one read, at PC, and moves PC on by one (20_memory.md R56). -/
theorem State.fetch8_snd : s.fetch8.2 = (s.setPc (s.pc + 1#16)).logged [.read s.pc (s.busAnswer s.pc)] := rfl

@[simp] theorem State.push8_a (v : Byte) : (s.push8 v).a = s.a := rfl
@[simp] theorem State.push8_x (v : Byte) : (s.push8 v).x = s.x := rfl
@[simp] theorem State.push8_y (v : Byte) : (s.push8 v).y = s.y := rfl
@[simp] theorem State.push8_sp (v : Byte) : (s.push8 v).sp = s.sp - 1#8 := rfl
@[simp] theorem State.push8_pc (v : Byte) : (s.push8 v).pc = s.pc := rfl
@[simp] theorem State.push8_flags (v : Byte) : (s.push8 v).flags = s.flags := rfl
@[simp] theorem State.push8_cycles (v : Byte) : (s.push8 v).cycles = s.cycles := rfl
@[simp] theorem State.push8_cyclesPerFrame (v : Byte) : (s.push8 v).cyclesPerFrame = s.cyclesPerFrame := rfl
@[simp] theorem State.push8_bus (v : Byte) : (s.push8 v).bus = s.bus := rfl
@[simp] theorem State.push8_undefCount (v : Byte) : (s.push8 v).undefCount = s.undefCount := rfl
@[simp] theorem State.push8_mem (v : Byte) : (s.push8 v).mem = s.memAfterWrite (stackAddress s.sp) v := rfl
@[simp] theorem State.push8_busLog (v : Byte) : (s.push8 v).busLog = .write (stackAddress s.sp) v :: s.busLog := rfl
@[simp] theorem State.push8_resetDone (v : Byte) : (s.push8 v).resetDone = s.resetDone := rfl
@[simp] theorem State.push8_draws (v : Byte) : (s.push8 v).draws = s.draws := rfl
@[simp] theorem State.push8_frameSignal (v : Byte) : (s.push8 v).frameSignal = s.frameSignal := rfl
@[simp] theorem State.push8_config (v : Byte) : (s.push8 v).config = s.config := rfl

@[simp] theorem State.pull8_fst : s.pull8.1 = s.busAnswer (stackAddress (s.sp + 1#8)) := rfl

/-- `pull8` increments S and makes one read (20_memory.md R59). -/
@[simp] theorem State.pull8_snd :
    s.pull8.2 = (s.setSp (s.sp + 1#8)).logged
      [.read (stackAddress (s.sp + 1#8)) (s.busAnswer (stackAddress (s.sp + 1#8)))] := rfl

@[simp] theorem State.drawBit_fst : s.drawBit.1 = freeBit s.draws := rfl

@[simp] theorem State.drawBit_snd : s.drawBit.2 = s.setDraws (s.draws + 1) := rfl

@[simp] theorem State.drawByte_fst : s.drawByte.1 = freeByte s.draws := rfl

@[simp] theorem State.drawByte_snd : s.drawByte.2 = s.setDraws (s.draws + 1) := rfl

/-- The stack page: `0x0100 + S` (20_memory.md R58). -/
theorem stackAddress_toNat (sp : Byte) : (stackAddress sp).toNat = 256 + sp.toNat := by
  have h := sp.isLt
  have e : (256 : Nat) ||| sp.toNat = 256 + sp.toNat := by
    have := Nat.shiftLeft_add_eq_or_of_lt (i := 8) (b := sp.toNat) (by omega) 1
    simpa using this.symm
  simp [stackAddress, BitVec.toNat_or, e]

theorem stackAddress_inj {p q : Byte} : stackAddress p = stackAddress q ↔ p = q := by
  constructor
  · intro h
    have := congrArg BitVec.toNat h
    rw [stackAddress_toNat, stackAddress_toNat] at this
    exact BitVec.eq_of_toNat_eq (by omega)
  · rintro rfl; rfl

/-- A zero-page pointer is two reads in the zero page (41_addressing_modes.md R131, R132). -/
theorem State.zeroPagePointer_snd (p : Byte) :
    (s.zeroPagePointer p).2 = s.logged
      [.read (zext16 (p + 1#8)) ((s.logged [.read (zext16 p) (s.busAnswer (zext16 p))]).busAnswer (zext16 (p + 1#8))),
       .read (zext16 p) (s.busAnswer (zext16 p))] := by
  simp [State.zeroPagePointer]

/-- Computing an effective address only records reads: none, or the pointer's two. -/
theorem State.ea_state (m : Mem) : ∃ es : List BusEvent, (s.ea m).2 = s.logged es := by
  cases m with
  | izx a => exact ⟨_, s.zeroPagePointer_snd _⟩
  | izy a => exact ⟨_, s.zeroPagePointer_snd _⟩
  | _ => exact ⟨[], rfl⟩

/-- Reading an operand only records reads. -/
theorem State.load_state (src : Src) : ∃ es : List BusEvent, (s.load src).2 = s.logged es := by
  cases src with
  | imm v => exact ⟨[], rfl⟩
  | mem m =>
    obtain ⟨es, h⟩ := s.ea_state m
    refine ⟨.read (s.ea m).1 ((s.ea m).2.busAnswer (s.ea m).1) :: es, ?_⟩
    show ((s.ea m).2.memRead (s.ea m).1).2 = _
    rw [State.memRead_snd, h, State.logged_logged]
    rfl

/-- `load()` of a memory mode is one read of the effective address (41_addressing_modes.md R134). -/
theorem State.load_mem (m : Mem) : s.load (.mem m) = (s.ea m).2.memRead (s.ea m).1 := rfl

@[simp] theorem State.load_imm (v : Byte) : s.load (.imm v) = (v, s) := rfl

/-- `store(v)` is one write of the effective address (41_addressing_modes.md R135). -/
theorem State.store_eq (m : Mem) (v : Byte) : s.store m v = (s.ea m).2.memWrite (s.ea m).1 v := rfl

/-- `modify(f)` on the accumulator (41_addressing_modes.md R136). -/
theorem State.modify_acc (f : Modify) :
    s.modify .acc f = ((f s.a s.flags).1, (s.setFlags (f s.a s.flags).2).setA (f s.a s.flags).1) := rfl

/-- `modify(f)` on memory: one read and one write of the effective address (41_addressing_modes.md R136). -/
theorem State.modify_mem (m : Mem) (f : Modify) :
    s.modify (.mem m) f =
      let v := (s.ea m).2.busAnswer (s.ea m).1
      let r := f v (s.ea m).2.flags
      (r.1, (((s.ea m).2.logged [.read (s.ea m).1 v]).setFlags r.2).memWrite (s.ea m).1 r.1) := rfl

/-- The target of JMP only records reads: none, or the pointer's two. -/
theorem State.jumpTarget_state (t : Target) : ∃ es : List BusEvent, (s.jumpTarget t).2 = s.logged es := by
  cases t with
  | abs a => exact ⟨[], rfl⟩
  | ind p => exact ⟨_, (s.logged_logged _ _)⟩

/-- The state of an interrupt entry before the vector is read: three bytes pushed, I set (60_exceptions.md R304). -/
def State.entered (s : State) : State :=
  ((((s.push8 (highByte s.pc)).push8 (lowByte s.pc)).push8 s.pack).setFlags { s.flags with i := true })

/-- Taking an interrupt: three pushes, I, and the vector's two reads (60_exceptions.md R304). -/
theorem State.interruptEntry_eq (vector : Word) :
    s.interruptEntry vector = (s.entered.read16 vector).2.setPc (s.entered.read16 vector).1 := rfl

@[simp] theorem State.entered_a : s.entered.a = s.a := by simp [State.entered]
@[simp] theorem State.entered_x : s.entered.x = s.x := by simp [State.entered]
@[simp] theorem State.entered_y : s.entered.y = s.y := by simp [State.entered]
@[simp] theorem State.entered_sp : s.entered.sp = s.sp - 1#8 - 1#8 - 1#8 := by simp [State.entered]
@[simp] theorem State.entered_pc : s.entered.pc = s.pc := by simp [State.entered]
@[simp] theorem State.entered_flags : s.entered.flags = { s.flags with i := true } := by simp [State.entered]
@[simp] theorem State.entered_cycles : s.entered.cycles = s.cycles := by simp [State.entered]
@[simp] theorem State.entered_cyclesPerFrame : s.entered.cyclesPerFrame = s.cyclesPerFrame := by simp [State.entered]
@[simp] theorem State.entered_bus : s.entered.bus = s.bus := by simp [State.entered]
@[simp] theorem State.entered_undefCount : s.entered.undefCount = s.undefCount := by simp [State.entered]
@[simp] theorem State.entered_resetDone : s.entered.resetDone = s.resetDone := by simp [State.entered]
@[simp] theorem State.entered_draws : s.entered.draws = s.draws := by simp [State.entered]
@[simp] theorem State.entered_frameSignal : s.entered.frameSignal = s.frameSignal := by simp [State.entered]
@[simp] theorem State.entered_config : s.entered.config = s.config := by simp [State.entered]

@[simp] theorem State.interruptEntry_a (vector : Word) : (s.interruptEntry vector).a = s.a := by
  simp [State.interruptEntry_eq, State.read16_snd]
@[simp] theorem State.interruptEntry_x (vector : Word) : (s.interruptEntry vector).x = s.x := by
  simp [State.interruptEntry_eq, State.read16_snd]
@[simp] theorem State.interruptEntry_y (vector : Word) : (s.interruptEntry vector).y = s.y := by
  simp [State.interruptEntry_eq, State.read16_snd]
@[simp] theorem State.interruptEntry_sp (vector : Word) : (s.interruptEntry vector).sp = s.sp - 1#8 - 1#8 - 1#8 := by
  simp [State.interruptEntry_eq, State.read16_snd]
@[simp] theorem State.interruptEntry_flags (vector : Word) : (s.interruptEntry vector).flags = { s.flags with i := true } := by
  simp [State.interruptEntry_eq, State.read16_snd]
@[simp] theorem State.interruptEntry_cycles (vector : Word) : (s.interruptEntry vector).cycles = s.cycles := by
  simp [State.interruptEntry_eq, State.read16_snd]
@[simp] theorem State.interruptEntry_cyclesPerFrame (vector : Word) : (s.interruptEntry vector).cyclesPerFrame = s.cyclesPerFrame := by
  simp [State.interruptEntry_eq, State.read16_snd]
@[simp] theorem State.interruptEntry_bus (vector : Word) : (s.interruptEntry vector).bus = s.bus := by
  simp [State.interruptEntry_eq, State.read16_snd]
@[simp] theorem State.interruptEntry_undefCount (vector : Word) : (s.interruptEntry vector).undefCount = s.undefCount := by
  simp [State.interruptEntry_eq, State.read16_snd]
@[simp] theorem State.interruptEntry_resetDone (vector : Word) : (s.interruptEntry vector).resetDone = s.resetDone := by
  simp [State.interruptEntry_eq, State.read16_snd]
@[simp] theorem State.interruptEntry_draws (vector : Word) : (s.interruptEntry vector).draws = s.draws := by
  simp [State.interruptEntry_eq, State.read16_snd]
@[simp] theorem State.interruptEntry_frameSignal (vector : Word) : (s.interruptEntry vector).frameSignal = s.frameSignal := by
  simp [State.interruptEntry_eq, State.read16_snd]
@[simp] theorem State.interruptEntry_config (vector : Word) : (s.interruptEntry vector).config = s.config := by
  simp [State.interruptEntry_eq, State.read16_snd]

/-- The RAM after an interrupt entry: the three bytes pushed (60_exceptions.md R304). -/
theorem State.interruptEntry_mem (vector : Word) : (s.interruptEntry vector).mem = s.entered.mem := by
  simp [State.interruptEntry_eq, State.read16_snd]

end Sys2Proof.Machine
end

