-- ==== Sys2Proof/Laws/Step.lean ====
section
/-!
SUPPORT. What one ExecuteOne and one host call can do, said once: the inversion lemmas that proofs about steps and runs
cite instead of unfolding them.
-/

namespace Sys2Proof.Machine

variable {s t : State}

/-- ExecuteOne when Reset and Setup have run (40_execution_cycle.md R101). -/
theorem step_ready {frame : Nat} (hr : s.resetDone = true) (hf : s.cyclesPerFrame = some frame) {u : State}
    (hx : exec s.fetchInstr.1.instr s.fetchInstr.2 = .next u) :
    step s = .next ((u.addCycles (costOf s.config s.fetchInstr.1.opcode)).frameTest frame) := by
  simp [step, hr, hf, hx]

/-- A step that answers a next state: Reset and Setup have run, the fetched instruction answered a state, and its cost
and the frame test follow (40_execution_cycle.md R101). -/
theorem step_next (h : step s = .next t) :
    s.resetDone = true ∧ ∃ frame u, s.cyclesPerFrame = some frame ∧
      exec s.fetchInstr.1.instr s.fetchInstr.2 = .next u ∧
      t = (u.addCycles (costOf s.config s.fetchInstr.1.opcode)).frameTest frame := by
  unfold step at h
  split at h
  · cases h
  · cases h
  · rename_i frame hr hf
    refine ⟨hr, frame, ?_⟩
    split at h
    · rename_i u hx
      cases h
      exact ⟨u, hf, hx, rfl⟩
    · cases h
    · cases h

/-- A one-byte instruction is one `fetch8` (30_encoding.md R80). -/
theorem State.fetchInstr_one (s : State) (h : (entryOf s.fetch8.1).length = 1) :
    s.fetchInstr = (⟨s.fetch8.1, (entryOf s.fetch8.1).build s.fetch8.1 0 0⟩, s.fetch8.2) := by
  simp only [State.fetchInstr, h]

/-- A two-byte instruction is two `fetch8` calls (30_encoding.md R80). -/
theorem State.fetchInstr_two (s : State) (h : (entryOf s.fetch8.1).length = 2) :
    s.fetchInstr = (⟨s.fetch8.1, (entryOf s.fetch8.1).build s.fetch8.1 s.fetch8.2.fetch8.1 0⟩, s.fetch8.2.fetch8.2) := by
  simp only [State.fetchInstr, h]

/-- A three-byte instruction is three `fetch8` calls (30_encoding.md R80). -/
theorem State.fetchInstr_three (s : State) (h : (entryOf s.fetch8.1).length = 3) :
    s.fetchInstr = (⟨s.fetch8.1, (entryOf s.fetch8.1).build s.fetch8.1 s.fetch8.2.fetch8.1 s.fetch8.2.fetch8.2.fetch8.1⟩,
      s.fetch8.2.fetch8.2.fetch8.2) := by
  simp only [State.fetchInstr, h]

/-- The opcode fetched is the byte the bus answers at PC. -/
@[simp] theorem State.fetchInstr_opcode (s : State) : s.fetchInstr.1.opcode = s.busAnswer s.pc := by
  rcases entryOf_length s.fetch8.1 with h | h | h
  · rw [s.fetchInstr_one h]; rfl
  · rw [s.fetchInstr_two h]; rfl
  · rw [s.fetchInstr_three h]; rfl

/-- A fetch only records reads and moves PC on by the instruction's length (20_memory.md R56). -/
theorem State.fetchInstr_state (s : State) :
    ∃ es : List BusEvent, s.fetchInstr.2 = (s.setPc (s.pc + BitVec.ofNat 16 (entryOf s.fetch8.1).length)).logged es := by
  rcases entryOf_length s.fetch8.1 with h | h | h
  · rw [s.fetchInstr_one h, h]
    exact ⟨_, s.fetch8_snd⟩
  · rw [s.fetchInstr_two h, h]
    refine ⟨[.read s.fetch8.2.pc (s.fetch8.2.busAnswer s.fetch8.2.pc), .read s.pc (s.busAnswer s.pc)], ?_⟩
    simp [State.fetch8_snd, State.setPc, State.logged, BitVec.add_assoc]
  · rw [s.fetchInstr_three h, h]
    refine ⟨[.read s.fetch8.2.fetch8.2.pc (s.fetch8.2.fetch8.2.busAnswer s.fetch8.2.fetch8.2.pc),
      .read s.fetch8.2.pc (s.fetch8.2.busAnswer s.fetch8.2.pc), .read s.pc (s.busAnswer s.pc)], ?_⟩
    simp [State.fetch8_snd, State.setPc, State.logged, BitVec.add_assoc]

/-- The frame test writes `cycles` and the frame signal only (40_execution_cycle.md R103). -/
theorem State.frameTest_eq (frame : Nat) (s : State) :
    s.frameTest frame = (s.setCycles (if s.cycles ≥ (frame : Int) then s.cycles - frame else s.cycles)).setFrameSignal
      (decide (s.cycles ≥ (frame : Int))) := by
  unfold State.frameTest
  by_cases h : s.cycles ≥ (frame : Int)
  · simp [h]
  · simp [h]
    rfl

/-- What each host call that answers can have done (40_execution_cycle.md R100). -/
theorem call_next {c : HostCall} {ret : HostReturn} (h : call c s = .next (t, ret)) :
    (∃ bus clockHz rateHz, c = .setup (some bus) clockHz rateHz ∧ rateHz ≠ 0 ∧ ret = .nothing ∧
        t = { s with bus := bus, cyclesPerFrame := some (clockHz / rateHz) }) ∨
    (c = .reset ∧ ret = .success ∧ t = resetCore s) ∨
    (c = .executeOne ∧ ret = .frame t.frameSignal ∧ step s = .next t) ∨
    (c = .triggerNmi ∧ ret = .success ∧ s.resetDone = true ∧
        t = (s.interruptEntry nmiVector).addCycles s.config.intEntryCycles) ∨
    (c = .triggerIrq ∧ ret = .serviced true ∧ s.resetDone = true ∧ s.flags.i = false ∧
        t = (s.interruptEntry irqVector).addCycles s.config.intEntryCycles) ∨
    (c = .triggerIrq ∧ ret = .serviced false ∧ s.resetDone = true ∧ s.flags.i = true ∧ t = s) ∨
    (c = .getStatus ∧ ret = .status s.status ∧ s.resetDone = true ∧ t = s) := by
  cases c with
  | setup adapter clockHz rateHz =>
    cases adapter with
    | none => simp [call, setup, returning] at h
    | some bus =>
      cases rateHz with
      | zero => simp [call, setup, returning] at h
      | succ n =>
        simp only [call, setup, returning, Host.Outcome.next.injEq, Prod.mk.injEq] at h
        exact .inl ⟨bus, clockHz, n + 1, rfl, by omega, h.2.symm, h.1.symm⟩
  | reset =>
    simp only [call, Host.Outcome.next.injEq, Prod.mk.injEq] at h
    exact .inr (.inl ⟨rfl, h.2.symm, h.1.symm⟩)
  | executeOne =>
    simp only [call] at h
    cases hs : step s with
    | next u =>
      rw [hs] at h
      simp only [returning, Host.Outcome.next.injEq, Prod.mk.injEq] at h
      obtain ⟨rfl, rfl⟩ := h
      exact .inr (.inr (.inl ⟨rfl, rfl, rfl⟩))
    | fault r => cases r
    | refused r => rw [hs] at h; simp [returning] at h
  | triggerNmi =>
    cases hr : s.resetDone
    · simp [call, triggerNmi, hr, returning] at h
    · simp only [call, triggerNmi, hr, returning, Host.Outcome.next.injEq, Prod.mk.injEq] at h
      exact .inr (.inr (.inr (.inl ⟨rfl, h.2.symm, rfl, h.1.symm⟩)))
  | triggerIrq =>
    cases hr : s.resetDone
    · simp [call, triggerIrq, hr] at h
    · cases hi : s.flags.i
      · simp only [call, triggerIrq, hr, hi, Host.Outcome.next.injEq, Prod.mk.injEq] at h
        exact .inr (.inr (.inr (.inr (.inl ⟨rfl, h.2.symm, rfl, rfl, h.1.symm⟩))))
      · simp only [call, triggerIrq, hr, hi, Host.Outcome.next.injEq, Prod.mk.injEq] at h
        exact .inr (.inr (.inr (.inr (.inr (.inl ⟨rfl, h.2.symm, rfl, rfl, h.1.symm⟩)))))
  | getStatus =>
    cases hr : s.resetDone
    · simp [call, getStatus, hr] at h
    · simp only [call, getStatus, hr, Host.Outcome.next.injEq, Prod.mk.injEq] at h
      exact .inr (.inr (.inr (.inr (.inr (.inr ⟨rfl, h.2.symm, rfl, h.1.symm⟩)))))

end Sys2Proof.Machine
end

