-- ==== Sys2Proof/Laws/Closure.lean ====
section
/-!
SUPPORT. Closure: a property of states that the machine's building blocks keep is kept by every operation, every
instruction and every step. Proofs of invariants cite this instead of going through the instructions again.
-/

namespace Sys2Proof.Machine

/-- A property of states that the machine's building blocks keep: one bus read, one bus write, and any change of the
registers, flags and counters alone. -/
structure Closed (P : State → Prop) : Prop where
  memRead : ∀ s a, P s → P (s.memRead a).2
  memWrite : ∀ s a v, P s → P (s.memWrite a v)
  registers : ∀ s t, P s → t.bus = s.bus → t.mem = s.mem → t.busLog = s.busLog → t.config = s.config →
    t.resetDone = s.resetDone → t.cyclesPerFrame = s.cyclesPerFrame → P t

variable {P : State → Prop} (c : Closed P) {s : State}
include c

theorem Closed.setA (h : P s) (v : Byte) : P (s.setA v) := c.registers _ _ h rfl rfl rfl rfl rfl rfl
theorem Closed.setX (h : P s) (v : Byte) : P (s.setX v) := c.registers _ _ h rfl rfl rfl rfl rfl rfl
theorem Closed.setY (h : P s) (v : Byte) : P (s.setY v) := c.registers _ _ h rfl rfl rfl rfl rfl rfl
theorem Closed.setSp (h : P s) (v : Byte) : P (s.setSp v) := c.registers _ _ h rfl rfl rfl rfl rfl rfl
theorem Closed.setPc (h : P s) (v : Word) : P (s.setPc v) := c.registers _ _ h rfl rfl rfl rfl rfl rfl
theorem Closed.setFlags (h : P s) (v : Flags) : P (s.setFlags v) := c.registers _ _ h rfl rfl rfl rfl rfl rfl
theorem Closed.setNZ (h : P s) (v : Byte) : P (s.setNZ v) := c.setFlags h _
theorem Closed.setDraws (h : P s) (v : Nat) : P (s.setDraws v) := c.registers _ _ h rfl rfl rfl rfl rfl rfl
theorem Closed.addCycles (h : P s) (k : Nat) : P (s.addCycles k) := c.registers _ _ h rfl rfl rfl rfl rfl rfl

theorem Closed.fetch8 (h : P s) : P s.fetch8.2 := c.setPc (c.memRead _ _ h) _

theorem Closed.read16 (h : P s) (a : Word) : P (s.read16 a).2 := c.memRead _ _ (c.memRead _ _ h)

theorem Closed.push8 (h : P s) (v : Byte) : P (s.push8 v) := c.setSp (c.memWrite _ _ _ h) _

theorem Closed.pull8 (h : P s) : P s.pull8.2 := c.memRead _ _ (c.setSp h _)

theorem Closed.interruptEntry (h : P s) (vector : Word) : P (s.interruptEntry vector) := by
  rw [State.interruptEntry_eq]
  refine c.setPc (c.read16 ?_ _) _
  exact c.setFlags (c.push8 (c.push8 (c.push8 h _) _) _) _

theorem Closed.returnFromInterrupt (h : P s) : P s.returnFromInterrupt :=
  c.setPc (c.pull8 (c.pull8 (c.setFlags (c.pull8 h) _))) _

theorem Closed.ea (h : P s) (m : Mem) : P (s.ea m).2 := by
  cases m with
  | izx a => exact c.memRead _ _ (c.memRead _ _ h)
  | izy a => exact c.memRead _ _ (c.memRead _ _ h)
  | _ => exact h

theorem Closed.load (h : P s) (src : Src) : P (s.load src).2 := by
  cases src with
  | imm v => exact h
  | mem m => exact c.memRead _ _ (c.ea h m)

theorem Closed.store (h : P s) (m : Mem) (v : Byte) : P (s.store m v) := c.memWrite _ _ _ (c.ea h m)

theorem Closed.modifyNZ (h : P s) (dst : Dst) (f : Modify) : P (s.modifyNZ dst f) := by
  cases dst with
  | acc => exact c.setNZ (c.setA (c.setFlags h _) _) _
  | mem m => exact c.setNZ (c.memWrite _ _ _ (c.setFlags (c.memRead _ _ (c.ea h m)) _)) _

theorem Closed.jumpTarget (h : P s) (t : Target) : P (s.jumpTarget t).2 := by
  cases t with
  | abs a => exact h
  | ind p => exact c.memRead _ _ (c.memRead _ _ h)

theorem Closed.writeDecimal (h : P s) (o : Option (Byte × Bool)) : P (s.writeDecimal o) := by
  cases o with
  | some rc => exact c.setFlags (c.setDraws (c.setDraws (c.setDraws (c.setFlags (c.setA h _) _) _) _) _) _
  | none =>
    exact c.setFlags (c.setDraws (c.setDraws (c.setDraws (c.setFlags (c.setA (c.setDraws (c.setDraws h _) _) _) _) _) _) _) _

theorem Closed.branch (h : P s) (cond : Bool) (rel : Byte) : P (s.branch cond rel) := by
  unfold State.branch
  split
  · exact c.setPc h _
  · exact h

/-- A property that the building blocks keep is kept by every instruction. -/
theorem Closed.exec (h : P s) {i : Instr} {t : State} (e : exec i s = .next t) : P t := by
  cases i with
  | lda src => cases e; exact c.setNZ (c.setA (c.load h src) _) _
  | ldx src => cases e; exact c.setNZ (c.setX (c.load h src) _) _
  | ldy src => cases e; exact c.setNZ (c.setY (c.load h src) _) _
  | sta m | stx m | sty m => cases e; exact c.store h m _
  | tax | tsx => cases e; exact c.setNZ (c.setX h _) _
  | tay => cases e; exact c.setNZ (c.setY h _) _
  | txa | tya => cases e; exact c.setNZ (c.setA h _) _
  | txs => cases e; exact c.setSp h _
  | pha | php => cases e; exact c.push8 h _
  | pla => cases e; exact c.setNZ (c.setA (c.pull8 h) _) _
  | plp => cases e; exact c.setFlags (c.pull8 h) _
  | adc src =>
    simp only [Machine.exec, execAdc] at e
    split at e <;> cases e
    · exact c.writeDecimal (c.load h src) _
    · exact c.setNZ (c.setFlags (c.setA (c.load h src) _) _) _
  | sbc src =>
    simp only [Machine.exec, execSbc] at e
    split at e <;> cases e
    · exact c.writeDecimal (c.load h src) _
    · exact c.setNZ (c.setFlags (c.setA (c.load h src) _) _) _
  | and src | ora src | eor src => cases e; exact c.setNZ (c.setA (c.load h src) _) _
  | cmp src | cpx src | cpy src => cases e; exact c.setFlags (c.load h src) _
  | bit m => cases e; exact c.setFlags (c.load h (.mem m)) _
  | inc m | dec m => cases e; exact c.modifyNZ h (.mem m) _
  | inx | dex => cases e; exact c.setNZ (c.setX h _) _
  | iny | dey => cases e; exact c.setNZ (c.setY h _) _
  | asl d | lsr d | rol d | ror d => cases e; exact c.modifyNZ h d _
  | jmp target => cases e; exact c.setPc (c.jumpTarget h target) _
  | jsr target => cases e; exact c.setPc (c.push8 (c.push8 h _) _) _
  | rts => cases e; exact c.setPc (c.pull8 (c.pull8 h)) _
  | rti => cases e; exact c.returnFromInterrupt h
  | brk => cases e; exact c.interruptEntry (c.setFlags (c.setPc h _) _) _
  | bcc rel | bcs rel | beq rel | bne rel | bmi rel | bpl rel | bvc rel | bvs rel => cases e; exact c.branch h _ rel
  | clc | sec | cli | sei | cld | sed | clv => cases e; exact c.setFlags h _
  | nop => cases e; exact h
  | undefined op => cases e; exact c.registers _ _ h rfl rfl rfl rfl rfl rfl

theorem Closed.fetchInstr (h : P s) : P s.fetchInstr.2 := by
  unfold State.fetchInstr
  simp only
  split
  · exact c.fetch8 h
  · exact c.fetch8 (c.fetch8 h)
  · exact c.fetch8 (c.fetch8 (c.fetch8 h))

theorem Closed.frameTest (h : P s) (frame : Nat) : P (s.frameTest frame) := by
  rw [State.frameTest_eq]; exact c.registers _ _ h rfl rfl rfl rfl rfl rfl

/-- Such a property is kept by every step. -/
theorem Closed.step (h : P s) {t : State} (e : step s = .next t) : P t := by
  obtain ⟨-, frame, u, -, hu, rfl⟩ := step_next e
  exact c.frameTest (c.addCycles (c.exec (c.fetchInstr h) hu) _) _

end Sys2Proof.Machine
end

