-- ==== Sys2Proof/Laws/Effects.lean ====
section
/-!
SUPPORT. What each shared operation of the meanings leaves alone, field by field, and what each instruction's meaning is
as one next state over those operations: proofs about instructions rewrite with these and unfold no meaning.
-/

namespace Sys2Proof.Machine

variable (s : State)

/-! ## What the operand forms leave alone -/

@[simp] theorem State.ea_snd_a (m : Mem) : (s.ea m).2.a = s.a := by
  obtain ⟨es, h⟩ := s.ea_state m; rw [h]; rfl
@[simp] theorem State.ea_snd_x (m : Mem) : (s.ea m).2.x = s.x := by
  obtain ⟨es, h⟩ := s.ea_state m; rw [h]; rfl
@[simp] theorem State.ea_snd_y (m : Mem) : (s.ea m).2.y = s.y := by
  obtain ⟨es, h⟩ := s.ea_state m; rw [h]; rfl
@[simp] theorem State.ea_snd_sp (m : Mem) : (s.ea m).2.sp = s.sp := by
  obtain ⟨es, h⟩ := s.ea_state m; rw [h]; rfl
@[simp] theorem State.ea_snd_pc (m : Mem) : (s.ea m).2.pc = s.pc := by
  obtain ⟨es, h⟩ := s.ea_state m; rw [h]; rfl
@[simp] theorem State.ea_snd_flags (m : Mem) : (s.ea m).2.flags = s.flags := by
  obtain ⟨es, h⟩ := s.ea_state m; rw [h]; rfl
@[simp] theorem State.ea_snd_cycles (m : Mem) : (s.ea m).2.cycles = s.cycles := by
  obtain ⟨es, h⟩ := s.ea_state m; rw [h]; rfl
@[simp] theorem State.ea_snd_cyclesPerFrame (m : Mem) : (s.ea m).2.cyclesPerFrame = s.cyclesPerFrame := by
  obtain ⟨es, h⟩ := s.ea_state m; rw [h]; rfl
@[simp] theorem State.ea_snd_bus (m : Mem) : (s.ea m).2.bus = s.bus := by
  obtain ⟨es, h⟩ := s.ea_state m; rw [h]; rfl
@[simp] theorem State.ea_snd_undefCount (m : Mem) : (s.ea m).2.undefCount = s.undefCount := by
  obtain ⟨es, h⟩ := s.ea_state m; rw [h]; rfl
@[simp] theorem State.ea_snd_mem (m : Mem) : (s.ea m).2.mem = s.mem := by
  obtain ⟨es, h⟩ := s.ea_state m; rw [h]; rfl
@[simp] theorem State.ea_snd_resetDone (m : Mem) : (s.ea m).2.resetDone = s.resetDone := by
  obtain ⟨es, h⟩ := s.ea_state m; rw [h]; rfl
@[simp] theorem State.ea_snd_draws (m : Mem) : (s.ea m).2.draws = s.draws := by
  obtain ⟨es, h⟩ := s.ea_state m; rw [h]; rfl
@[simp] theorem State.ea_snd_frameSignal (m : Mem) : (s.ea m).2.frameSignal = s.frameSignal := by
  obtain ⟨es, h⟩ := s.ea_state m; rw [h]; rfl
@[simp] theorem State.ea_snd_config (m : Mem) : (s.ea m).2.config = s.config := by
  obtain ⟨es, h⟩ := s.ea_state m; rw [h]; rfl

@[simp] theorem State.load_snd_a (src : Src) : (s.load src).2.a = s.a := by
  obtain ⟨es, h⟩ := s.load_state src; rw [h]; rfl
@[simp] theorem State.load_snd_x (src : Src) : (s.load src).2.x = s.x := by
  obtain ⟨es, h⟩ := s.load_state src; rw [h]; rfl
@[simp] theorem State.load_snd_y (src : Src) : (s.load src).2.y = s.y := by
  obtain ⟨es, h⟩ := s.load_state src; rw [h]; rfl
@[simp] theorem State.load_snd_sp (src : Src) : (s.load src).2.sp = s.sp := by
  obtain ⟨es, h⟩ := s.load_state src; rw [h]; rfl
@[simp] theorem State.load_snd_pc (src : Src) : (s.load src).2.pc = s.pc := by
  obtain ⟨es, h⟩ := s.load_state src; rw [h]; rfl
@[simp] theorem State.load_snd_flags (src : Src) : (s.load src).2.flags = s.flags := by
  obtain ⟨es, h⟩ := s.load_state src; rw [h]; rfl
@[simp] theorem State.load_snd_cycles (src : Src) : (s.load src).2.cycles = s.cycles := by
  obtain ⟨es, h⟩ := s.load_state src; rw [h]; rfl
@[simp] theorem State.load_snd_cyclesPerFrame (src : Src) : (s.load src).2.cyclesPerFrame = s.cyclesPerFrame := by
  obtain ⟨es, h⟩ := s.load_state src; rw [h]; rfl
@[simp] theorem State.load_snd_bus (src : Src) : (s.load src).2.bus = s.bus := by
  obtain ⟨es, h⟩ := s.load_state src; rw [h]; rfl
@[simp] theorem State.load_snd_undefCount (src : Src) : (s.load src).2.undefCount = s.undefCount := by
  obtain ⟨es, h⟩ := s.load_state src; rw [h]; rfl
@[simp] theorem State.load_snd_mem (src : Src) : (s.load src).2.mem = s.mem := by
  obtain ⟨es, h⟩ := s.load_state src; rw [h]; rfl
@[simp] theorem State.load_snd_resetDone (src : Src) : (s.load src).2.resetDone = s.resetDone := by
  obtain ⟨es, h⟩ := s.load_state src; rw [h]; rfl
@[simp] theorem State.load_snd_draws (src : Src) : (s.load src).2.draws = s.draws := by
  obtain ⟨es, h⟩ := s.load_state src; rw [h]; rfl
@[simp] theorem State.load_snd_frameSignal (src : Src) : (s.load src).2.frameSignal = s.frameSignal := by
  obtain ⟨es, h⟩ := s.load_state src; rw [h]; rfl
@[simp] theorem State.load_snd_config (src : Src) : (s.load src).2.config = s.config := by
  obtain ⟨es, h⟩ := s.load_state src; rw [h]; rfl

@[simp] theorem State.jumpTarget_snd_a (t : Target) : (s.jumpTarget t).2.a = s.a := by
  obtain ⟨es, h⟩ := s.jumpTarget_state t; rw [h]; rfl
@[simp] theorem State.jumpTarget_snd_x (t : Target) : (s.jumpTarget t).2.x = s.x := by
  obtain ⟨es, h⟩ := s.jumpTarget_state t; rw [h]; rfl
@[simp] theorem State.jumpTarget_snd_y (t : Target) : (s.jumpTarget t).2.y = s.y := by
  obtain ⟨es, h⟩ := s.jumpTarget_state t; rw [h]; rfl
@[simp] theorem State.jumpTarget_snd_sp (t : Target) : (s.jumpTarget t).2.sp = s.sp := by
  obtain ⟨es, h⟩ := s.jumpTarget_state t; rw [h]; rfl
@[simp] theorem State.jumpTarget_snd_pc (t : Target) : (s.jumpTarget t).2.pc = s.pc := by
  obtain ⟨es, h⟩ := s.jumpTarget_state t; rw [h]; rfl
@[simp] theorem State.jumpTarget_snd_flags (t : Target) : (s.jumpTarget t).2.flags = s.flags := by
  obtain ⟨es, h⟩ := s.jumpTarget_state t; rw [h]; rfl
@[simp] theorem State.jumpTarget_snd_cycles (t : Target) : (s.jumpTarget t).2.cycles = s.cycles := by
  obtain ⟨es, h⟩ := s.jumpTarget_state t; rw [h]; rfl
@[simp] theorem State.jumpTarget_snd_cyclesPerFrame (t : Target) : (s.jumpTarget t).2.cyclesPerFrame = s.cyclesPerFrame := by
  obtain ⟨es, h⟩ := s.jumpTarget_state t; rw [h]; rfl
@[simp] theorem State.jumpTarget_snd_bus (t : Target) : (s.jumpTarget t).2.bus = s.bus := by
  obtain ⟨es, h⟩ := s.jumpTarget_state t; rw [h]; rfl
@[simp] theorem State.jumpTarget_snd_undefCount (t : Target) : (s.jumpTarget t).2.undefCount = s.undefCount := by
  obtain ⟨es, h⟩ := s.jumpTarget_state t; rw [h]; rfl
@[simp] theorem State.jumpTarget_snd_mem (t : Target) : (s.jumpTarget t).2.mem = s.mem := by
  obtain ⟨es, h⟩ := s.jumpTarget_state t; rw [h]; rfl
@[simp] theorem State.jumpTarget_snd_resetDone (t : Target) : (s.jumpTarget t).2.resetDone = s.resetDone := by
  obtain ⟨es, h⟩ := s.jumpTarget_state t; rw [h]; rfl
@[simp] theorem State.jumpTarget_snd_draws (t : Target) : (s.jumpTarget t).2.draws = s.draws := by
  obtain ⟨es, h⟩ := s.jumpTarget_state t; rw [h]; rfl
@[simp] theorem State.jumpTarget_snd_frameSignal (t : Target) : (s.jumpTarget t).2.frameSignal = s.frameSignal := by
  obtain ⟨es, h⟩ := s.jumpTarget_state t; rw [h]; rfl
@[simp] theorem State.jumpTarget_snd_config (t : Target) : (s.jumpTarget t).2.config = s.config := by
  obtain ⟨es, h⟩ := s.jumpTarget_state t; rw [h]; rfl

/-! ## What the shared effects leave alone -/

@[simp] theorem State.setNZ_a (v : Byte) : (s.setNZ v).a = s.a := rfl
@[simp] theorem State.setNZ_x (v : Byte) : (s.setNZ v).x = s.x := rfl
@[simp] theorem State.setNZ_y (v : Byte) : (s.setNZ v).y = s.y := rfl
@[simp] theorem State.setNZ_sp (v : Byte) : (s.setNZ v).sp = s.sp := rfl
@[simp] theorem State.setNZ_pc (v : Byte) : (s.setNZ v).pc = s.pc := rfl
@[simp] theorem State.setNZ_cycles (v : Byte) : (s.setNZ v).cycles = s.cycles := rfl
@[simp] theorem State.setNZ_cyclesPerFrame (v : Byte) : (s.setNZ v).cyclesPerFrame = s.cyclesPerFrame := rfl
@[simp] theorem State.setNZ_bus (v : Byte) : (s.setNZ v).bus = s.bus := rfl
@[simp] theorem State.setNZ_undefCount (v : Byte) : (s.setNZ v).undefCount = s.undefCount := rfl
@[simp] theorem State.setNZ_mem (v : Byte) : (s.setNZ v).mem = s.mem := rfl
@[simp] theorem State.setNZ_busLog (v : Byte) : (s.setNZ v).busLog = s.busLog := rfl
@[simp] theorem State.setNZ_resetDone (v : Byte) : (s.setNZ v).resetDone = s.resetDone := rfl
@[simp] theorem State.setNZ_draws (v : Byte) : (s.setNZ v).draws = s.draws := rfl
@[simp] theorem State.setNZ_frameSignal (v : Byte) : (s.setNZ v).frameSignal = s.frameSignal := rfl
@[simp] theorem State.setNZ_config (v : Byte) : (s.setNZ v).config = s.config := rfl

@[simp] theorem State.setNZ_flags (v : Byte) : (s.setNZ v).flags = s.flags.setNZ v := rfl

@[simp] theorem State.store_a (m : Mem) (v : Byte) : (s.store m v).a = s.a := by simp [State.store_eq]
@[simp] theorem State.store_x (m : Mem) (v : Byte) : (s.store m v).x = s.x := by simp [State.store_eq]
@[simp] theorem State.store_y (m : Mem) (v : Byte) : (s.store m v).y = s.y := by simp [State.store_eq]
@[simp] theorem State.store_sp (m : Mem) (v : Byte) : (s.store m v).sp = s.sp := by simp [State.store_eq]
@[simp] theorem State.store_pc (m : Mem) (v : Byte) : (s.store m v).pc = s.pc := by simp [State.store_eq]
@[simp] theorem State.store_flags (m : Mem) (v : Byte) : (s.store m v).flags = s.flags := by simp [State.store_eq]
@[simp] theorem State.store_cycles (m : Mem) (v : Byte) : (s.store m v).cycles = s.cycles := by simp [State.store_eq]
@[simp] theorem State.store_cyclesPerFrame (m : Mem) (v : Byte) : (s.store m v).cyclesPerFrame = s.cyclesPerFrame := by simp [State.store_eq]
@[simp] theorem State.store_bus (m : Mem) (v : Byte) : (s.store m v).bus = s.bus := by simp [State.store_eq]
@[simp] theorem State.store_undefCount (m : Mem) (v : Byte) : (s.store m v).undefCount = s.undefCount := by simp [State.store_eq]
@[simp] theorem State.store_resetDone (m : Mem) (v : Byte) : (s.store m v).resetDone = s.resetDone := by simp [State.store_eq]
@[simp] theorem State.store_draws (m : Mem) (v : Byte) : (s.store m v).draws = s.draws := by simp [State.store_eq]
@[simp] theorem State.store_frameSignal (m : Mem) (v : Byte) : (s.store m v).frameSignal = s.frameSignal := by simp [State.store_eq]
@[simp] theorem State.store_config (m : Mem) (v : Byte) : (s.store m v).config = s.config := by simp [State.store_eq]

@[simp] theorem State.writeSum_x (sum : Sum) : (s.writeSum sum).x = s.x := rfl
@[simp] theorem State.writeSum_y (sum : Sum) : (s.writeSum sum).y = s.y := rfl
@[simp] theorem State.writeSum_sp (sum : Sum) : (s.writeSum sum).sp = s.sp := rfl
@[simp] theorem State.writeSum_pc (sum : Sum) : (s.writeSum sum).pc = s.pc := rfl
@[simp] theorem State.writeSum_cycles (sum : Sum) : (s.writeSum sum).cycles = s.cycles := rfl
@[simp] theorem State.writeSum_cyclesPerFrame (sum : Sum) : (s.writeSum sum).cyclesPerFrame = s.cyclesPerFrame := rfl
@[simp] theorem State.writeSum_bus (sum : Sum) : (s.writeSum sum).bus = s.bus := rfl
@[simp] theorem State.writeSum_undefCount (sum : Sum) : (s.writeSum sum).undefCount = s.undefCount := rfl
@[simp] theorem State.writeSum_mem (sum : Sum) : (s.writeSum sum).mem = s.mem := rfl
@[simp] theorem State.writeSum_busLog (sum : Sum) : (s.writeSum sum).busLog = s.busLog := rfl
@[simp] theorem State.writeSum_resetDone (sum : Sum) : (s.writeSum sum).resetDone = s.resetDone := rfl
@[simp] theorem State.writeSum_draws (sum : Sum) : (s.writeSum sum).draws = s.draws := rfl
@[simp] theorem State.writeSum_frameSignal (sum : Sum) : (s.writeSum sum).frameSignal = s.frameSignal := rfl
@[simp] theorem State.writeSum_config (sum : Sum) : (s.writeSum sum).config = s.config := rfl

@[simp] theorem State.writeLogic_x (r : Byte) : (s.writeLogic r).x = s.x := rfl
@[simp] theorem State.writeLogic_y (r : Byte) : (s.writeLogic r).y = s.y := rfl
@[simp] theorem State.writeLogic_sp (r : Byte) : (s.writeLogic r).sp = s.sp := rfl
@[simp] theorem State.writeLogic_pc (r : Byte) : (s.writeLogic r).pc = s.pc := rfl
@[simp] theorem State.writeLogic_cycles (r : Byte) : (s.writeLogic r).cycles = s.cycles := rfl
@[simp] theorem State.writeLogic_cyclesPerFrame (r : Byte) : (s.writeLogic r).cyclesPerFrame = s.cyclesPerFrame := rfl
@[simp] theorem State.writeLogic_bus (r : Byte) : (s.writeLogic r).bus = s.bus := rfl
@[simp] theorem State.writeLogic_undefCount (r : Byte) : (s.writeLogic r).undefCount = s.undefCount := rfl
@[simp] theorem State.writeLogic_mem (r : Byte) : (s.writeLogic r).mem = s.mem := rfl
@[simp] theorem State.writeLogic_busLog (r : Byte) : (s.writeLogic r).busLog = s.busLog := rfl
@[simp] theorem State.writeLogic_resetDone (r : Byte) : (s.writeLogic r).resetDone = s.resetDone := rfl
@[simp] theorem State.writeLogic_draws (r : Byte) : (s.writeLogic r).draws = s.draws := rfl
@[simp] theorem State.writeLogic_frameSignal (r : Byte) : (s.writeLogic r).frameSignal = s.frameSignal := rfl
@[simp] theorem State.writeLogic_config (r : Byte) : (s.writeLogic r).config = s.config := rfl

/-- What a decimal ADC or SBC writes, where the operands are valid BCD (44_arith_logic.md R183, R184). -/
theorem State.writeDecimal_some (r : Byte) (c : Bool) :
    s.writeDecimal (some (r, c)) = ((s.setA r).setDraws (s.draws + 1 + 1 + 1)).setFlags
      { s.flags with c := c, n := freeBit s.draws, z := freeBit (s.draws + 1), v := freeBit (s.draws + 1 + 1) } := rfl

/-- What a decimal ADC or SBC writes, where an operand is not valid BCD (44_arith_logic.md R181, R182). -/
theorem State.writeDecimal_none :
    s.writeDecimal none = ((s.setA (freeByte s.draws)).setDraws (s.draws + 1 + 1 + 1 + 1 + 1)).setFlags
      { s.flags with
        c := freeBit (s.draws + 1), n := freeBit (s.draws + 1 + 1)
        z := freeBit (s.draws + 1 + 1 + 1), v := freeBit (s.draws + 1 + 1 + 1 + 1) } := rfl

@[simp] theorem State.writeDecimal_x (o : Option (Byte × Bool)) : (s.writeDecimal o).x = s.x := by
  rcases o with _ | ⟨r, c⟩ <;> simp [State.writeDecimal_some, State.writeDecimal_none]
@[simp] theorem State.writeDecimal_y (o : Option (Byte × Bool)) : (s.writeDecimal o).y = s.y := by
  rcases o with _ | ⟨r, c⟩ <;> simp [State.writeDecimal_some, State.writeDecimal_none]
@[simp] theorem State.writeDecimal_sp (o : Option (Byte × Bool)) : (s.writeDecimal o).sp = s.sp := by
  rcases o with _ | ⟨r, c⟩ <;> simp [State.writeDecimal_some, State.writeDecimal_none]
@[simp] theorem State.writeDecimal_pc (o : Option (Byte × Bool)) : (s.writeDecimal o).pc = s.pc := by
  rcases o with _ | ⟨r, c⟩ <;> simp [State.writeDecimal_some, State.writeDecimal_none]
@[simp] theorem State.writeDecimal_cycles (o : Option (Byte × Bool)) : (s.writeDecimal o).cycles = s.cycles := by
  rcases o with _ | ⟨r, c⟩ <;> simp [State.writeDecimal_some, State.writeDecimal_none]
@[simp] theorem State.writeDecimal_cyclesPerFrame (o : Option (Byte × Bool)) : (s.writeDecimal o).cyclesPerFrame = s.cyclesPerFrame := by
  rcases o with _ | ⟨r, c⟩ <;> simp [State.writeDecimal_some, State.writeDecimal_none]
@[simp] theorem State.writeDecimal_bus (o : Option (Byte × Bool)) : (s.writeDecimal o).bus = s.bus := by
  rcases o with _ | ⟨r, c⟩ <;> simp [State.writeDecimal_some, State.writeDecimal_none]
@[simp] theorem State.writeDecimal_undefCount (o : Option (Byte × Bool)) : (s.writeDecimal o).undefCount = s.undefCount := by
  rcases o with _ | ⟨r, c⟩ <;> simp [State.writeDecimal_some, State.writeDecimal_none]
@[simp] theorem State.writeDecimal_mem (o : Option (Byte × Bool)) : (s.writeDecimal o).mem = s.mem := by
  rcases o with _ | ⟨r, c⟩ <;> simp [State.writeDecimal_some, State.writeDecimal_none]
@[simp] theorem State.writeDecimal_busLog (o : Option (Byte × Bool)) : (s.writeDecimal o).busLog = s.busLog := by
  rcases o with _ | ⟨r, c⟩ <;> simp [State.writeDecimal_some, State.writeDecimal_none]
@[simp] theorem State.writeDecimal_resetDone (o : Option (Byte × Bool)) : (s.writeDecimal o).resetDone = s.resetDone := by
  rcases o with _ | ⟨r, c⟩ <;> simp [State.writeDecimal_some, State.writeDecimal_none]
@[simp] theorem State.writeDecimal_frameSignal (o : Option (Byte × Bool)) : (s.writeDecimal o).frameSignal = s.frameSignal := by
  rcases o with _ | ⟨r, c⟩ <;> simp [State.writeDecimal_some, State.writeDecimal_none]
@[simp] theorem State.writeDecimal_config (o : Option (Byte × Bool)) : (s.writeDecimal o).config = s.config := by
  rcases o with _ | ⟨r, c⟩ <;> simp [State.writeDecimal_some, State.writeDecimal_none]

@[simp] theorem State.writeDecimal_flag_i (o : Option (Byte × Bool)) : (s.writeDecimal o).flags.i = s.flags.i := by
  rcases o with _ | ⟨r, c⟩ <;> simp [State.writeDecimal_some, State.writeDecimal_none]
@[simp] theorem State.writeDecimal_flag_d (o : Option (Byte × Bool)) : (s.writeDecimal o).flags.d = s.flags.d := by
  rcases o with _ | ⟨r, c⟩ <;> simp [State.writeDecimal_some, State.writeDecimal_none]
@[simp] theorem State.writeDecimal_flag_b (o : Option (Byte × Bool)) : (s.writeDecimal o).flags.b = s.flags.b := by
  rcases o with _ | ⟨r, c⟩ <;> simp [State.writeDecimal_some, State.writeDecimal_none]

/-- A shift or rotate of A. -/
theorem State.modifyNZ_acc (f : Modify) :
    s.modifyNZ .acc f = ((s.setA (f s.a s.flags).1).setFlags ((f s.a s.flags).2.setNZ (f s.a s.flags).1)) := rfl

/-- A read-modify-write of memory: one read, one write, the flags. -/
theorem State.modifyNZ_mem (m : Mem) (f : Modify) :
    s.modifyNZ (.mem m) f =
      let old := (s.ea m).2.memRead (s.ea m).1
      (old.2.memWrite (s.ea m).1 (f old.1 s.flags).1).setFlags ((f old.1 s.flags).2.setNZ (f old.1 s.flags).1) := by
  simp only [State.modifyNZ, State.modify, State.memRead_snd, State.logged_flags, State.ea_snd_flags]
  rfl

@[simp] theorem State.modifyNZ_acc_x (f : Modify) : (s.modifyNZ .acc f).x = s.x := rfl
@[simp] theorem State.modifyNZ_acc_y (f : Modify) : (s.modifyNZ .acc f).y = s.y := rfl
@[simp] theorem State.modifyNZ_acc_sp (f : Modify) : (s.modifyNZ .acc f).sp = s.sp := rfl
@[simp] theorem State.modifyNZ_acc_pc (f : Modify) : (s.modifyNZ .acc f).pc = s.pc := rfl
@[simp] theorem State.modifyNZ_acc_cycles (f : Modify) : (s.modifyNZ .acc f).cycles = s.cycles := rfl
@[simp] theorem State.modifyNZ_acc_cyclesPerFrame (f : Modify) : (s.modifyNZ .acc f).cyclesPerFrame = s.cyclesPerFrame := rfl
@[simp] theorem State.modifyNZ_acc_bus (f : Modify) : (s.modifyNZ .acc f).bus = s.bus := rfl
@[simp] theorem State.modifyNZ_acc_undefCount (f : Modify) : (s.modifyNZ .acc f).undefCount = s.undefCount := rfl
@[simp] theorem State.modifyNZ_acc_mem (f : Modify) : (s.modifyNZ .acc f).mem = s.mem := rfl
@[simp] theorem State.modifyNZ_acc_busLog (f : Modify) : (s.modifyNZ .acc f).busLog = s.busLog := rfl
@[simp] theorem State.modifyNZ_acc_resetDone (f : Modify) : (s.modifyNZ .acc f).resetDone = s.resetDone := rfl
@[simp] theorem State.modifyNZ_acc_draws (f : Modify) : (s.modifyNZ .acc f).draws = s.draws := rfl
@[simp] theorem State.modifyNZ_acc_frameSignal (f : Modify) : (s.modifyNZ .acc f).frameSignal = s.frameSignal := rfl
@[simp] theorem State.modifyNZ_acc_config (f : Modify) : (s.modifyNZ .acc f).config = s.config := rfl

@[simp] theorem State.modifyNZ_mem_a (m : Mem) (f : Modify) : (s.modifyNZ (.mem m) f).a = s.a := by
  simp [State.modifyNZ_mem]
@[simp] theorem State.modifyNZ_mem_x (m : Mem) (f : Modify) : (s.modifyNZ (.mem m) f).x = s.x := by
  simp [State.modifyNZ_mem]
@[simp] theorem State.modifyNZ_mem_y (m : Mem) (f : Modify) : (s.modifyNZ (.mem m) f).y = s.y := by
  simp [State.modifyNZ_mem]
@[simp] theorem State.modifyNZ_mem_sp (m : Mem) (f : Modify) : (s.modifyNZ (.mem m) f).sp = s.sp := by
  simp [State.modifyNZ_mem]
@[simp] theorem State.modifyNZ_mem_pc (m : Mem) (f : Modify) : (s.modifyNZ (.mem m) f).pc = s.pc := by
  simp [State.modifyNZ_mem]
@[simp] theorem State.modifyNZ_mem_cycles (m : Mem) (f : Modify) : (s.modifyNZ (.mem m) f).cycles = s.cycles := by
  simp [State.modifyNZ_mem]
@[simp] theorem State.modifyNZ_mem_cyclesPerFrame (m : Mem) (f : Modify) : (s.modifyNZ (.mem m) f).cyclesPerFrame = s.cyclesPerFrame := by
  simp [State.modifyNZ_mem]
@[simp] theorem State.modifyNZ_mem_bus (m : Mem) (f : Modify) : (s.modifyNZ (.mem m) f).bus = s.bus := by
  simp [State.modifyNZ_mem]
@[simp] theorem State.modifyNZ_mem_undefCount (m : Mem) (f : Modify) : (s.modifyNZ (.mem m) f).undefCount = s.undefCount := by
  simp [State.modifyNZ_mem]
@[simp] theorem State.modifyNZ_mem_resetDone (m : Mem) (f : Modify) : (s.modifyNZ (.mem m) f).resetDone = s.resetDone := by
  simp [State.modifyNZ_mem]
@[simp] theorem State.modifyNZ_mem_draws (m : Mem) (f : Modify) : (s.modifyNZ (.mem m) f).draws = s.draws := by
  simp [State.modifyNZ_mem]
@[simp] theorem State.modifyNZ_mem_frameSignal (m : Mem) (f : Modify) : (s.modifyNZ (.mem m) f).frameSignal = s.frameSignal := by
  simp [State.modifyNZ_mem]
@[simp] theorem State.modifyNZ_mem_config (m : Mem) (f : Modify) : (s.modifyNZ (.mem m) f).config = s.config := by
  simp [State.modifyNZ_mem]

@[simp] theorem State.branch_a (cond : Bool) (rel : Byte) : (s.branch cond rel).a = s.a := by
  cases cond <;> rfl
@[simp] theorem State.branch_x (cond : Bool) (rel : Byte) : (s.branch cond rel).x = s.x := by
  cases cond <;> rfl
@[simp] theorem State.branch_y (cond : Bool) (rel : Byte) : (s.branch cond rel).y = s.y := by
  cases cond <;> rfl
@[simp] theorem State.branch_sp (cond : Bool) (rel : Byte) : (s.branch cond rel).sp = s.sp := by
  cases cond <;> rfl
@[simp] theorem State.branch_flags (cond : Bool) (rel : Byte) : (s.branch cond rel).flags = s.flags := by
  cases cond <;> rfl
@[simp] theorem State.branch_cycles (cond : Bool) (rel : Byte) : (s.branch cond rel).cycles = s.cycles := by
  cases cond <;> rfl
@[simp] theorem State.branch_cyclesPerFrame (cond : Bool) (rel : Byte) : (s.branch cond rel).cyclesPerFrame = s.cyclesPerFrame := by
  cases cond <;> rfl
@[simp] theorem State.branch_bus (cond : Bool) (rel : Byte) : (s.branch cond rel).bus = s.bus := by
  cases cond <;> rfl
@[simp] theorem State.branch_undefCount (cond : Bool) (rel : Byte) : (s.branch cond rel).undefCount = s.undefCount := by
  cases cond <;> rfl
@[simp] theorem State.branch_mem (cond : Bool) (rel : Byte) : (s.branch cond rel).mem = s.mem := by
  cases cond <;> rfl
@[simp] theorem State.branch_busLog (cond : Bool) (rel : Byte) : (s.branch cond rel).busLog = s.busLog := by
  cases cond <;> rfl
@[simp] theorem State.branch_resetDone (cond : Bool) (rel : Byte) : (s.branch cond rel).resetDone = s.resetDone := by
  cases cond <;> rfl
@[simp] theorem State.branch_draws (cond : Bool) (rel : Byte) : (s.branch cond rel).draws = s.draws := by
  cases cond <;> rfl
@[simp] theorem State.branch_frameSignal (cond : Bool) (rel : Byte) : (s.branch cond rel).frameSignal = s.frameSignal := by
  cases cond <;> rfl
@[simp] theorem State.branch_config (cond : Bool) (rel : Byte) : (s.branch cond rel).config = s.config := by
  cases cond <;> rfl

@[simp] theorem State.returnFromInterrupt_a : (s.returnFromInterrupt).a = s.a := by
  simp [State.returnFromInterrupt]
@[simp] theorem State.returnFromInterrupt_x : (s.returnFromInterrupt).x = s.x := by
  simp [State.returnFromInterrupt]
@[simp] theorem State.returnFromInterrupt_y : (s.returnFromInterrupt).y = s.y := by
  simp [State.returnFromInterrupt]
@[simp] theorem State.returnFromInterrupt_cycles : (s.returnFromInterrupt).cycles = s.cycles := by
  simp [State.returnFromInterrupt]
@[simp] theorem State.returnFromInterrupt_cyclesPerFrame : (s.returnFromInterrupt).cyclesPerFrame = s.cyclesPerFrame := by
  simp [State.returnFromInterrupt]
@[simp] theorem State.returnFromInterrupt_bus : (s.returnFromInterrupt).bus = s.bus := by
  simp [State.returnFromInterrupt]
@[simp] theorem State.returnFromInterrupt_undefCount : (s.returnFromInterrupt).undefCount = s.undefCount := by
  simp [State.returnFromInterrupt]
@[simp] theorem State.returnFromInterrupt_mem : (s.returnFromInterrupt).mem = s.mem := by
  simp [State.returnFromInterrupt]
@[simp] theorem State.returnFromInterrupt_resetDone : (s.returnFromInterrupt).resetDone = s.resetDone := by
  simp [State.returnFromInterrupt]
@[simp] theorem State.returnFromInterrupt_draws : (s.returnFromInterrupt).draws = s.draws := by
  simp [State.returnFromInterrupt]
@[simp] theorem State.returnFromInterrupt_frameSignal : (s.returnFromInterrupt).frameSignal = s.frameSignal := by
  simp [State.returnFromInterrupt]
@[simp] theorem State.returnFromInterrupt_config : (s.returnFromInterrupt).config = s.config := by
  simp [State.returnFromInterrupt]

/-! ## Each instruction as one next state -/

@[simp] theorem exec_lda (src : Src) : exec (.lda src) s = .next (((s.load src).2.setA (s.load src).1).setNZ (s.load src).1) := rfl
@[simp] theorem exec_ldx (src : Src) : exec (.ldx src) s = .next (((s.load src).2.setX (s.load src).1).setNZ (s.load src).1) := rfl
@[simp] theorem exec_ldy (src : Src) : exec (.ldy src) s = .next (((s.load src).2.setY (s.load src).1).setNZ (s.load src).1) := rfl
@[simp] theorem exec_sta (m : Mem) : exec (.sta m) s = .next (s.store m s.a) := rfl
@[simp] theorem exec_stx (m : Mem) : exec (.stx m) s = .next (s.store m s.x) := rfl
@[simp] theorem exec_sty (m : Mem) : exec (.sty m) s = .next (s.store m s.y) := rfl
@[simp] theorem exec_tax : exec (.tax) s = .next ((s.setX s.a).setNZ s.a) := rfl
@[simp] theorem exec_tay : exec (.tay) s = .next ((s.setY s.a).setNZ s.a) := rfl
@[simp] theorem exec_txa : exec (.txa) s = .next ((s.setA s.x).setNZ s.x) := rfl
@[simp] theorem exec_tya : exec (.tya) s = .next ((s.setA s.y).setNZ s.y) := rfl
@[simp] theorem exec_tsx : exec (.tsx) s = .next ((s.setX s.sp).setNZ s.sp) := rfl
@[simp] theorem exec_txs : exec (.txs) s = .next (s.setSp s.x) := rfl
@[simp] theorem exec_pha : exec (.pha) s = .next (s.push8 s.a) := rfl
@[simp] theorem exec_php : exec (.php) s = .next (s.push8 s.pack) := rfl
@[simp] theorem exec_pla : exec (.pla) s = .next ((s.pull8.2.setA s.pull8.1).setNZ s.pull8.1) := rfl
@[simp] theorem exec_plp : exec (.plp) s = .next (s.pull8.2.setFlags (Flags.unpack s.pull8.1)) := rfl
@[simp] theorem exec_and (src : Src) : exec (.and src) s = .next ((s.load src).2.writeLogic (s.a &&& (s.load src).1)) := by
  simp only [exec, execAnd, State.load_snd_a]
@[simp] theorem exec_ora (src : Src) : exec (.ora src) s = .next ((s.load src).2.writeLogic (s.a ||| (s.load src).1)) := by
  simp only [exec, execOra, State.load_snd_a]
@[simp] theorem exec_eor (src : Src) : exec (.eor src) s = .next ((s.load src).2.writeLogic (s.a ^^^ (s.load src).1)) := by
  simp only [exec, execEor, State.load_snd_a]
@[simp] theorem exec_cmp (src : Src) : exec (.cmp src) s = .next ((s.load src).2.setFlags (s.flags.compare s.a (s.load src).1)) := by
  simp only [exec, execCmp, State.load_snd_a, State.load_snd_flags]
@[simp] theorem exec_cpx (src : Src) : exec (.cpx src) s = .next ((s.load src).2.setFlags (s.flags.compare s.x (s.load src).1)) := by
  simp only [exec, execCpx, State.load_snd_x, State.load_snd_flags]
@[simp] theorem exec_cpy (src : Src) : exec (.cpy src) s = .next ((s.load src).2.setFlags (s.flags.compare s.y (s.load src).1)) := by
  simp only [exec, execCpy, State.load_snd_y, State.load_snd_flags]
@[simp] theorem exec_bit (m : Mem) : exec (.bit m) s =
    .next ((s.load (.mem m)).2.setFlags (s.flags.bitTest s.a (s.load (.mem m)).1)) := by
  simp only [exec, execBit, State.load_snd_a, State.load_snd_flags]
@[simp] theorem exec_inc (m : Mem) : exec (.inc m) s = .next (s.modifyNZ (.mem m) incByte) := rfl
@[simp] theorem exec_dec (m : Mem) : exec (.dec m) s = .next (s.modifyNZ (.mem m) decByte) := rfl
@[simp] theorem exec_inx : exec (.inx) s = .next ((s.setX (s.x + 1#8)).setNZ (s.x + 1#8)) := rfl
@[simp] theorem exec_iny : exec (.iny) s = .next ((s.setY (s.y + 1#8)).setNZ (s.y + 1#8)) := rfl
@[simp] theorem exec_dex : exec (.dex) s = .next ((s.setX (s.x - 1#8)).setNZ (s.x - 1#8)) := rfl
@[simp] theorem exec_dey : exec (.dey) s = .next ((s.setY (s.y - 1#8)).setNZ (s.y - 1#8)) := rfl
@[simp] theorem exec_asl (d : Dst) : exec (.asl d) s = .next (s.modifyNZ d aslByte) := rfl
@[simp] theorem exec_lsr (d : Dst) : exec (.lsr d) s = .next (s.modifyNZ d lsrByte) := rfl
@[simp] theorem exec_rol (d : Dst) : exec (.rol d) s = .next (s.modifyNZ d rolByte) := rfl
@[simp] theorem exec_ror (d : Dst) : exec (.ror d) s = .next (s.modifyNZ d rorByte) := rfl
@[simp] theorem exec_jmp (t : Target) : exec (.jmp t) s = .next ((s.jumpTarget t).2.setPc (s.jumpTarget t).1) := rfl
@[simp] theorem exec_jsr (w : Word) : exec (.jsr w) s =
    .next (((s.push8 (highByte (s.pc - 1#16))).push8 (lowByte (s.pc - 1#16))).setPc w) := rfl
@[simp] theorem exec_rts : exec (.rts) s = .next (s.pull8.2.pull8.2.setPc (wordOf s.pull8.1 s.pull8.2.pull8.1 + 1#16)) := rfl
@[simp] theorem exec_rti : exec (.rti) s = .next (s.returnFromInterrupt) := rfl
@[simp] theorem exec_brk : exec (.brk) s =
    .next (((s.setPc (s.pc + 1#16)).setFlags { s.flags with b := true }).interruptEntry irqVector) := rfl
@[simp] theorem exec_bcc (rel : Byte) : exec (.bcc rel) s = .next (s.branch (!s.flags.c) rel) := rfl
@[simp] theorem exec_bcs (rel : Byte) : exec (.bcs rel) s = .next (s.branch (s.flags.c) rel) := rfl
@[simp] theorem exec_beq (rel : Byte) : exec (.beq rel) s = .next (s.branch (s.flags.z) rel) := rfl
@[simp] theorem exec_bne (rel : Byte) : exec (.bne rel) s = .next (s.branch (!s.flags.z) rel) := rfl
@[simp] theorem exec_bmi (rel : Byte) : exec (.bmi rel) s = .next (s.branch (s.flags.n) rel) := rfl
@[simp] theorem exec_bpl (rel : Byte) : exec (.bpl rel) s = .next (s.branch (!s.flags.n) rel) := rfl
@[simp] theorem exec_bvc (rel : Byte) : exec (.bvc rel) s = .next (s.branch (!s.flags.v) rel) := rfl
@[simp] theorem exec_bvs (rel : Byte) : exec (.bvs rel) s = .next (s.branch (s.flags.v) rel) := rfl
@[simp] theorem exec_clc : exec (.clc) s = .next (s.setFlags { s.flags with c := false }) := rfl
@[simp] theorem exec_sec : exec (.sec) s = .next (s.setFlags { s.flags with c := true }) := rfl
@[simp] theorem exec_cli : exec (.cli) s = .next (s.setFlags { s.flags with i := false }) := rfl
@[simp] theorem exec_sei : exec (.sei) s = .next (s.setFlags { s.flags with i := true }) := rfl
@[simp] theorem exec_cld : exec (.cld) s = .next (s.setFlags { s.flags with d := false }) := rfl
@[simp] theorem exec_sed : exec (.sed) s = .next (s.setFlags { s.flags with d := true }) := rfl
@[simp] theorem exec_clv : exec (.clv) s = .next (s.setFlags { s.flags with v := false }) := rfl
@[simp] theorem exec_nop : exec (.nop) s = .next (s) := rfl
@[simp] theorem exec_undefined (op : Byte) :
    exec (.undefined op) s = .next { s with undefCount := s.undefCount + 1 } := rfl

/-- ADC, binary or decimal (44_arith_logic.md R183). -/
theorem exec_adc (src : Src) :
    exec (.adc src) s = .next (if s.decimal then (s.load src).2.writeDecimal (dadd s.a (s.load src).1 s.flags.c)
      else (s.load src).2.writeSum (add8 s.a (s.load src).1 s.flags.c)) := by
  have h : (s.load src).2.decimal = s.decimal := by simp [State.decimal]
  simp only [exec, execAdc, h, State.load_snd_a, State.load_snd_flags]
  split <;> rfl

/-- SBC, binary or decimal (44_arith_logic.md R184). -/
theorem exec_sbc (src : Src) :
    exec (.sbc src) s = .next (if s.decimal then (s.load src).2.writeDecimal (dsub s.a (s.load src).1 s.flags.c)
      else (s.load src).2.writeSum (add8 s.a ((s.load src).1 ^^^ 0xFF#8) s.flags.c)) := by
  have h : (s.load src).2.decimal = s.decimal := by simp [State.decimal]
  simp only [exec, execSbc, h, State.load_snd_a, State.load_snd_flags]
  split <;> rfl

/-- Every instruction runs in every state: exec never stops. -/
theorem exec_completes (i : Instr) : ∃ t, exec i s = .next t := by
  cases i with
  | adc src => exact ⟨_, exec_adc s src⟩
  | sbc src => exact ⟨_, exec_sbc s src⟩
  | _ => exact ⟨_, rfl⟩

end Sys2Proof.Machine
end

