-- ==== Sys2Proof/Laws/PerInstr.lean ====
section
/-!
SUPPORT. Statements about every instruction, one lemma per constructor.

EncodingLength: the bytes the encoder gives an instruction are as many as the length the dispatch table gives its opcode
(30_encoding.md R80: the length is a function of the opcode byte alone).
-/

namespace Sys2Proof.Laws.EncodingLength

/-- The encoding of `i`, if it has one, is as long as the dispatch table says its opcode's instructions are. -/
def Statement (i : Instr) : Prop :=
  ∀ (op : Byte) (rest : List Byte), encode i = some (op :: rest) → (op :: rest).length = (entryOf op).length

/-- The statement from the opcode and the operand bytes alone. -/
theorem of_opcode {i : Instr} (h : ∀ op, opcodeOf i = some op → (operandBytes i).length + 1 = (entryOf op).length) :
    Statement i := by
  intro op rest he
  cases ho : opcodeOf i with
  | none => simp [encode, ho] at he
  | some op' =>
    simp only [encode, ho, Option.map_some, Option.some.injEq, List.cons.injEq] at he
    obtain ⟨rfl, rfl⟩ := he
    simpa using h op' ho

theorem lda (src : Src) : Statement (.lda src) :=
  of_opcode (by rcases src with _ | m <;> [skip; cases m] <;> rintro op ⟨⟩ <;> rfl)

theorem ldx (src : Src) : Statement (.ldx src) :=
  of_opcode (by rcases src with _ | m <;> [skip; cases m] <;> rintro op ⟨⟩ <;> rfl)

theorem ldy (src : Src) : Statement (.ldy src) :=
  of_opcode (by rcases src with _ | m <;> [skip; cases m] <;> rintro op ⟨⟩ <;> rfl)

theorem sta (dst : Mem) : Statement (.sta dst) :=
  of_opcode (by cases dst <;> rintro op ⟨⟩ <;> rfl)

theorem stx (dst : Mem) : Statement (.stx dst) :=
  of_opcode (by cases dst <;> rintro op ⟨⟩ <;> rfl)

theorem sty (dst : Mem) : Statement (.sty dst) :=
  of_opcode (by cases dst <;> rintro op ⟨⟩ <;> rfl)

theorem tax : Statement .tax := of_opcode (by rintro op ⟨⟩; rfl)

theorem tay : Statement .tay := of_opcode (by rintro op ⟨⟩; rfl)

theorem txa : Statement .txa := of_opcode (by rintro op ⟨⟩; rfl)

theorem tya : Statement .tya := of_opcode (by rintro op ⟨⟩; rfl)

theorem tsx : Statement .tsx := of_opcode (by rintro op ⟨⟩; rfl)

theorem txs : Statement .txs := of_opcode (by rintro op ⟨⟩; rfl)

theorem pha : Statement .pha := of_opcode (by rintro op ⟨⟩; rfl)

theorem php : Statement .php := of_opcode (by rintro op ⟨⟩; rfl)

theorem pla : Statement .pla := of_opcode (by rintro op ⟨⟩; rfl)

theorem plp : Statement .plp := of_opcode (by rintro op ⟨⟩; rfl)

theorem adc (src : Src) : Statement (.adc src) :=
  of_opcode (by rcases src with _ | m <;> [skip; cases m] <;> rintro op ⟨⟩ <;> rfl)

theorem sbc (src : Src) : Statement (.sbc src) :=
  of_opcode (by rcases src with _ | m <;> [skip; cases m] <;> rintro op ⟨⟩ <;> rfl)

theorem and (src : Src) : Statement (.and src) :=
  of_opcode (by rcases src with _ | m <;> [skip; cases m] <;> rintro op ⟨⟩ <;> rfl)

theorem ora (src : Src) : Statement (.ora src) :=
  of_opcode (by rcases src with _ | m <;> [skip; cases m] <;> rintro op ⟨⟩ <;> rfl)

theorem eor (src : Src) : Statement (.eor src) :=
  of_opcode (by rcases src with _ | m <;> [skip; cases m] <;> rintro op ⟨⟩ <;> rfl)

theorem cmp (src : Src) : Statement (.cmp src) :=
  of_opcode (by rcases src with _ | m <;> [skip; cases m] <;> rintro op ⟨⟩ <;> rfl)

theorem cpx (src : Src) : Statement (.cpx src) :=
  of_opcode (by rcases src with _ | m <;> [skip; cases m] <;> rintro op ⟨⟩ <;> rfl)

theorem cpy (src : Src) : Statement (.cpy src) :=
  of_opcode (by rcases src with _ | m <;> [skip; cases m] <;> rintro op ⟨⟩ <;> rfl)

theorem bit (src : Mem) : Statement (.bit src) :=
  of_opcode (by cases src <;> rintro op ⟨⟩ <;> rfl)

theorem inc (dst : Mem) : Statement (.inc dst) :=
  of_opcode (by cases dst <;> rintro op ⟨⟩ <;> rfl)

theorem dec (dst : Mem) : Statement (.dec dst) :=
  of_opcode (by cases dst <;> rintro op ⟨⟩ <;> rfl)

theorem inx : Statement .inx := of_opcode (by rintro op ⟨⟩; rfl)

theorem iny : Statement .iny := of_opcode (by rintro op ⟨⟩; rfl)

theorem dex : Statement .dex := of_opcode (by rintro op ⟨⟩; rfl)

theorem dey : Statement .dey := of_opcode (by rintro op ⟨⟩; rfl)

theorem asl (dst : Dst) : Statement (.asl dst) :=
  of_opcode (by rcases dst with _ | m <;> [skip; cases m] <;> rintro op ⟨⟩ <;> rfl)

theorem lsr (dst : Dst) : Statement (.lsr dst) :=
  of_opcode (by rcases dst with _ | m <;> [skip; cases m] <;> rintro op ⟨⟩ <;> rfl)

theorem rol (dst : Dst) : Statement (.rol dst) :=
  of_opcode (by rcases dst with _ | m <;> [skip; cases m] <;> rintro op ⟨⟩ <;> rfl)

theorem ror (dst : Dst) : Statement (.ror dst) :=
  of_opcode (by rcases dst with _ | m <;> [skip; cases m] <;> rintro op ⟨⟩ <;> rfl)

theorem jmp (target : Target) : Statement (.jmp target) :=
  of_opcode (by cases target <;> rintro op ⟨⟩ <;> rfl)

theorem jsr (target : Word) : Statement (.jsr target) := of_opcode (by rintro op ⟨⟩; rfl)

theorem rts : Statement .rts := of_opcode (by rintro op ⟨⟩; rfl)

theorem rti : Statement .rti := of_opcode (by rintro op ⟨⟩; rfl)

theorem brk : Statement .brk := of_opcode (by rintro op ⟨⟩; rfl)

theorem bcc (rel : Byte) : Statement (.bcc rel) := of_opcode (by rintro op ⟨⟩; rfl)

theorem bcs (rel : Byte) : Statement (.bcs rel) := of_opcode (by rintro op ⟨⟩; rfl)

theorem beq (rel : Byte) : Statement (.beq rel) := of_opcode (by rintro op ⟨⟩; rfl)

theorem bne (rel : Byte) : Statement (.bne rel) := of_opcode (by rintro op ⟨⟩; rfl)

theorem bmi (rel : Byte) : Statement (.bmi rel) := of_opcode (by rintro op ⟨⟩; rfl)

theorem bpl (rel : Byte) : Statement (.bpl rel) := of_opcode (by rintro op ⟨⟩; rfl)

theorem bvc (rel : Byte) : Statement (.bvc rel) := of_opcode (by rintro op ⟨⟩; rfl)

theorem bvs (rel : Byte) : Statement (.bvs rel) := of_opcode (by rintro op ⟨⟩; rfl)

theorem clc : Statement .clc := of_opcode (by rintro op ⟨⟩; rfl)

theorem sec : Statement .sec := of_opcode (by rintro op ⟨⟩; rfl)

theorem cli : Statement .cli := of_opcode (by rintro op ⟨⟩; rfl)

theorem sei : Statement .sei := of_opcode (by rintro op ⟨⟩; rfl)

theorem cld : Statement .cld := of_opcode (by rintro op ⟨⟩; rfl)

theorem sed : Statement .sed := of_opcode (by rintro op ⟨⟩; rfl)

theorem clv : Statement .clv := of_opcode (by rintro op ⟨⟩; rfl)

theorem nop : Statement .nop := of_opcode (by rintro op ⟨⟩; rfl)

theorem undefined (opcode : Byte) : Statement (.undefined opcode) :=
  of_opcode (by
    intro op h
    simp only [opcodeOf] at h
    split at h <;> cases h
    revert opcode
    decide)

end Sys2Proof.Laws.EncodingLength
end

