-- ==== Sys2Proof/Laws/Run.lean ====
section
/-!
SUPPORT. Runs of host calls, call by call, and that `runUntil` computes the end of a program's run (40_execution_cycle.md
R109).
-/

namespace Sys2Proof.Machine

variable {e : Word} {s t u : State} {c : HostCall} {cs calls : List HostCall} {ret : HostReturn} {rets returns : List HostReturn}

@[simp] theorem runCalls_nil (s : State) : runCalls [] s = .next (s, []) := rfl

/-- A run answers exactly when its first call and the run of the others do. -/
theorem runCalls_cons_eq_next :
    runCalls (c :: cs) s = .next (u, returns) ↔
      ∃ t ret rets, call c s = .next (t, ret) ∧ runCalls cs t = .next (u, rets) ∧ returns = ret :: rets := by
  cases hc : call c s with
  | fault r => cases r
  | refused r => simp [runCalls, hc]
  | next a =>
    cases hr : runCalls cs a.1 with
    | fault r => cases r
    | refused r =>
      simp only [runCalls, hc, hr, Host.Outcome.next.injEq, reduceCtorEq, false_iff]
      rintro ⟨t, ret, rets, rfl, h, -⟩
      rw [hr] at h
      cases h
    | next b =>
      simp only [runCalls, hc, hr, Host.Outcome.next.injEq, Prod.mk.injEq]
      constructor
      · rintro ⟨rfl, rfl⟩
        exact ⟨a.1, a.2, b.2, rfl, hr, rfl⟩
      · rintro ⟨t, ret, rets, rfl, h, rfl⟩
        rw [hr, Host.Outcome.next.injEq] at h
        exact ⟨congrArg Prod.fst h, by rw [h]⟩

/-- `runUntil` call by call: either the first call ends the run, or it answers and the run goes on. -/
theorem runUntil_cons_eq_some :
    runUntil e (c :: cs) s = some (u, returns) ↔
      ∃ t ret, call c s = .next (t, ret) ∧
        if endsRun e c t then u = t ∧ returns = [ret]
        else ∃ rets, runUntil e cs t = some (u, rets) ∧ returns = ret :: rets := by
  cases hc : call c s with
  | fault r => cases r
  | refused r => simp [runUntil, hc]
  | next a =>
    by_cases he : endsRun e c a.1 <;> simp only [runUntil, hc, he, if_true, Bool.false_eq_true, if_false]
    · constructor
      · intro h
        cases h
        exact ⟨a.1, a.2, rfl, by simp [he]⟩
      · rintro ⟨t, ret, h, hx⟩
        cases h
        simp only [he, if_true] at hx
        rw [hx.1, hx.2]
    · simp only [Option.map_eq_some_iff]
      constructor
      · rintro ⟨b, hb, h⟩
        cases h
        exact ⟨a.1, a.2, rfl, by simpa [he] using hb⟩
      · rintro ⟨t, ret, h, hx⟩
        cases h
        simp only [he, Bool.false_eq_true, if_false] at hx
        obtain ⟨rets, hb, rfl⟩ := hx
        exact ⟨(u, rets), hb, rfl⟩

/-- The end of a program's run is a return from ExecuteOne with PC = `e`. -/
theorem endsRun_iff : endsRun e c t = true ↔ c = .executeOne ∧ t.pc = e := by simp [endsRun]

/-- A whole run that its first call ends is that call alone. -/
theorem EndsAt.eq_of_endsRun (h : EndsAt e (c :: cs) s u returns) (hc : call c s = .next (t, ret))
    (he : endsRun e c t = true) : cs = [] ∧ u = t ∧ returns = [ret] := by
  obtain ⟨hr, -, -, hfirst⟩ := h
  obtain ⟨rfl, hpc⟩ := endsRun_iff.mp he
  obtain rfl : cs = [] := by
    by_contra hne
    exact hfirst [] cs t [ret] rfl hne (runCalls_cons_eq_next.mpr ⟨t, ret, [], hc, rfl, rfl⟩) hpc
  obtain ⟨v, r, rs, hv, hn, rfl⟩ := runCalls_cons_eq_next.mp hr
  rw [hc] at hv
  cases hv
  cases hn
  exact ⟨rfl, rfl, rfl⟩

/-- A call that ends the run is a whole run. -/
theorem EndsAt.of_endsRun (hc : call c s = .next (t, ret)) (he : endsRun e c t = true) : EndsAt e [c] s t [ret] := by
  obtain ⟨rfl, hpc⟩ := endsRun_iff.mp he
  refine ⟨runCalls_cons_eq_next.mpr ⟨t, ret, [], hc, rfl, rfl⟩, rfl, hpc, ?_⟩
  intro earlier later v vs h hne
  cases earlier with
  | nil => simp_all
  | cons d ds => simp at h

/-- After a call that does not end the run, a whole run goes on with a whole run. -/
theorem EndsAt.cons_iff (hc : call c s = .next (t, ret)) (he : ¬ endsRun e c t = true) :
    EndsAt e (c :: cs) s u returns ↔ ∃ rets, EndsAt e cs t u rets ∧ returns = ret :: rets := by
  constructor
  · rintro ⟨hr, hl, hpc, hfirst⟩
    obtain ⟨v, r, rs, hv, hn, rfl⟩ := runCalls_cons_eq_next.mp hr
    rw [hc] at hv
    cases hv
    have hne : cs ≠ [] := by
      rintro rfl
      cases hn
      exact he (endsRun_iff.mpr ⟨by simpa using hl, hpc⟩)
    obtain ⟨d, ds, rfl⟩ := List.exists_cons_of_ne_nil hne
    refine ⟨rs, ⟨hn, by simpa [List.getLast?_cons_cons] using hl, hpc, ?_⟩, rfl⟩
    intro earlier later v vs h hlater hv
    exact hfirst (c :: earlier) later v (ret :: vs) (by rw [h]; rfl) hlater
      (runCalls_cons_eq_next.mpr ⟨t, ret, vs, hc, hv, rfl⟩)
  · rintro ⟨rs, ⟨hn, hl, hpc, hfirst⟩, rfl⟩
    refine ⟨runCalls_cons_eq_next.mpr ⟨t, ret, rs, hc, hn, rfl⟩, ?_, hpc, ?_⟩
    · cases cs with
      | nil => cases hl
      | cons d ds => simpa [List.getLast?_cons_cons] using hl
    · intro earlier later v vs h hlater hv
      cases earlier with
      | nil =>
        obtain ⟨w, r, rs', hw, hn', -⟩ := runCalls_cons_eq_next.mp hv
        cases hn'
        obtain ⟨rfl, -⟩ : c = .executeOne ∧ cs = later := by simpa using h
        rw [hc] at hw
        cases hw
        exact fun hv => he (endsRun_iff.mpr ⟨rfl, hv⟩)
      | cons d ds =>
        obtain ⟨rfl, hcs⟩ : c = d ∧ cs = ds ++ .executeOne :: later := by simpa using h
        obtain ⟨w, r, rs', hw, hn', -⟩ := runCalls_cons_eq_next.mp hv
        rw [hc] at hw
        cases hw
        exact hfirst ds later v rs' hcs hlater hn'

/-- `runUntil` makes the host's calls up to the end of the program's run and no further (40_execution_cycle.md R109). -/
theorem runUntil_eq_some_iff :
    runUntil e calls s = some (t, returns) ↔ ∃ made left, calls = made ++ left ∧ EndsAt e made s t returns := by
  induction calls generalizing s returns with
  | nil =>
    constructor
    · intro h; cases h
    · rintro ⟨made, left, h, -, hl, -⟩
      obtain ⟨rfl, -⟩ : made = [] ∧ left = [] := by simpa using h
      cases hl
  | cons c cs ih =>
    rw [runUntil_cons_eq_some]
    constructor
    · rintro ⟨v, ret, hc, hx⟩
      by_cases he : endsRun e c v = true
      · rw [if_pos he] at hx
        obtain ⟨rfl, rfl⟩ := hx
        exact ⟨[c], cs, rfl, .of_endsRun hc he⟩
      · rw [if_neg he] at hx
        obtain ⟨rets, hr, rfl⟩ := hx
        obtain ⟨made, left, rfl, h⟩ := ih.mp hr
        exact ⟨c :: made, left, rfl, (EndsAt.cons_iff hc he).mpr ⟨rets, h, rfl⟩⟩
    · rintro ⟨made, left, h, hend⟩
      cases made with
      | nil => exact absurd hend.2.1 (by simp)
      | cons d ds =>
        obtain ⟨rfl, rfl⟩ : c = d ∧ cs = ds ++ left := by simpa using h
        obtain ⟨v, ret, -, hc, -, -⟩ := runCalls_cons_eq_next.mp hend.1
        refine ⟨v, ret, hc, ?_⟩
        by_cases he : endsRun e c v = true
        · rw [if_pos he]
          exact (hend.eq_of_endsRun hc he).2
        · rw [if_neg he]
          obtain ⟨rets, h, rfl⟩ := (EndsAt.cons_iff hc he).mp hend
          exact ⟨rets, ih.mpr ⟨ds, left, rfl, h⟩, rfl⟩

end Sys2Proof.Machine
end

