-- ==== Sys2Proof/Tests/Slice0.lean ====
section
/-!
SUPPORT. Named tests, each about one instruction or one host call, and the witnesses of the obligations' hypotheses.
Expected values come from the spec: the opcode map and table (30_encoding.md R84, R88) and the vectors of
95_test_vectors.md, whose id each test names.
-/

namespace Sys2Proof.Tests
open Sys2Proof Sys2Proof.Machine

/-! ## WellFormed refuses an ill-formed term for each of its checks -/

/-- No zero-page,Y form for LDA, ADC, SBC, AND, ORA, EOR and CMP. -/
theorem test_wf_standard : Instr.wf (.lda (.mem (.zpy 0x10))) = false ∧
    Instr.wf (.adc (.mem (.zpy 0x10))) = false ∧
    Instr.wf (.sbc (.mem (.zpy 0x10))) = false ∧
    Instr.wf (.and (.mem (.zpy 0x10))) = false ∧
    Instr.wf (.ora (.mem (.zpy 0x10))) = false ∧
    Instr.wf (.eor (.mem (.zpy 0x10))) = false ∧
    Instr.wf (.cmp (.mem (.zpy 0x10))) = false := by decide

/-- LDX has no X-indexed and no indirect form. -/
theorem test_wf_ldx : Instr.wf (.ldx (.mem (.zpx 0x10))) = false ∧
    Instr.wf (.ldx (.mem (.abx 0x1234))) = false ∧
    Instr.wf (.ldx (.mem (.izx 0x10))) = false := by decide

/-- LDY has no Y-indexed and no indirect form. -/
theorem test_wf_ldy : Instr.wf (.ldy (.mem (.zpy 0x10))) = false ∧
    Instr.wf (.ldy (.mem (.aby 0x1234))) = false ∧
    Instr.wf (.ldy (.mem (.izy 0x10))) = false := by decide

/-- CPX and CPY have no indexed form. -/
theorem test_wf_compareIndex : Instr.wf (.cpx (.mem (.zpx 0x10))) = false ∧
    Instr.wf (.cpy (.mem (.abx 0x1234))) = false := by decide

/-- STA has no zero-page,Y form, STX no X-indexed form, STY no Y-indexed form. -/
theorem test_wf_stores : Instr.wf (.sta (.zpy 0x10)) = false ∧
    Instr.wf (.stx (.zpx 0x10)) = false ∧
    Instr.wf (.stx (.aby 0x1234)) = false ∧
    Instr.wf (.sty (.zpy 0x10)) = false ∧
    Instr.wf (.sty (.abx 0x1234)) = false := by decide

/-- BIT has no indexed form. -/
theorem test_wf_bit : Instr.wf (.bit (.zpx 0x10)) = false ∧
    Instr.wf (.bit (.abx 0x1234)) = false := by decide

/-- INC and DEC have no Y-indexed and no indirect form. -/
theorem test_wf_modify : Instr.wf (.inc (.aby 0x1234)) = false ∧
    Instr.wf (.dec (.izx 0x10)) = false := by decide

/-- The shifts have no Y-indexed and no indirect form. -/
theorem test_wf_shift : Instr.wf (.asl (.mem (.zpy 0x10))) = false ∧
    Instr.wf (.lsr (.mem (.aby 0x1234))) = false ∧
    Instr.wf (.rol (.mem (.izx 0x10))) = false ∧
    Instr.wf (.ror (.mem (.izy 0x10))) = false := by decide

/-- A defined opcode is no undefined one. -/
theorem test_wf_undefined : Instr.wf (.undefined 0xA9) = false ∧
    Instr.wf (.undefined 0x00) = false ∧
    Instr.wf (.undefined 0xEA) = false := by decide

/-- What WellFormed refuses, the encoder does not spell. -/
theorem test_encode_refuses : encode (.sta (.zpy 0x10)) = none ∧ encode (.undefined 0xA9) = none := by decide

/-! ## Decoding: a word for every constructor, written out from 30_encoding.md R84 -/

/-- Loads, stores and transfers. -/
theorem test_decode_loads :
    decode [0xA9, 0x42] = .instr (.lda (.imm 0x42)) [] ∧
    decode [0xBE, 0x00, 0x20] = .instr (.ldx (.mem (.aby 0x2000))) [] ∧
    decode [0xB4, 0x40] = .instr (.ldy (.mem (.zpx 0x40))) [] ∧
    decode [0x81, 0x10] = .instr (.sta (.izx 0x10)) [] ∧
    decode [0x96, 0xF0] = .instr (.stx (.zpy 0xF0)) [] ∧
    decode [0x8C, 0x34, 0x12] = .instr (.sty (.abs 0x1234)) [] ∧
    decode [0xAA] = .instr (.tax) [] ∧
    decode [0xA8] = .instr (.tay) [] ∧
    decode [0x8A] = .instr (.txa) [] ∧
    decode [0x98] = .instr (.tya) [] ∧
    decode [0xBA] = .instr (.tsx) [] ∧
    decode [0x9A] = .instr (.txs) [] := by decide

/-- Stack. -/
theorem test_decode_stack :
    decode [0x48] = .instr (.pha) [] ∧
    decode [0x08] = .instr (.php) [] ∧
    decode [0x68] = .instr (.pla) [] ∧
    decode [0x28] = .instr (.plp) [] := by decide

/-- ALU. -/
theorem test_decode_alu :
    decode [0x71, 0x20] = .instr (.adc (.mem (.izy 0x20))) [] ∧
    decode [0xF9, 0xF5, 0x12] = .instr (.sbc (.mem (.aby 0x12F5))) [] ∧
    decode [0x21, 0x10] = .instr (.and (.mem (.izx 0x10))) [] ∧
    decode [0x1D, 0x00, 0x20] = .instr (.ora (.mem (.abx 0x2000))) [] ∧
    decode [0x55, 0x10] = .instr (.eor (.mem (.zpx 0x10))) [] ∧
    decode [0xCD, 0x34, 0x12] = .instr (.cmp (.mem (.abs 0x1234))) [] ∧
    decode [0xE0, 0x06] = .instr (.cpx (.imm 0x06)) [] ∧
    decode [0xC4, 0x10] = .instr (.cpy (.mem (.zp 0x10))) [] ∧
    decode [0x2C, 0x34, 0x12] = .instr (.bit (.abs 0x1234)) [] := by decide

/-- Increment, decrement and shift. -/
theorem test_decode_incDecShift :
    decode [0xE6, 0x10] = .instr (.inc (.zp 0x10)) [] ∧
    decode [0xDE, 0x00, 0x20] = .instr (.dec (.abx 0x2000)) [] ∧
    decode [0xE8] = .instr (.inx) [] ∧
    decode [0xC8] = .instr (.iny) [] ∧
    decode [0xCA] = .instr (.dex) [] ∧
    decode [0x88] = .instr (.dey) [] ∧
    decode [0x0A] = .instr (.asl .acc) [] ∧
    decode [0x4E, 0x34, 0x12] = .instr (.lsr (.mem (.abs 0x1234))) [] ∧
    decode [0x36, 0x10] = .instr (.rol (.mem (.zpx 0x10))) [] ∧
    decode [0x7E, 0x00, 0x30] = .instr (.ror (.mem (.abx 0x3000))) [] := by decide

/-- Control transfer. -/
theorem test_decode_control :
    decode [0x4C, 0x00, 0xC0] = .instr (.jmp (.abs 0xC000)) [] ∧
    decode [0x6C, 0xFF, 0x12] = .instr (.jmp (.ind 0x12FF)) [] ∧
    decode [0x20, 0x10, 0x03] = .instr (.jsr 0x0310) [] ∧
    decode [0x60] = .instr (.rts) [] ∧
    decode [0x40] = .instr (.rti) [] ∧
    decode [0x00] = .instr (.brk) [] ∧
    decode [0x90, 0xFE] = .instr (.bcc 0xFE) [] ∧
    decode [0xB0, 0x10] = .instr (.bcs 0x10) [] ∧
    decode [0xF0, 0x02] = .instr (.beq 0x02) [] ∧
    decode [0xD0, 0xF9] = .instr (.bne 0xF9) [] ∧
    decode [0x30, 0x7F] = .instr (.bmi 0x7F) [] ∧
    decode [0x10, 0x00] = .instr (.bpl 0x00) [] ∧
    decode [0x50, 0x05] = .instr (.bvc 0x05) [] ∧
    decode [0x70, 0xFB] = .instr (.bvs 0xFB) [] := by decide

/-- Flag instructions, NOP and an undefined opcode. -/
theorem test_decode_flags :
    decode [0x18] = .instr (.clc) [] ∧
    decode [0x38] = .instr (.sec) [] ∧
    decode [0x58] = .instr (.cli) [] ∧
    decode [0x78] = .instr (.sei) [] ∧
    decode [0xD8] = .instr (.cld) [] ∧
    decode [0xF8] = .instr (.sed) [] ∧
    decode [0xB8] = .instr (.clv) [] ∧
    decode [0xEA] = .instr (.nop) [] ∧
    decode [0xFF] = .instr (.undefined 0xFF) [] := by decide

/-- Missing bytes are rejected by name. -/
theorem test_decode_rejects : decode [] = .rejected .noBytes ∧ decode [0xA9] = .rejected (.truncated 0xA9) ∧
    decode [0x6C, 0xFF] = .rejected (.truncated 0x6C) := by decide

/-- A table word: LDA #$80 as 16 bits, and a three-byte row given only its opcode byte (operand bytes of zeros). -/
theorem test_decodeTableWord : decodeTableWord 16 0x80A9 = some (.lda (.imm 0x80)) ∧
    decodeTableWord 8 0x6C = some (.jmp (.ind 0x0000)) := by decide

/-- The lengths of the 256 opcodes (30_encoding.md R88). -/
theorem test_lengths : opcodeMap.map (·.map Entry.length) =
    [[1, 2, 1, 1, 1, 2, 2, 1, 1, 2, 1, 1, 1, 3, 3, 1], [2, 2, 1, 1, 1, 2, 2, 1, 1, 3, 1, 1, 1, 3, 3, 1]] ++
    [[3, 2, 1, 1, 2, 2, 2, 1, 1, 2, 1, 1, 3, 3, 3, 1], [2, 2, 1, 1, 1, 2, 2, 1, 1, 3, 1, 1, 1, 3, 3, 1]] ++
    [[1, 2, 1, 1, 1, 2, 2, 1, 1, 2, 1, 1, 3, 3, 3, 1], [2, 2, 1, 1, 1, 2, 2, 1, 1, 3, 1, 1, 1, 3, 3, 1]] ++
    [[1, 2, 1, 1, 1, 2, 2, 1, 1, 2, 1, 1, 3, 3, 3, 1], [2, 2, 1, 1, 1, 2, 2, 1, 1, 3, 1, 1, 1, 3, 3, 1]] ++
    [[1, 2, 1, 1, 2, 2, 2, 1, 1, 1, 1, 1, 3, 3, 3, 1], [2, 2, 1, 1, 2, 2, 2, 1, 1, 3, 1, 1, 1, 3, 1, 1]] ++
    [[2, 2, 2, 1, 2, 2, 2, 1, 1, 2, 1, 1, 3, 3, 3, 1], [2, 2, 1, 1, 2, 2, 2, 1, 1, 3, 1, 1, 3, 3, 3, 1]] ++
    [[2, 2, 1, 1, 2, 2, 2, 1, 1, 2, 1, 1, 3, 3, 3, 1], [2, 2, 1, 1, 1, 2, 2, 1, 1, 3, 1, 1, 1, 3, 3, 1]] ++
    [[2, 2, 1, 1, 2, 2, 2, 1, 1, 2, 1, 1, 3, 3, 3, 1], [2, 2, 1, 1, 1, 2, 2, 1, 1, 3, 1, 1, 1, 3, 3, 1]] := by decide

/-- The cycle costs of the 256 opcodes, 0 standing for `UNDEF_CYCLES` (30_encoding.md R88). -/
theorem test_cycles : opcodeMap.map (·.map (fun e => e.cycles.getD 0)) =
    [[7, 6, 0, 0, 0, 3, 5, 0, 3, 2, 2, 0, 0, 4, 6, 0], [2, 5, 0, 0, 0, 4, 6, 0, 2, 4, 0, 0, 0, 4, 7, 0]] ++
    [[6, 6, 0, 0, 3, 3, 5, 0, 4, 2, 2, 0, 4, 4, 6, 0], [2, 5, 0, 0, 0, 4, 6, 0, 2, 4, 0, 0, 0, 4, 7, 0]] ++
    [[6, 6, 0, 0, 0, 3, 5, 0, 3, 2, 2, 0, 3, 4, 6, 0], [2, 5, 0, 0, 0, 4, 6, 0, 2, 4, 0, 0, 0, 4, 7, 0]] ++
    [[6, 6, 0, 0, 0, 3, 5, 0, 4, 2, 2, 0, 5, 4, 6, 0], [2, 5, 0, 0, 0, 4, 6, 0, 2, 4, 0, 0, 0, 4, 7, 0]] ++
    [[0, 6, 0, 0, 3, 3, 3, 0, 2, 0, 2, 0, 4, 4, 4, 0], [2, 6, 0, 0, 4, 4, 4, 0, 2, 5, 2, 0, 0, 5, 0, 0]] ++
    [[2, 6, 2, 0, 3, 3, 3, 0, 2, 2, 2, 0, 4, 4, 4, 0], [2, 5, 0, 0, 4, 4, 4, 0, 2, 4, 2, 0, 4, 4, 4, 0]] ++
    [[2, 6, 0, 0, 3, 3, 5, 0, 2, 2, 2, 0, 4, 4, 6, 0], [2, 5, 0, 0, 0, 4, 6, 0, 2, 4, 0, 0, 0, 4, 7, 0]] ++
    [[2, 6, 0, 0, 3, 3, 5, 0, 2, 2, 2, 0, 4, 4, 6, 0], [2, 5, 0, 0, 0, 4, 6, 0, 2, 4, 0, 0, 0, 4, 7, 0]] := by decide

/-! ## Single steps (95_test_vectors.md section 2) -/

/-- The default start state of 95_test_vectors.md with these registers, status byte, PC and memory. -/
def start (a x y sp p : Byte) (pc : Word) (mem : Memory) : State :=
  { State.reset with a := a, x := x, y := y, sp := sp, flags := Flags.unpack p, pc := pc, mem := mem, busLog := [] }

/-- The bus writes made, in order. -/
def writesOf (s : State) : List (Word × Byte) :=
  s.busLog.reverse.filterMap fun | .write a v => some (a, v) | .read _ _ => none

/-- An end state as the vectors list it: A, X, Y, S, PC, P, the writes, and the cycles added. -/
def ends (r : Result) (a x y sp : Byte) (pc : Word) (p : Byte) (writes : List (Word × Byte)) (cycles : Int) : Bool :=
  match r with
  | .next t => t.a == a && t.x == x && t.y == y && t.sp == sp && t.pc == pc && t.pack == p && writesOf t == writes &&
      t.cycles == cycles
  | .fault _ => false
  | .refused _ => false

/-- An end state in which N, V and Z are drawn: A, PC, C, D and I, and how many values were drawn. -/
def endsDrawn (r : Result) (a : Byte) (pc : Word) (c d i : Bool) (draws : Nat) : Bool :=
  match r with
  | .next t => t.a == a && t.pc == pc && t.flags.c == c && t.flags.d == d && t.flags.i == i && t.draws == draws
  | .fault _ => false
  | .refused _ => false

/-- ADR-8: (zp,X) pointer wraps at 0xFF (R131). -/
theorem test_lda_ADR_8 : ends (step (start 0x00 0x01 0x00 0xFF 0x24 0x0200 [(0x0000, 0x30), (0x0200, 0xA1), (0x0201, 0xFE), (0x3000, 0x77)]))
    0x77 0x01 0x00 0xFF 0x0202 0x24 [] 6 = true := by decide

/-- ADR-10: (zp),Y with zp = 0xFF (R132). -/
theorem test_lda_ADR_10 : ends (step (start 0x00 0x00 0x02 0xFF 0x24 0x0200 [(0x0000, 0x20), (0x00FF, 0xFE), (0x0200, 0xB1), (0x0201, 0xFF), (0x2100, 0x99)]))
    0x99 0x00 0x02 0xFF 0x0202 0xA4 [] 5 = true := by decide

/-- ADR-4: zp,Y wraps in page 0 (R126). -/
theorem test_ldx_ADR_4 : ends (step (start 0x00 0x00 0x20 0xFF 0x24 0x0200 [(0x0010, 0x33), (0x0200, 0xB6), (0x0201, 0xF0)]))
    0x00 0x33 0x20 0xFF 0x0202 0x24 [] 4 = true := by decide

/-- LS-3: LDX abs,Y (R151). -/
theorem test_ldx_LS_3 : ends (step (start 0x00 0x00 0x01 0xFF 0x24 0x0200 [(0x0200, 0xBE), (0x0202, 0x20), (0x2001, 0x7F)]))
    0x00 0x7F 0x01 0xFF 0x0203 0x24 [] 4 = true := by decide

/-- LS-4: LDY zp,X (R152). -/
theorem test_ldy_LS_4 : ends (step (start 0x00 0x02 0x00 0xFF 0x24 0x0200 [(0x0042, 0xFF), (0x0200, 0xB4), (0x0201, 0x40)]))
    0x00 0x02 0xFF 0xFF 0x0202 0xA4 [] 4 = true := by decide

/-- LS-5: STA abs writes no flag (R153). -/
theorem test_sta_LS_5 : ends (step (start 0x00 0x00 0x00 0xFF 0xA4 0x0200 [(0x0200, 0x8D), (0x0202, 0x30)]))
    0x00 0x00 0x00 0xFF 0x0203 0xA4 [(0x3000, 0x00)] 4 = true := by decide

/-- LS-6: STA (zp),Y makes one write, no read of EA (R153). -/
theorem test_sta_LS_6 : ends (step (start 0xAB 0x00 0x05 0xFF 0x24 0x0200 [(0x0021, 0x40), (0x0200, 0x91), (0x0201, 0x20)]))
    0xAB 0x00 0x05 0xFF 0x0202 0x24 [(0x4005, 0xAB)] 6 = true := by decide

/-- LS-7: STX zp,Y wraps (R154). -/
theorem test_stx_LS_7 : ends (step (start 0x00 0x5A 0x11 0xFF 0x24 0x0200 [(0x0200, 0x96), (0x0201, 0xF0)]))
    0x00 0x5A 0x11 0xFF 0x0202 0x24 [(0x0001, 0x5A)] 4 = true := by decide

/-- LS-8: STY abs (R155). -/
theorem test_sty_LS_8 : ends (step (start 0x00 0x00 0xC3 0xFF 0x24 0x0200 [(0x0200, 0x8C), (0x0201, 0x34), (0x0202, 0x12)]))
    0x00 0x00 0xC3 0xFF 0x0203 0x24 [(0x1234, 0xC3)] 4 = true := by decide

/-- LS-9: TAX (R156). -/
theorem test_tax_LS_9 : ends (step (start 0x80 0x00 0x00 0xFF 0x24 0x0200 [(0x0200, 0xAA)]))
    0x80 0x80 0x00 0xFF 0x0201 0xA4 [] 2 = true := by decide

/-- LS-10: TAY of zero (R157). -/
theorem test_tay_LS_10 : ends (step (start 0x00 0x00 0x12 0xFF 0x24 0x0200 [(0x0200, 0xA8)]))
    0x00 0x00 0x00 0xFF 0x0201 0x26 [] 2 = true := by decide

/-- LS-11: TXA (R158). -/
theorem test_txa_LS_11 : ends (step (start 0x00 0x7F 0x00 0xFF 0x24 0x0200 [(0x0200, 0x8A)]))
    0x7F 0x7F 0x00 0xFF 0x0201 0x24 [] 2 = true := by decide

/-- LS-12: TYA (R159). -/
theorem test_tya_LS_12 : ends (step (start 0x00 0x00 0xFE 0xFF 0x24 0x0200 [(0x0200, 0x98)]))
    0xFE 0x00 0xFE 0xFF 0x0201 0xA4 [] 2 = true := by decide

/-- LS-13: TSX with S = 0 (R160). -/
theorem test_tsx_LS_13 : ends (step (start 0x00 0x12 0x00 0x00 0x24 0x0200 [(0x0200, 0xBA)]))
    0x00 0x00 0x00 0x00 0x0201 0x26 [] 2 = true := by decide

/-- LS-14: TXS writes no flag (R161). -/
theorem test_txs_LS_14 : ends (step (start 0x00 0x80 0x00 0xFF 0x26 0x0200 [(0x0200, 0x9A)]))
    0x00 0x80 0x00 0x80 0x0201 0x26 [] 2 = true := by decide

/-- STK-1: PHA (R170). -/
theorem test_pha_STK_1 : ends (step (start 0x5A 0x00 0x00 0xFF 0x24 0x0200 [(0x0200, 0x48)]))
    0x5A 0x00 0x00 0xFE 0x0201 0x24 [(0x01FF, 0x5A)] 3 = true := by decide

/-- STK-2: PHA with S = 0 wraps (R170). -/
theorem test_pha_STK_2 : ends (step (start 0x11 0x00 0x00 0x00 0x24 0x0200 [(0x0200, 0x48)]))
    0x11 0x00 0x00 0xFF 0x0201 0x24 [(0x0100, 0x11)] 3 = true := by decide

/-- STK-3: PHP pushes B as stored and bit 5 = 1 (R171). -/
theorem test_php_STK_3 : ends (step (start 0x00 0x00 0x00 0xFF 0x00 0x0200 [(0x0200, 0x08)]))
    0x00 0x00 0x00 0xFE 0x0201 0x20 [(0x01FF, 0x20)] 3 = true := by decide

/-- STK-4: PHP with B = 1, D = 1 (R171). -/
theorem test_php_STK_4 : ends (step (start 0x00 0x00 0x00 0xFF 0x18 0x0200 [(0x0200, 0x08)]))
    0x00 0x00 0x00 0xFE 0x0201 0x38 [(0x01FF, 0x38)] 3 = true := by decide

/-- STK-5: PLA of zero (R172). -/
theorem test_pla_STK_5 : ends (step (start 0x33 0x00 0x00 0xFE 0x24 0x0200 [(0x0200, 0x68)]))
    0x00 0x00 0x00 0xFF 0x0201 0x26 [] 4 = true := by decide

/-- STK-6: PLA with S = 0xFF wraps to 0x0100 (R172). -/
theorem test_pla_STK_6 : ends (step (start 0x00 0x00 0x00 0xFF 0x24 0x0200 [(0x0100, 0x90), (0x0200, 0x68)]))
    0x90 0x00 0x00 0x00 0x0201 0xA4 [] 4 = true := by decide

/-- STK-7: PLP of 0xFF loads all seven flags (R173). -/
theorem test_plp_STK_7 : ends (step (start 0x00 0x00 0x00 0xFE 0x00 0x0200 [(0x01FF, 0xFF), (0x0200, 0x28)]))
    0x00 0x00 0x00 0xFF 0x0201 0xFF [] 4 = true := by decide

/-- STK-8: PLP of 0x00: bit 5 ignored (R173). -/
theorem test_plp_STK_8 : ends (step (start 0x00 0x00 0x00 0xFE 0xFF 0x0200 [(0x0200, 0x28)]))
    0x00 0x00 0x00 0xFF 0x0201 0x20 [] 4 = true := by decide

/-- ALU-3: ADC binary, carry-in makes overflow (R183). -/
theorem test_adc_ALU_3 : ends (step (start 0x7F 0x00 0x00 0xFF 0x25 0x0200 [(0x0200, 0x69)]))
    0x80 0x00 0x00 0xFF 0x0202 0xE4 [] 2 = true := by decide

/-- ALU-11: SBC binary, borrow-in (R184). -/
theorem test_sbc_ALU_11 : ends (step (start 0x05 0x00 0x00 0xFF 0x24 0x0200 [(0x0200, 0xE9), (0x0201, 0x05)]))
    0xFF 0x00 0x00 0xFF 0x0202 0xA4 [] 2 = true := by decide

/-- ALU-16: AND to zero (R185). -/
theorem test_and_ALU_16 : ends (step (start 0xF0 0x00 0x00 0xFF 0x24 0x0200 [(0x0200, 0x29), (0x0201, 0x0F)]))
    0x00 0x00 0x00 0xFF 0x0202 0x26 [] 2 = true := by decide

/-- ALU-17: ORA sets N (R186). -/
theorem test_ora_ALU_17 : ends (step (start 0x01 0x00 0x00 0xFF 0x24 0x0200 [(0x0200, 0x09), (0x0201, 0x80)]))
    0x81 0x00 0x00 0xFF 0x0202 0xA4 [] 2 = true := by decide

/-- ALU-18: EOR of equal values (R187). -/
theorem test_eor_ALU_18 : ends (step (start 0x5A 0x00 0x00 0xFF 0x24 0x0200 [(0x0010, 0x5A), (0x0200, 0x45), (0x0201, 0x10)]))
    0x00 0x00 0x00 0xFF 0x0202 0x26 [] 3 = true := by decide

/-- ALU-20: CMP less, unsigned (R189). -/
theorem test_cmp_ALU_20 : ends (step (start 0x01 0x00 0x00 0xFF 0x24 0x0200 [(0x0200, 0xC9), (0x0201, 0xFF)]))
    0x01 0x00 0x00 0xFF 0x0202 0x24 [] 2 = true := by decide

/-- ALU-21: CMP greater, N from difference (R189). -/
theorem test_cmp_ALU_21 : ends (step (start 0xFF 0x00 0x00 0xFF 0x64 0x0200 [(0x0200, 0xC9), (0x0201, 0x01)]))
    0xFF 0x00 0x00 0xFF 0x0202 0xE5 [] 2 = true := by decide

/-- ALU-23: CPX (R190). -/
theorem test_cpx_ALU_23 : ends (step (start 0x00 0x05 0x00 0xFF 0x24 0x0200 [(0x0200, 0xE0), (0x0201, 0x06)]))
    0x00 0x05 0x00 0xFF 0x0202 0xA4 [] 2 = true := by decide

/-- ALU-24: CPY zp (R191). -/
theorem test_cpy_ALU_24 : ends (step (start 0x00 0x00 0x80 0xFF 0x24 0x0200 [(0x0200, 0xC4), (0x0201, 0x10)]))
    0x00 0x00 0x80 0xFF 0x0202 0xA5 [] 3 = true := by decide

/-- ALU-25: BIT zp (R192). -/
theorem test_bit_ALU_25 : ends (step (start 0x01 0x00 0x00 0xFF 0x24 0x0200 [(0x0010, 0xC0), (0x0200, 0x24), (0x0201, 0x10)]))
    0x01 0x00 0x00 0xFF 0x0202 0xE6 [] 3 = true := by decide

/-- ALU-26: BIT abs, flags from memory (R192). -/
theorem test_bit_ALU_26 : ends (step (start 0xFF 0x00 0x00 0xFF 0xE6 0x0200 [(0x0200, 0x2C), (0x0201, 0x34), (0x0202, 0x12), (0x1234, 0x3F)]))
    0xFF 0x00 0x00 0xFF 0x0203 0x24 [] 4 = true := by decide

/-- IDS-1: INC zp wraps 0xFF to 0x00 (R200). -/
theorem test_inc_IDS_1 : ends (step (start 0x00 0x00 0x00 0xFF 0x24 0x0200 [(0x0010, 0xFF), (0x0200, 0xE6), (0x0201, 0x10)]))
    0x00 0x00 0x00 0xFF 0x0202 0x26 [(0x0010, 0x00)] 5 = true := by decide

/-- IDS-2: DEC abs,X 0x00 to 0xFF (R201). -/
theorem test_dec_IDS_2 : ends (step (start 0x00 0x01 0x00 0xFF 0x24 0x0200 [(0x0200, 0xDE), (0x0202, 0x20)]))
    0x00 0x01 0x00 0xFF 0x0203 0xA4 [(0x2001, 0xFF)] 7 = true := by decide

/-- IDS-3: INX wraps (R202). -/
theorem test_inx_IDS_3 : ends (step (start 0x00 0xFF 0x00 0xFF 0x24 0x0200 [(0x0200, 0xE8)]))
    0x00 0x00 0x00 0xFF 0x0201 0x26 [] 2 = true := by decide

/-- IDS-4: INY (R203). -/
theorem test_iny_IDS_4 : ends (step (start 0x00 0x00 0x7F 0xFF 0x24 0x0200 [(0x0200, 0xC8)]))
    0x00 0x00 0x80 0xFF 0x0201 0xA4 [] 2 = true := by decide

/-- IDS-5: DEX to zero (R204). -/
theorem test_dex_IDS_5 : ends (step (start 0x00 0x01 0x00 0xFF 0x24 0x0200 [(0x0200, 0xCA)]))
    0x00 0x00 0x00 0xFF 0x0201 0x26 [] 2 = true := by decide

/-- IDS-6: DEY wraps (R205). -/
theorem test_dey_IDS_6 : ends (step (start 0x00 0x00 0x00 0xFF 0x24 0x0200 [(0x0200, 0x88)]))
    0x00 0x00 0xFF 0xFF 0x0201 0xA4 [] 2 = true := by decide

/-- IDS-7: ASL A, carry out (R206). -/
theorem test_asl_IDS_7 : ends (step (start 0x80 0x00 0x00 0xFF 0x24 0x0200 [(0x0200, 0x0A)]))
    0x00 0x00 0x00 0xFF 0x0201 0x27 [] 2 = true := by decide

/-- IDS-8: ASL zp (R206). -/
theorem test_asl_IDS_8 : ends (step (start 0x00 0x00 0x00 0xFF 0x24 0x0200 [(0x0010, 0x41), (0x0200, 0x06), (0x0201, 0x10)]))
    0x00 0x00 0x00 0xFF 0x0202 0xA4 [(0x0010, 0x82)] 5 = true := by decide

/-- IDS-9: LSR A to zero (R207). -/
theorem test_lsr_IDS_9 : ends (step (start 0x01 0x00 0x00 0xFF 0xA4 0x0200 [(0x0200, 0x4A)]))
    0x00 0x00 0x00 0xFF 0x0201 0x27 [] 2 = true := by decide

/-- IDS-10: LSR abs (R207). -/
theorem test_lsr_IDS_10 : ends (step (start 0x00 0x00 0x00 0xFF 0x24 0x0200 [(0x0200, 0x4E), (0x0201, 0x34), (0x0202, 0x12), (0x1234, 0xFE)]))
    0x00 0x00 0x00 0xFF 0x0203 0x24 [(0x1234, 0x7F)] 6 = true := by decide

/-- IDS-11: ROL A with C = 1 (R208). -/
theorem test_rol_IDS_11 : ends (step (start 0x80 0x00 0x00 0xFF 0x25 0x0200 [(0x0200, 0x2A)]))
    0x01 0x00 0x00 0xFF 0x0201 0x25 [] 2 = true := by decide

/-- IDS-12: ROL zp,X with C = 0 (R208). -/
theorem test_rol_IDS_12 : ends (step (start 0x00 0x01 0x00 0xFF 0x24 0x0200 [(0x0011, 0x40), (0x0200, 0x36), (0x0201, 0x10)]))
    0x00 0x01 0x00 0xFF 0x0202 0xA4 [(0x0011, 0x80)] 6 = true := by decide

/-- IDS-13: ROR A with C = 1 (R209). -/
theorem test_ror_IDS_13 : ends (step (start 0x01 0x00 0x00 0xFF 0x25 0x0200 [(0x0200, 0x6A)]))
    0x80 0x00 0x00 0xFF 0x0201 0xA5 [] 2 = true := by decide

/-- IDS-14: ROR abs,X with C = 0 (R209). -/
theorem test_ror_IDS_14 : ends (step (start 0x00 0x00 0x00 0xFF 0x24 0x0200 [(0x0200, 0x7E), (0x0202, 0x30), (0x3000, 0x02)]))
    0x00 0x00 0x00 0xFF 0x0203 0x24 [(0x3000, 0x01)] 7 = true := by decide

/-- ADR-11: JMP (ind), JMP_IND_PAGE_WRAP = true (R130). -/
theorem test_jmp_ADR_11 : ends (step (start 0x00 0x00 0x00 0xFF 0x24 0x0200 [(0x0200, 0x6C), (0x0201, 0xFF), (0x0202, 0x12), (0x1200, 0x40), (0x1300, 0x50)]))
    0x00 0x00 0x00 0xFF 0x4000 0x24 [] 5 = true := by decide

/-- CT-1: JMP abs (R220). -/
theorem test_jmp_CT_1 : ends (step (start 0x00 0x00 0x00 0xFF 0x24 0x0200 [(0x0200, 0x4C), (0x0202, 0xC0)]))
    0x00 0x00 0x00 0xFF 0xC000 0x24 [] 3 = true := by decide

/-- CT-2: JSR (R221). -/
theorem test_jsr_CT_2 : ends (step (start 0x00 0x00 0x00 0xFF 0x24 0x0305 [(0x0305, 0x20), (0x0306, 0x10), (0x0307, 0x03)]))
    0x00 0x00 0x00 0xFD 0x0310 0x24 [(0x01FF, 0x03), (0x01FE, 0x07)] 6 = true := by decide

/-- CT-3: RTS (R222). -/
theorem test_rts_CT_3 : ends (step (start 0x00 0x00 0x00 0xFD 0x24 0x0200 [(0x01FE, 0x07), (0x01FF, 0x03), (0x0200, 0x60)]))
    0x00 0x00 0x00 0xFF 0x0308 0x24 [] 6 = true := by decide

/-- CT-4: RTS of 0xFFFF wraps (R222). -/
theorem test_rts_CT_4 : ends (step (start 0x00 0x00 0x00 0xFD 0x24 0x0200 [(0x01FE, 0xFF), (0x01FF, 0xFF), (0x0200, 0x60)]))
    0x00 0x00 0x00 0xFF 0x0000 0x24 [] 6 = true := by decide

/-- CT-5: RTI (R223). -/
theorem test_rti_CT_5 : ends (step (start 0x00 0x00 0x00 0xFC 0x04 0x0200 [(0x01FD, 0x32), (0x01FE, 0x04), (0x01FF, 0x02), (0x0200, 0x40)]))
    0x00 0x00 0x00 0xFF 0x0204 0x32 [] 6 = true := by decide

/-- CT-6: BRK (R224). -/
theorem test_brk_CT_6 : ends (step (start 0x00 0x00 0x00 0xFF 0x02 0x0202 [(0x0203, 0xFF), (0xFFFF, 0x06)]))
    0x00 0x00 0x00 0xFC 0x0600 0x36 [(0x01FF, 0x02), (0x01FE, 0x04), (0x01FD, 0x32)] 7 = true := by decide

/-- CT-7: BRK with I = 1 is taken (R224). -/
theorem test_brk_CT_7 : ends (step (start 0x00 0x00 0x00 0xFF 0x24 0x0200 [(0xFFFF, 0x06)]))
    0x00 0x00 0x00 0xFC 0x0600 0x34 [(0x01FF, 0x02), (0x01FE, 0x02), (0x01FD, 0x34)] 7 = true := by decide

/-- CT-8: BCC taken (R226). -/
theorem test_bcc_CT_8 : ends (step (start 0x00 0x00 0x00 0xFF 0x24 0x0200 [(0x0200, 0x90), (0x0201, 0x10)]))
    0x00 0x00 0x00 0xFF 0x0212 0x24 [] 2 = true := by decide

/-- CT-9: BCC not taken (R226). -/
theorem test_bcc_CT_9 : ends (step (start 0x00 0x00 0x00 0xFF 0x25 0x0200 [(0x0200, 0x90), (0x0201, 0x10)]))
    0x00 0x00 0x00 0xFF 0x0202 0x25 [] 2 = true := by decide

/-- CT-10: BCS taken (R227). -/
theorem test_bcs_CT_10 : ends (step (start 0x00 0x00 0x00 0xFF 0x25 0x0200 [(0x0200, 0xB0), (0x0201, 0x10)]))
    0x00 0x00 0x00 0xFF 0x0212 0x25 [] 2 = true := by decide

/-- CT-11: BEQ taken (R228). -/
theorem test_beq_CT_11 : ends (step (start 0x00 0x00 0x00 0xFF 0x26 0x0300 [(0x0300, 0xF0), (0x0301, 0x02)]))
    0x00 0x00 0x00 0xFF 0x0304 0x26 [] 2 = true := by decide

/-- ADR-13: rel target wraps below 0x0000 (R133). -/
theorem test_beq_ADR_13 : ends (step (start 0x00 0x00 0x00 0xFF 0x26 0x0000 [(0x0000, 0xF0), (0x0001, 0x80)]))
    0x00 0x00 0x00 0xFF 0xFF82 0x26 [] 2 = true := by decide

/-- CT-12: BNE taken backward (R229). -/
theorem test_bne_CT_12 : ends (step (start 0x00 0x00 0x00 0xFF 0x24 0x020A [(0x020A, 0xD0), (0x020B, 0xF9)]))
    0x00 0x00 0x00 0xFF 0x0205 0x24 [] 2 = true := by decide

/-- CT-13: BNE not taken (R229). -/
theorem test_bne_CT_13 : ends (step (start 0x00 0x00 0x00 0xFF 0x26 0x020A [(0x020A, 0xD0), (0x020B, 0xF9)]))
    0x00 0x00 0x00 0xFF 0x020C 0x26 [] 2 = true := by decide

/-- CT-14: BMI taken, target wraps past 0xFFFF (R230). -/
theorem test_bmi_CT_14 : ends (step (start 0x00 0x00 0x00 0xFF 0xA4 0xFFF0 [(0xFFF0, 0x30), (0xFFF1, 0x7F)]))
    0x00 0x00 0x00 0xFF 0x0071 0xA4 [] 2 = true := by decide

/-- CT-15: BPL taken with offset 0 (R231). -/
theorem test_bpl_CT_15 : ends (step (start 0x00 0x00 0x00 0xFF 0x24 0x0400 [(0x0400, 0x10)]))
    0x00 0x00 0x00 0xFF 0x0402 0x24 [] 2 = true := by decide

/-- CT-16: BVC taken (R232). -/
theorem test_bvc_CT_16 : ends (step (start 0x00 0x00 0x00 0xFF 0x24 0x0200 [(0x0200, 0x50), (0x0201, 0x05)]))
    0x00 0x00 0x00 0xFF 0x0207 0x24 [] 2 = true := by decide

/-- CT-17: BVS taken backward (R233). -/
theorem test_bvs_CT_17 : ends (step (start 0x00 0x00 0x00 0xFF 0x64 0x0200 [(0x0200, 0x70), (0x0201, 0xFB)]))
    0x00 0x00 0x00 0xFF 0x01FD 0x64 [] 2 = true := by decide

/-- CT-18: BVS not taken (R233). -/
theorem test_bvs_CT_18 : ends (step (start 0x00 0x00 0x00 0xFF 0x24 0x0200 [(0x0200, 0x70), (0x0201, 0xFB)]))
    0x00 0x00 0x00 0xFF 0x0202 0x24 [] 2 = true := by decide

/-- FLG-1: CLC (R240). -/
theorem test_clc_FLG_1 : ends (step (start 0x00 0x00 0x00 0xFF 0x25 0x0200 [(0x0200, 0x18)]))
    0x00 0x00 0x00 0xFF 0x0201 0x24 [] 2 = true := by decide

/-- FLG-2: SEC (R241). -/
theorem test_sec_FLG_2 : ends (step (start 0x00 0x00 0x00 0xFF 0x24 0x0200 [(0x0200, 0x38)]))
    0x00 0x00 0x00 0xFF 0x0201 0x25 [] 2 = true := by decide

/-- FLG-3: CLI (R242). -/
theorem test_cli_FLG_3 : ends (step (start 0x00 0x00 0x00 0xFF 0x24 0x0200 [(0x0200, 0x58)]))
    0x00 0x00 0x00 0xFF 0x0201 0x20 [] 2 = true := by decide

/-- FLG-4: SEI (R243). -/
theorem test_sei_FLG_4 : ends (step (start 0x00 0x00 0x00 0xFF 0x20 0x0200 [(0x0200, 0x78)]))
    0x00 0x00 0x00 0xFF 0x0201 0x24 [] 2 = true := by decide

/-- FLG-5: CLD (R244). -/
theorem test_cld_FLG_5 : ends (step (start 0x00 0x00 0x00 0xFF 0x2C 0x0200 [(0x0200, 0xD8)]))
    0x00 0x00 0x00 0xFF 0x0201 0x24 [] 2 = true := by decide

/-- FLG-6: SED (R245). -/
theorem test_sed_FLG_6 : ends (step (start 0x00 0x00 0x00 0xFF 0x24 0x0200 [(0x0200, 0xF8)]))
    0x00 0x00 0x00 0xFF 0x0201 0x2C [] 2 = true := by decide

/-- FLG-7: CLV (R246). -/
theorem test_clv_FLG_7 : ends (step (start 0x00 0x00 0x00 0xFF 0x64 0x0200 [(0x0200, 0xB8)]))
    0x00 0x00 0x00 0xFF 0x0201 0x24 [] 2 = true := by decide

/-- FLG-8: NOP (R247). -/
theorem test_nop_FLG_8 : ends (step (start 0x00 0x00 0x00 0xFF 0x24 0x0200 [(0x0200, 0xEA)]))
    0x00 0x00 0x00 0xFF 0x0201 0x24 [] 2 = true := by decide

/-- UND-2: undefined 0xFF (R260). -/
theorem test_undefined_UND_2 : ends (step (start 0x12 0x00 0x00 0xFF 0xC3 0x0200 [(0x0200, 0xFF)]))
    0x12 0x00 0x00 0xFF 0x0201 0xE3 [] 0 = true := by decide

/-- UND-3: undefined 0x80 fetches no operand (R260). -/
theorem test_undefined_UND_3 : ends (step (start 0x00 0x00 0x00 0xFF 0x24 0x0200 [(0x0200, 0x80), (0x0201, 0x44)]))
    0x00 0x00 0x00 0xFF 0x0201 0x24 [] 0 = true := by decide

/-- INT-1: TriggerNMI with I = 1 (R306). -/
theorem test_nmi_INT_1 : ends (triggerNmi (start 0x00 0x00 0x00 0xFF 0x24 0x1234 [(0xFFFB, 0x80)]))
    0x00 0x00 0x00 0xFC 0x8000 0x24 [(0x01FF, 0x12), (0x01FE, 0x34), (0x01FD, 0x24)] 7 = true := by decide

/-- The state TriggerIRQ leaves. -/
def irqResult (s : State) : Result :=
  match triggerIrq s with
  | .next (t, _) => .next t
  | .fault r => .fault r
  | .refused r => .refused r

/-- INT-2: TriggerIRQ with I = 0 (R310). -/
theorem test_irq_INT_2 : ends (irqResult (start 0x00 0x00 0x00 0xFF 0x01 0x1234 [(0xFFFF, 0x90)]))
    0x00 0x00 0x00 0xFC 0x9000 0x25 [(0x01FF, 0x12), (0x01FE, 0x34), (0x01FD, 0x21)] 7 = true := by decide

/-- INT-3: TriggerIRQ with I = 1 is not serviced (R311). -/
theorem test_irq_INT_3 : ends (irqResult (start 0x00 0x00 0x00 0xFF 0x24 0x1234 [(0xFFFF, 0x90)]))
    0x00 0x00 0x00 0xFF 0x1234 0x24 [] 0 = true := by decide

/-- INT-5: NMI with S = 0x01 wraps the stack (R304). -/
theorem test_nmi_INT_5 : ends (triggerNmi (start 0x00 0x00 0x00 0x01 0x20 0xABCD [(0xFFFB, 0x80)]))
    0x00 0x00 0x00 0xFE 0x8000 0x24 [(0x0101, 0xAB), (0x0100, 0xCD), (0x01FF, 0x20)] 7 = true := by decide

/-- ALU-7: ADC decimal, carry in (R183). -/
theorem test_adc_ALU_7 : endsDrawn (step (start 0x58 0x00 0x00 0xFF 0x2D 0x0200 [(0x0200, 0x69), (0x0201, 0x46)]))
    0x05 0x0202 true true true 3 = true := by decide

/-- ALU-13: SBC decimal, borrow out (R184). -/
theorem test_sbc_ALU_13 : endsDrawn (step (start 0x00 0x00 0x00 0xFF 0x2D 0x0200 [(0x0200, 0xE9), (0x0201, 0x01)]))
    0x99 0x0202 false true true 3 = true := by decide
/-! ## The host interface (95_test_vectors.md sections 1 and 3) -/

/-- A word written at PC of the reset state runs as the next step: LDA #$80 (LS-2). -/
theorem test_withFetchWord : ends (step (State.reset.withFetchWord 16 0x80A9)) 0x80 0x00 0x00 0xFF 0x0002 0xA4 [] 2 = true := by
  decide

/-- V7: Setup's integer division, and the refusal of rate 0 (40_execution_cycle.md R106). -/
theorem test_setup : call (.setup (some .ram) 1000000 60) State.created =
      .next ({ State.created with bus := .ram, cyclesPerFrame := some 16666 }, .nothing) ∧
    call (.setup (some .ram) 1000000 0) State.created = .refused .zeroFrameRate := ⟨rfl, rfl⟩

/-- The boot order, Setup then Reset, leaves the state after reset (70_reset_and_hazards.md R345). -/
theorem test_boot : runCalls [.setup (some .ram) 1000000 50, .reset] State.created =
    .next (State.reset, [.nothing, .success]) := rfl

/-- V8: Reset on a new instance reads the stubs, and ExecuteOne after it is refused (20_memory.md R53, U4). -/
theorem test_resetBeforeSetup : (resetCore State.created).pc = 0 ∧ (resetCore State.created).pack = 0x24 ∧
    runCalls [.reset, .executeOne] State.created = .refused .setupNotRun := ⟨rfl, by decide, rfl⟩

/-- RST-1: Reset leaves `undef_count` and cycles per frame, and reads the vector low byte first. -/
theorem test_reset_RST_1 :
    let s := { start 0x12 0x34 0x00 0x00 0xFF 0x0200 [(0xFFFD, 0xC0)] with cycles := 77, undefCount := 3 }
    ends (.next (resetCore s)) 0x00 0x00 0x00 0xFF 0xC000 0x24 [] 0 = true ∧ (resetCore s).undefCount = 3 ∧
    (resetCore s).cyclesPerFrame = some 20000 ∧
    (resetCore s).busLog = [.read 0xFFFD 0xC0, .read 0xFFFC 0x00] := by
  decide

/-- HOST-1: IRQ then NMI, both entered. -/
theorem test_triggers_HOST_1 :
    (match runCalls [.triggerIrq, .triggerNmi]
        (start 0 0 0 0xFF 0x00 0x0400 [(0xFFFA, 0x00), (0xFFFB, 0x80), (0xFFFF, 0x90)]) with
      | .next (t, _) => ends (.next t) 0 0 0 0xF9 0x8000 0x24
          [(0x01FF, 0x04), (0x01FE, 0x00), (0x01FD, 0x20), (0x01FC, 0x90), (0x01FB, 0x00), (0x01FA, 0x24)] 14
      | .fault _ => false
      | .refused _ => false) = true := by decide

/-- HOST-5: Setup on a live core does not touch the cycle accumulator, and the frame test subtracts once. -/
theorem test_frame_HOST_5 :
    (match runCalls [.setup (some .ram) 1000000 100, .executeOne]
        { start 0 0 0 0xFF 0x24 0x0200 [(0x0200, 0xEA)] with cycles := 15000 } with
      | .next (t, returns) => t.cycles == 5002 && returns == [.nothing, .frame true]
      | .fault _ => false
      | .refused _ => false) = true := by decide

/-- GS-1: the snapshot of the end state of program P1. -/
theorem test_getStatus_GS_1 : getStatus (start 0x0F 0x00 0x00 0xFF 0x26 0x020E []) =
    .next ⟨0x0F, 0x00, 0x00, 0xFF, 0x020E, 0x26, 0, 0⟩ := rfl

/-- P5's steps 11 and 12 (95_test_vectors.md): the run ends with PC = E = 0x0209, and the calls after that are not made. -/
theorem test_runUntil_P5_end :
    ((runUntil 0x0209 [.executeOne, .executeOne, .triggerNmi, .executeOne]
      { start 0x01 0xFF 0x00 0xFF 0x20 0x0206 [(0x0206, 0xF0), (0x0207, 0xFC), (0x0208, 0x78), (0x0209, 0x4C),
        (0x020A, 0x09), (0x020B, 0x02)] with cycles := 2, cyclesPerFrame := some 30 }).map
      fun (t, returns) => (t.pc, t.status.p, t.cycles, returns)) =
    some (0x0209, 0x24, 6, [.frame false, .frame false]) := by decide

/-- P5's steps 5 to 7 (95_test_vectors.md), run to 0x0302: the serviced TriggerIRQ between the ExecuteOnes is part of the run. -/
theorem test_runUntil_with_trigger :
    ((runUntil 0x0302 [.executeOne, .triggerIrq, .executeOne, .executeOne]
      { start 0x00 0xFF 0x00 0xFF 0xA0 0x0204 [(0x0204, 0xA5), (0x0205, 0x10), (0x0300, 0xE6), (0x0301, 0x10),
        (0xFFFF, 0x03)] with cycles := 6, cyclesPerFrame := some 30 }).map
      fun (t, returns) => (t.pc, t.status.p, t.cycles, returns)) =
    some (0x0302, 0x24, 21, [.frame false, .serviced true, .frame false]) := by decide

/-! ## Witnesses: the hypotheses of each obligation hold together of a concrete state and operands -/

theorem test_witness_DecodeOfEncode : (Instr.lda (.mem (.abx 0x12FF))).WellFormed := by decide

theorem test_witness_EncodeOfDecode : decode [0x6C, 0xFF, 0x12, 0xEA] = .instr (.jmp (.ind 0x12FF)) [0xEA] := by decide

/-- The ends of the range of rel8 (30_encoding.md R90): +127 and -128 fit, +128 and -129 are refused. -/
theorem test_witness_AssembledBranchReachesTarget : assembleRel 0x0200 0x0281 = some 0x7F ∧
    assembleRel 0x0200 0x0182 = some 0x80 ∧ assembleRel 0x0200 0x0282 = none ∧ assembleRel 0x0200 0x0181 = none := by decide

theorem test_witness_StubBusReadsZeroAndDiscardsWrites : State.created.bus = .stub := rfl

/-- A memory with both ends listed, an address that it does not list beside each, and two distinct addresses. -/
theorem test_witness_PlainMemoryReadsLastWrite : let s := start 0 0 0 0 0 0 [(0x0000, 0x01), (0xFFFF, 0x02)]
    s.PlainMemory ∧ (0xFFFF : Word) ≠ 0x0000 ∧ (0x0001 : Word).toNat ∉ s.mem.map Prod.fst ∧
    (0xFFFE : Word).toNat ∉ s.mem.map Prod.fst := ⟨⟨rfl, by decide⟩, by decide⟩

/-- S at the bottom of the stack page, and an address that is not the pushed one. -/
theorem test_witness_PullUndoesPush : (start 0 0 0 0x00 0 0 []).PlainMemory ∧ (0x01FF : Word) ≠ stackAddress 0x00 := by
  refine ⟨⟨rfl, by decide⟩, by decide⟩

/-- Reset is consistent, and an NMI answers. -/
theorem test_witness_EveryReadReturnsTheLatestWrite : State.reset.Consistent [] ∧
    (∃ t ret, call .triggerNmi State.reset = .next (t, ret)) ∧
    ∀ adapter clockHz rateHz, HostCall.triggerNmi ≠ .setup adapter clockHz rateHz := by
  refine ⟨⟨⟨rfl, by decide⟩, ⟨rfl, rfl, trivial⟩, fun _ => rfl⟩, ⟨_, _, rfl⟩, fun _ _ _ h => by cases h⟩

/-- ASL $FF,X at the page wrap reads and writes 0x0000, and BRK with S = 0x01 pushes across the wrap of S. -/
theorem test_witness_BusCallsAreTheListedOnes :
    (∃ t, exec (.asl (.mem (.zpx 0xFF))) (start 0 0x01 0 0xFF 0 0 []) = .next t) ∧
    busAccesses (.asl (.mem (.zpx 0xFF))) (start 0 0x01 0 0xFF 0 0 []) = [.rd 0x0000, .wr 0x0000] ∧
    (∃ t, exec .brk (start 0 0 0 0x01 0 0 []) = .next t) ∧
    busAccesses .brk (start 0 0 0 0x01 0 0 []) = [.wr 0x0101, .wr 0x0100, .wr 0x01FF, .rd 0xFFFE, .rd 0xFFFF] :=
  ⟨⟨_, rfl⟩, by decide, ⟨_, rfl⟩, by decide⟩

/-- Clauses: an immediate and a memory operand. -/
theorem test_witness_OperandReadChangesNothing : (∃ v, Src.imm 0x42 = .imm v) ∧ ∃ m, Src.mem (.zp 0xFF) = .mem m :=
  ⟨⟨_, rfl⟩, ⟨_, rfl⟩⟩

/-- Both cases of ADC: binary with D = 0 and with D = 1 without `DECIMAL_MODE`, and decimal. -/
theorem test_witness_AdcResult :
    ¬ (State.reset.config.decimalMode = true ∧ State.reset.flags.d = true) ∧
    (let s := { start 0 0 0 0 0x08 0 [] with config := { Config.reference with decimalMode := false } }
     s.flags.d = true ∧ ¬ (s.config.decimalMode = true ∧ s.flags.d = true)) ∧
    ((start 0x45 0 0 0xFF 0x08 0 []).config.decimalMode = true ∧ (start 0x45 0 0 0xFF 0x08 0 []).flags.d = true) := by decide

/-- Both operands valid at the ends of the range, and one that is not. -/
theorem test_witness_DecimalArithmeticIsExact : validBcd 0x99 = true ∧ validBcd 0x00 = true ∧
    ¬ (validBcd 0x0A = true ∧ validBcd 0x00 = true) ∧ dadd 0x99 0x99 true = some (0x99, true) ∧
    dsub 0x00 0x99 false = some (0x00, false) := by decide

/-- Both cases of SBC: binary with D = 0 and with D = 1 without `DECIMAL_MODE`, and decimal; and in decimal an operand that
is valid BCD and one that is not. -/
theorem test_witness_SbcResult :
    ¬ (State.reset.config.decimalMode = true ∧ State.reset.flags.d = true) ∧
    (let s := { start 0 0 0 0 0x08 0 [] with config := { Config.reference with decimalMode := false } }
     s.flags.d = true ∧ ¬ (s.config.decimalMode = true ∧ s.flags.d = true)) ∧
    (let s := start 0x46 0 0 0xFF 0x09 0 []
     (s.config.decimalMode = true ∧ s.flags.d = true) ∧ dsub s.a 0x12 s.flags.c = some (0x34, true) ∧
       dsub s.a 0x0F s.flags.c = none) := by decide

theorem test_witness_ReturnComesBackFromCall : (start 0 0 0 0x00 0 0x0000 []).PlainMemory := ⟨rfl, by decide⟩

/-- The first and the last undefined opcode. -/
theorem test_witness_UndefinedOpcodeIsNoOp : (0x02 : Byte) ∈ undefinedOpcodes ∧ (0xFF : Byte) ∈ undefinedOpcodes := by decide

/-- PLP and BRK, which write B, answer a state and are not PHP. -/
theorem test_witness_BreakFlagIsReadOnlyByPushes : Instr.plp ≠ .php ∧ Instr.brk ≠ .php ∧
    (∃ t, exec .plp State.reset = .next t) ∧ (∃ t, exec .brk State.reset = .next t) ∧
    State.reset.withB true ≠ State.reset := by
  refine ⟨by decide, by decide, ⟨_, rfl⟩, ⟨_, rfl⟩, by decide⟩

/-- NOP answers a state and is in none of the lists of writers. -/
theorem test_witness_OnlyListedInstructionsWriteRegisters : exec .nop State.reset = .next State.reset ∧
    writesA .nop = false ∧ writesX .nop = false ∧ writesY .nop = false ∧ writesS .nop = false ∧ writesPc .nop = false :=
  ⟨rfl, rfl, rfl, rfl, rfl, rfl⟩

theorem test_witness_OnlyListedInstructionsWriteFlags : exec .nop State.reset = .next State.reset ∧
    writesC .nop = false ∧ writesNZ .nop = false ∧ writesI .nop = false ∧ writesD .nop = false ∧ writesB .nop = false ∧
    writesV .nop = false := ⟨rfl, rfl, rfl, rfl, rfl, rfl, rfl⟩

/-- JSR with S = 0 stores at the two ends of the stack page, and not at 0x0200. -/
theorem test_witness_MemoryChangesOnlyAtStoredAddresses : (∃ t, exec (.jsr 0x1234) (start 0 0 0 0x00 0 0 []) = .next t) ∧
    storedAddresses (.jsr 0x1234) (start 0 0 0 0x00 0 0 []) = [0x0100, 0x01FF] ∧
    (0x0200 : Word) ∉ storedAddresses (.jsr 0x1234) (start 0 0 0 0x00 0 0 []) := ⟨⟨_, rfl⟩, by decide, by decide⟩

/-- A decimal-capable instruction with D = 0, and an instruction that is neither ADC, SBC nor undefined. -/
theorem test_witness_InstructionsLeaveTheHostsStateAlone : (∃ t, exec (.adc (.imm 0x01)) State.reset = .next t) ∧
    State.reset.flags.d = false ∧ (∀ src, Instr.nop ≠ .adc src ∧ Instr.nop ≠ .sbc src) ∧
    ∀ op, Instr.nop ≠ .undefined op :=
  ⟨⟨_, rfl⟩, rfl, fun _ => ⟨(fun h => by cases h), (fun h => by cases h)⟩, fun _ h => by cases h⟩

/-- LDA #$42 at PC. -/
theorem test_witness_StepRunsTheDecodedInstruction :
    let s := start 0 0 0 0xFF 0x24 0x0200 [(0x0200, 0xA9), (0x0201, 0x42)]
    s.resetDone = true ∧ s.cyclesPerFrame = some 20000 ∧ (s.fetchBytes 2).1 = [0xA9, 0x42] ∧
    decode [0xA9, 0x42] = .instr (.lda (.imm 0x42)) [] := by decide

/-- PC at the top of memory: the second byte comes from 0x0000. -/
theorem test_witness_FetchTakesTheBytesAtPc :
    let s := start 0 0 0 0xFF 0x24 0xFFFF [(0x0000, 0x42), (0xFFFF, 0xA9)]
    s.PlainMemory ∧ (s.fetchBytes 2).1 = [0xA9, 0x42] := ⟨⟨rfl, by decide⟩, by decide⟩

/-- One state for each clause. -/
theorem test_witness_EveryStepCompletes : State.reset.Ready ∧ State.created.resetDone = false ∧
    (resetCore State.created).resetDone = true ∧ (resetCore State.created).cyclesPerFrame = none :=
  ⟨⟨rfl, fun h => by cases h⟩, rfl, rfl, rfl⟩

/-- A NOP two cycles below the frame, and exactly at it. -/
theorem test_witness_StepAccountsForCycles :
    (∃ t, step { start 0 0 0 0 0 0x0200 [(0x0200, 0xEA)] with cycles := 19997 } = .next t ∧ t.frameSignal = false) ∧
    ∃ t, step { start 0 0 0 0 0 0x0200 [(0x0200, 0xEA)] with cycles := 19998 } = .next t ∧ t.frameSignal = true :=
  ⟨⟨_, rfl, by decide⟩, ⟨_, rfl, by decide⟩⟩

/-- A run of two calls that answers. -/
theorem test_witness_RunsConserveCycles : (∃ t returns, runCalls [.triggerNmi, .executeOne] State.reset = .next (t, returns)) ∧
    ∀ c ∈ [HostCall.triggerNmi, .executeOne], keepsTiming c = true := by
  refine ⟨⟨_, _, rfl⟩, by decide⟩

/-- Two NOPs with 4 cycles per frame: one signal, residual 0. -/
theorem test_witness_FrameCountingIsExact :
    let s := { start 0 0 0 0 0 0x0200 [(0x0200, 0xEA), (0x0201, 0xEA)] with cyclesPerFrame := some 4 }
    s.cycles = 0 ∧ GapsFit 4 0 ([.executeOne] ++ [.executeOne]) s ∧ runCost ([.executeOne] ++ [.executeOne]) s = 1 * 4 + 0 ∧
    ∃ t returns, runCalls ([.executeOne] ++ [.executeOne]) s = .next (t, returns) ∧ frameSignals returns = 1 := by
  refine ⟨rfl, ⟨by decide, by decide, trivial⟩, by decide, _, _, rfl, by decide⟩

/-- Two states that differ in their counters; ExecuteOne answers on both, and so does TriggerIRQ. -/
theorem test_witness_CountersAreNotObserved :
    let s' : State := { State.reset with cycles := 19999, cyclesPerFrame := some 1, undefCount := 7 }
    State.reset ≠ s' ∧ State.reset.withoutCounters = s'.withoutCounters ∧
    (∃ t ret, call .executeOne State.reset = .next (t, ret)) ∧ (∃ t ret, call .executeOne s' = .next (t, ret)) ∧
    (∃ t, call .triggerIrq State.reset = .next (t, .serviced false)) ∧ ∃ t ret, call .triggerIrq s' = .next (t, ret) :=
  ⟨by decide, rfl, ⟨_, _, rfl⟩, ⟨_, _, rfl⟩, ⟨_, rfl⟩, ⟨_, _, rfl⟩⟩

/-- A state for each clause: before Reset, after it with I = 1, and with I = 0. -/
theorem test_witness_TriggerIrqIsGatedByI : State.created.resetDone = false ∧ State.reset.resetDone = true ∧ State.reset.flags.i = true ∧
    (start 0 0 0 0xFF 0x00 0x0400 []).resetDone = true ∧ (start 0 0 0 0xFF 0x00 0x0400 []).flags.i = false := by decide

/-- An NMI with I = 1 and an IRQ with I = 0 both answer on plain memory. -/
theorem test_witness_ReturnResumesTheInterruptedCode : State.reset.PlainMemory ∧
    (∃ t ret, call .triggerNmi State.reset = .next (t, ret)) ∧ (start 0 0 0 0xFF 0x00 0x0400 []).PlainMemory ∧
    (start 0 0 0 0xFF 0x00 0x0400 []).flags.i = false ∧
    ∃ t ret, call .triggerIrq (start 0 0 0 0xFF 0x00 0x0400 []) = .next (t, ret) :=
  ⟨⟨rfl, by decide⟩, ⟨_, _, rfl⟩, ⟨rfl, by decide⟩, by decide, ⟨_, _, rfl⟩⟩

theorem test_witness_ReturnComesBackFromBreak : (start 0 0 0 0x01 0x00 0xFFFF []).PlainMemory := ⟨rfl, by decide⟩

/-- I = 0 on plain memory with S at the wrap, and I = 1. -/
theorem test_witness_OrderOfTriggersDecides : let s := start 0 0 0 0x02 0x00 0x0400 []
    s.PlainMemory ∧ s.resetDone = true ∧ s.flags.i = false ∧ State.reset.resetDone = true ∧ State.reset.flags.i = true :=
  ⟨⟨rfl, by decide⟩, rfl, by decide⟩

/-- Rate 1, rate 0, and no adapter at both (40_execution_cycle.md R106). -/
theorem test_witness_SetupStoresAdapterAndTiming : 0 < 1 ∧
    setup (some .ram) 30 1 State.created = .next { State.created with bus := .ram, cyclesPerFrame := some 30 } ∧
    setup (some .ram) 30 0 State.created = .refused .zeroFrameRate ∧
    setup none 30 1 State.created = .refused .invalidAdapter ∧
    setup none 30 0 State.created = .refused .invalidAdapter := ⟨by decide, rfl, rfl, rfl, rfl⟩

theorem test_witness_GetStatusIsAPureRead : State.reset.resetDone = true := rfl

theorem test_witness_TriggerNmiAlwaysEnters : State.created.resetDone = false ∧ State.reset.resetDone = true := ⟨rfl, rfl⟩

theorem test_witness_ResetInstallsConfiguredValues : State.created.bus = .stub := rfl

theorem test_witness_CallsBeforeResetAreRefused : State.created.resetDone = false ∧
    HostCall.getStatus ∈ [HostCall.executeOne, .triggerNmi, .triggerIrq, .getStatus] := by decide

theorem test_witness_StepKeepsInvariant : State.reset.Inv ∧ ∃ t, step State.reset = .next t :=
  ⟨⟨⟨rfl, fun h => by cases h⟩, by decide⟩, ⟨_, rfl⟩⟩

theorem test_witness_HostCallsKeepInvariant : State.reset.Inv ∧
    ∃ t returns, runCalls [.triggerNmi, .executeOne] State.reset = .next (t, returns) :=
  ⟨⟨⟨rfl, fun h => by cases h⟩, by decide⟩, ⟨_, _, rfl⟩⟩

end Sys2Proof.Tests
end

section
/-!
SUPPORT. Noninterference: two states that agree in all that instructions work on (and in B, where B is held to be seen)
are taken to such states by every operation, every instruction and every host call. Settles O47.
-/

namespace Sys2Proof.Machine

/-! ## Agreement -/

/-- Two sets of flags agree but for B, and in B too where `sameB` holds (10_state.md R25, R26). -/
structure FlagsAgree (sameB : Prop) (f f' : Flags) : Prop where
  n : f.n = f'.n
  v : f.v = f'.v
  d : f.d = f'.d
  i : f.i = f'.i
  z : f.z = f'.z
  c : f.c = f'.c
  b : sameB → f.b = f'.b

/-- Two states agree in every field but the counters and the frame signal, and in B where `sameB` holds. -/
structure Agree (sameB : Prop) (s s' : State) : Prop where
  a : s.a = s'.a
  x : s.x = s'.x
  y : s.y = s'.y
  sp : s.sp = s'.sp
  pc : s.pc = s'.pc
  flags : FlagsAgree sameB s.flags s'.flags
  bus : s.bus = s'.bus
  mem : s.mem = s'.mem
  busLog : s.busLog = s'.busLog
  resetDone : s.resetDone = s'.resetDone
  draws : s.draws = s'.draws
  config : s.config = s'.config

variable {sameB : Prop} {f f' : Flags} {s s' t t' : State} {v v' : Byte} {w w' : Word}

theorem FlagsAgree.of_eq (h : f = f') : FlagsAgree sameB f f' :=
  h ▸ ⟨rfl, rfl, rfl, rfl, rfl, rfl, fun _ => rfl⟩

/-- Flags that agree in B too are equal. -/
theorem FlagsAgree.eq (h : FlagsAgree sameB f f') (hb : sameB) : f = f' := by
  obtain ⟨hn, hv, hd, hi, hz, hc, hB⟩ := h
  cases f
  cases f'
  simp_all

/-- States that agree in B too are those that are equal without their counters. -/
theorem agree_iff_withoutCounters : Agree True s s' ↔ s.withoutCounters = s'.withoutCounters := by
  constructor
  · rintro ⟨ha, hx, hy, hsp, hpc, hf, hbus, hmem, hlog, hreset, hdraws, hconfig⟩
    simp [State.withoutCounters, ha, hx, hy, hsp, hpc, hf.eq trivial, hbus, hmem, hlog, hreset, hdraws, hconfig]
  · intro h
    simp only [State.withoutCounters, State.mk.injEq] at h
    obtain ⟨ha, hx, hy, hsp, hpc, hf, -, -, hbus, -, hmem, hlog, hreset, hdraws, -, hconfig⟩ := h
    exact ⟨ha, hx, hy, hsp, hpc, .of_eq hf, hbus, hmem, hlog, hreset, hdraws, hconfig⟩

/-- Agreement in B too is agreement. -/
theorem Agree.weaken (h : Agree True s s') : Agree sameB s s' :=
  { h with flags := .of_eq (h.flags.eq trivial) }

/-! ## Flags -/

namespace FlagsAgree

variable (h : FlagsAgree sameB f f')
include h

theorem setNZ (hv : v = v') : FlagsAgree sameB (f.setNZ v) (f'.setNZ v') := by
  subst hv
  exact { h with n := rfl, z := rfl }

theorem compare (hv : v = v') {m m' : Byte} (hm : m = m') : FlagsAgree sameB (f.compare v m) (f'.compare v' m') := by
  subst hv hm
  exact { h with n := rfl, z := rfl, c := rfl }

theorem bitTest (hv : v = v') {m m' : Byte} (hm : m = m') : FlagsAgree sameB (f.bitTest v m) (f'.bitTest v' m') := by
  subst hv hm
  exact { h with n := rfl, z := rfl, v := rfl }

end FlagsAgree

/-- A read-modify-write function that neither reads nor changes B (45_inc_dec_shift.md R200, R201, R206 to R209). -/
def IgnoresB (m : Modify) : Prop :=
  ∀ sameB v f f', FlagsAgree sameB f f' → (m v f).1 = (m v f').1 ∧ FlagsAgree sameB (m v f).2 (m v f').2

theorem incByte_ignoresB : IgnoresB incByte := fun _ _ _ _ h => ⟨rfl, h⟩
theorem decByte_ignoresB : IgnoresB decByte := fun _ _ _ _ h => ⟨rfl, h⟩
theorem aslByte_ignoresB : IgnoresB aslByte := fun _ _ _ _ h => ⟨rfl, { h with c := rfl }⟩
theorem lsrByte_ignoresB : IgnoresB lsrByte := fun _ _ _ _ h => ⟨rfl, { h with c := rfl }⟩
theorem rolByte_ignoresB : IgnoresB rolByte := fun _ _ _ _ h => ⟨by simp [rolByte, h.c], { h with c := rfl }⟩
theorem rorByte_ignoresB : IgnoresB rorByte := fun _ _ _ _ h => ⟨by simp [rorByte, h.c], { h with c := rfl }⟩

/-! ## Setters, the bus and the stack -/

namespace Agree

variable (h : Agree sameB s s')
include h

theorem setA (hv : v = v') : Agree sameB (s.setA v) (s'.setA v') := { h with a := hv }
theorem setX (hv : v = v') : Agree sameB (s.setX v) (s'.setX v') := { h with x := hv }
theorem setY (hv : v = v') : Agree sameB (s.setY v) (s'.setY v') := { h with y := hv }
theorem setSp (hv : v = v') : Agree sameB (s.setSp v) (s'.setSp v') := { h with sp := hv }
theorem setPc (hw : w = w') : Agree sameB (s.setPc w) (s'.setPc w') := { h with pc := hw }
theorem setDraws {k k' : Nat} (hk : k = k') : Agree sameB (s.setDraws k) (s'.setDraws k') := { h with draws := hk }

theorem setFlags {p : Prop} (hf : FlagsAgree p f f') : Agree p (s.setFlags f) (s'.setFlags f') := { h with flags := hf }

theorem setNZ (hv : v = v') : Agree sameB (s.setNZ v) (s'.setNZ v') := h.setFlags (h.flags.setNZ hv)

theorem busAnswer (hw : w = w') : s.busAnswer w = s'.busAnswer w' := by
  simp only [State.busAnswer, h.bus, h.mem, h.busLog, hw]

theorem memRead (hw : w = w') : Agree sameB (s.memRead w).2 (s'.memRead w').2 := by
  subst hw
  exact { h with busLog := by simp [h.busAnswer rfl, h.busLog] }

theorem memWrite (hw : w = w') (hv : v = v') : Agree sameB (s.memWrite w v) (s'.memWrite w' v') :=
  { h with
    mem := by simp [State.memAfterWrite_eq, h.bus, h.mem, hw, hv]
    busLog := by simp [h.busLog, hw, hv] }

theorem read16 (hw : w = w') :
    (s.read16 w).1 = (s'.read16 w').1 ∧ Agree sameB (s.read16 w).2 (s'.read16 w').2 :=
  have hlo := h.memRead hw
  have hw1 : w + 1#16 = w' + 1#16 := by rw [hw]
  ⟨congrArg₂ wordOf (h.busAnswer hw) (hlo.busAnswer hw1), hlo.memRead hw1⟩

theorem fetch8 : s.fetch8.1 = s'.fetch8.1 ∧ Agree sameB s.fetch8.2 s'.fetch8.2 :=
  ⟨h.busAnswer h.pc, (h.memRead h.pc).setPc (by simp [h.pc])⟩

theorem push8 (hv : v = v') : Agree sameB (s.push8 v) (s'.push8 v') :=
  (h.memWrite (congrArg stackAddress h.sp) hv).setSp (by simp [h.sp])

theorem pull8 : s.pull8.1 = s'.pull8.1 ∧ Agree sameB s.pull8.2 s'.pull8.2 :=
  have hs := h.setSp (congrArg (· + 1#8) h.sp)
  ⟨hs.busAnswer (congrArg stackAddress hs.sp), hs.memRead (congrArg stackAddress hs.sp)⟩

theorem zeroPagePointer {p p' : Byte} (hp : p = p') :
    (s.zeroPagePointer p).1 = (s'.zeroPagePointer p').1 ∧
      Agree sameB (s.zeroPagePointer p).2 (s'.zeroPagePointer p').2 := by
  subst hp
  have hlo := h.memRead (rfl : zext16 p = zext16 p)
  exact ⟨congrArg₂ wordOf (h.busAnswer rfl) (hlo.busAnswer rfl), hlo.memRead rfl⟩

theorem ea (m : Mem) : (s.ea m).1 = (s'.ea m).1 ∧ Agree sameB (s.ea m).2 (s'.ea m).2 := by
  cases m with
  | zp a | abs a => exact ⟨rfl, h⟩
  | zpx a | abx a => exact ⟨by simp [State.ea, h.x], h⟩
  | zpy a | aby a => exact ⟨by simp [State.ea, h.y], h⟩
  | izx a => exact h.zeroPagePointer (by rw [h.x])
  | izy a =>
    obtain ⟨hp, hs⟩ := h.zeroPagePointer (rfl : a = a)
    exact ⟨by simp only [State.ea, hp, hs.y], hs⟩

theorem load (src : Src) : (s.load src).1 = (s'.load src).1 ∧ Agree sameB (s.load src).2 (s'.load src).2 := by
  cases src with
  | imm v => exact ⟨rfl, h⟩
  | mem m =>
    obtain ⟨ha, hs⟩ := h.ea m
    exact ⟨hs.busAnswer ha, hs.memRead ha⟩

theorem store (m : Mem) (hv : v = v') : Agree sameB (s.store m v) (s'.store m v') :=
  (h.ea m).2.memWrite (h.ea m).1 hv

theorem jumpTarget (g : Target) :
    (s.jumpTarget g).1 = (s'.jumpTarget g).1 ∧ Agree sameB (s.jumpTarget g).2 (s'.jumpTarget g).2 := by
  cases g with
  | abs a => exact ⟨rfl, h⟩
  | ind p =>
    have hlo := h.memRead (rfl : p = p)
    have hp : jmpIndHighAddress (s.memRead p).2.config.jmpIndPageWrap p =
        jmpIndHighAddress (s'.memRead p).2.config.jmpIndPageWrap p := by rw [hlo.config]
    exact ⟨congrArg₂ wordOf (h.busAnswer rfl) (hlo.busAnswer hp), hlo.memRead hp⟩

/-! ## The shared effects of the instructions -/

theorem modifyNZ (dst : Dst) {m : Modify} (hm : IgnoresB m) : Agree sameB (s.modifyNZ dst m) (s'.modifyNZ dst m) := by
  cases dst with
  | acc =>
    obtain ⟨hr, hf⟩ := hm sameB s'.a _ _ h.flags
    rw [State.modifyNZ_acc, State.modifyNZ_acc, h.a]
    exact (h.setA hr).setFlags (hf.setNZ hr)
  | mem d =>
    obtain ⟨hv, hs⟩ := h.load (.mem d)
    obtain ⟨hr, hf⟩ := hm sameB (s'.load (.mem d)).1 _ _ h.flags
    rw [State.modifyNZ_mem, State.modifyNZ_mem, ← State.load_mem, ← State.load_mem]
    simp only [hv]
    exact (hs.memWrite (h.ea d).1 hr).setFlags (hf.setNZ hr)

theorem branch {taken taken' : Bool} (hc : taken = taken') (rel : Byte) :
    Agree sameB (s.branch taken rel) (s'.branch taken' rel) := by
  subst hc
  cases taken
  · exact h
  · exact h.setPc (by rw [h.pc])

theorem writeSum {sum sum' : Sum} (hr : sum = sum') : Agree sameB (s.writeSum sum) (s'.writeSum sum') := by
  subst hr
  have hf : FlagsAgree sameB { s.flags with c := sum.cout, v := sum.v } { s'.flags with c := sum.cout, v := sum.v } :=
    { h.flags with c := rfl, v := rfl }
  exact ((h.setA rfl).setFlags hf).setNZ rfl

theorem writeLogic (hv : v = v') : Agree sameB (s.writeLogic v) (s'.writeLogic v') := (h.setA hv).setNZ hv

theorem writeDecimal {o o' : Option (Byte × Bool)} (ho : o = o') :
    Agree sameB (s.writeDecimal o) (s'.writeDecimal o') := by
  subst ho
  obtain _ | ⟨r, c⟩ := o
  · simp only [State.writeDecimal_none, h.draws]
    exact ((h.setA rfl).setDraws rfl).setFlags { h.flags with c := rfl, n := rfl, z := rfl, v := rfl }
  · simp only [State.writeDecimal_some, h.draws]
    exact ((h.setA rfl).setDraws rfl).setFlags { h.flags with c := rfl, n := rfl, z := rfl, v := rfl }

theorem decimal : s.decimal = s'.decimal := by simp only [State.decimal, h.config, h.flags.d]

theorem returnFromInterrupt : Agree sameB s.returnFromInterrupt s'.returnFromInterrupt := by
  obtain ⟨hb, h⟩ := h.pull8
  obtain ⟨hlo, h⟩ := (h.setFlags (.of_eq (congrArg Flags.unpack hb))).pull8
  obtain ⟨hhi, h⟩ := h.pull8
  exact h.setPc (congrArg₂ wordOf hlo hhi)

end Agree

/-- An interrupt entry pushes B, so it keeps agreement in B too (60_exceptions.md R304). -/
theorem Agree.interruptEntry (h : Agree True s s') (vector : Word) :
    Agree True (s.interruptEntry vector) (s'.interruptEntry vector) := by
  have hf := h.flags.eq trivial
  have pushed := ((h.push8 (congrArg highByte h.pc)).push8 (congrArg lowByte h.pc)).push8 (congrArg Flags.pack hf)
  have entered : Agree True s.entered s'.entered := pushed.setFlags (.of_eq (by rw [hf]))
  rw [State.interruptEntry_eq, State.interruptEntry_eq]
  exact (entered.read16 rfl).2.setPc (entered.read16 rfl).1

/-! ## Instructions, steps and host calls -/

/-- ADC and SBC: the operands, the carry and the mode are the same, so what they write is. -/
theorem Agree.addOrSubtract (h : Agree sameB s s') (src : Src) (dec : Byte → Byte → Bool → Option (Byte × Bool))
    (bin : Byte → Byte → Bool → Sum) :
    Agree sameB
      (if s.decimal then (s.load src).2.writeDecimal (dec s.a (s.load src).1 s.flags.c)
        else (s.load src).2.writeSum (bin s.a (s.load src).1 s.flags.c))
      (if s'.decimal then (s'.load src).2.writeDecimal (dec s'.a (s'.load src).1 s'.flags.c)
        else (s'.load src).2.writeSum (bin s'.a (s'.load src).1 s'.flags.c)) := by
  obtain ⟨hv, hs⟩ := h.load src
  rw [h.decimal, h.a, h.flags.c, hv]
  split
  · exact hs.writeDecimal rfl
  · exact hs.writeSum rfl

/-- Every instruction keeps agreement; only PHP, which pushes the B it finds, needs agreement in B for it
(10_state.md R26). -/
theorem Agree.exec (h : Agree sameB s s') {i : Instr} (hi : i = .php → sameB) (e : exec i s = .next t)
    (e' : exec i s' = .next t') : Agree sameB t t' := by
  cases i with
  | lda src => cases e; cases e'; exact ((h.load src).2.setA (h.load src).1).setNZ (h.load src).1
  | ldx src => cases e; cases e'; exact ((h.load src).2.setX (h.load src).1).setNZ (h.load src).1
  | ldy src => cases e; cases e'; exact ((h.load src).2.setY (h.load src).1).setNZ (h.load src).1
  | sta m => cases e; cases e'; exact h.store m h.a
  | stx m => cases e; cases e'; exact h.store m h.x
  | sty m => cases e; cases e'; exact h.store m h.y
  | tax => cases e; cases e'; exact (h.setX h.a).setNZ h.a
  | tay => cases e; cases e'; exact (h.setY h.a).setNZ h.a
  | txa => cases e; cases e'; exact (h.setA h.x).setNZ h.x
  | tya => cases e; cases e'; exact (h.setA h.y).setNZ h.y
  | tsx => cases e; cases e'; exact (h.setX h.sp).setNZ h.sp
  | txs => cases e; cases e'; exact h.setSp h.x
  | pha => cases e; cases e'; exact h.push8 h.a
  | php => cases e; cases e'; exact h.push8 (congrArg Flags.pack (h.flags.eq (hi rfl)))
  | pla => cases e; cases e'; exact (h.pull8.2.setA h.pull8.1).setNZ h.pull8.1
  | plp => cases e; cases e'; exact h.pull8.2.setFlags (.of_eq (congrArg Flags.unpack h.pull8.1))
  | adc src =>
    rw [exec_adc, Host.Outcome.next.injEq] at e e'
    subst e e'
    exact h.addOrSubtract src dadd add8
  | sbc src =>
    rw [exec_sbc, Host.Outcome.next.injEq] at e e'
    subst e e'
    exact h.addOrSubtract src dsub fun a m => add8 a (m ^^^ 0xFF#8)
  | and src | ora src | eor src =>
    simp only [exec_and, exec_ora, exec_eor, Host.Outcome.next.injEq] at e e'
    subst e e'
    obtain ⟨hv, hs⟩ := h.load src
    exact hs.writeLogic (by rw [h.a, hv])
  | cmp src =>
    cases e; cases e'
    obtain ⟨hv, hs⟩ := h.load src
    exact hs.setFlags (hs.flags.compare hs.a hv)
  | cpx src =>
    cases e; cases e'
    obtain ⟨hv, hs⟩ := h.load src
    exact hs.setFlags (hs.flags.compare hs.x hv)
  | cpy src =>
    cases e; cases e'
    obtain ⟨hv, hs⟩ := h.load src
    exact hs.setFlags (hs.flags.compare hs.y hv)
  | bit m =>
    cases e; cases e'
    obtain ⟨hv, hs⟩ := h.load (.mem m)
    exact hs.setFlags (hs.flags.bitTest hs.a hv)
  | inc m => cases e; cases e'; exact h.modifyNZ (.mem m) incByte_ignoresB
  | dec m => cases e; cases e'; exact h.modifyNZ (.mem m) decByte_ignoresB
  | inx | dex => cases e; cases e'; exact (h.setX (by rw [h.x])).setNZ (by rw [h.x])
  | iny | dey => cases e; cases e'; exact (h.setY (by rw [h.y])).setNZ (by rw [h.y])
  | asl d => cases e; cases e'; exact h.modifyNZ d aslByte_ignoresB
  | lsr d => cases e; cases e'; exact h.modifyNZ d lsrByte_ignoresB
  | rol d => cases e; cases e'; exact h.modifyNZ d rolByte_ignoresB
  | ror d => cases e; cases e'; exact h.modifyNZ d rorByte_ignoresB
  | jmp target => cases e; cases e'; exact (h.jumpTarget target).2.setPc (h.jumpTarget target).1
  | jsr target =>
    cases e; cases e'
    have hret := congrArg (· - 1#16) h.pc
    exact ((h.push8 (congrArg highByte hret)).push8 (congrArg lowByte hret)).setPc rfl
  | rts =>
    cases e; cases e'
    obtain ⟨hlo, hs⟩ := h.pull8
    obtain ⟨hhi, hs⟩ := hs.pull8
    exact hs.setPc (congrArg (· + 1#16) (congrArg₂ wordOf hlo hhi))
  | rti => cases e; cases e'; exact h.returnFromInterrupt
  | brk =>
    cases e; cases e'
    have hb : FlagsAgree True { s.flags with b := true } { s'.flags with b := true } :=
      { h.flags with b := fun _ => rfl }
    exact (((h.setPc (congrArg (· + 1#16) h.pc)).setFlags hb).interruptEntry irqVector).weaken
  | bcc rel | bcs rel => cases e; cases e'; exact h.branch (by rw [h.flags.c]) rel
  | beq rel | bne rel => cases e; cases e'; exact h.branch (by rw [h.flags.z]) rel
  | bmi rel | bpl rel => cases e; cases e'; exact h.branch (by rw [h.flags.n]) rel
  | bvc rel | bvs rel => cases e; cases e'; exact h.branch (by rw [h.flags.v]) rel
  | clc | sec => cases e; cases e'; exact { h with flags := { h.flags with c := rfl } }
  | cli | sei => cases e; cases e'; exact { h with flags := { h.flags with i := rfl } }
  | cld | sed => cases e; cases e'; exact { h with flags := { h.flags with d := rfl } }
  | clv => cases e; cases e'; exact { h with flags := { h.flags with v := rfl } }
  | nop => cases e; cases e'; exact h
  | undefined op => cases e; cases e'; exact { h with }

theorem Agree.fetchInstr (h : Agree sameB s s') :
    s.fetchInstr.1 = s'.fetchInstr.1 ∧ Agree sameB s.fetchInstr.2 s'.fetchInstr.2 := by
  obtain ⟨hop, h1⟩ := h.fetch8
  obtain ⟨hb1, h2⟩ := h1.fetch8
  obtain ⟨hb2, h3⟩ := h2.fetch8
  rcases entryOf_length s.fetch8.1 with hl | hl | hl
  · rw [s.fetchInstr_one hl, s'.fetchInstr_one (hop ▸ hl), hop]
    exact ⟨rfl, h1⟩
  · rw [s.fetchInstr_two hl, s'.fetchInstr_two (hop ▸ hl), hop, hb1]
    exact ⟨rfl, h2⟩
  · rw [s.fetchInstr_three hl, s'.fetchInstr_three (hop ▸ hl), hop, hb1, hb2]
    exact ⟨rfl, h3⟩

/-- ExecuteOne keeps agreement: the cost and the frame test write only counters (40_execution_cycle.md R102, R103). -/
theorem Agree.step (h : Agree True s s') (e : step s = .next t) (e' : step s' = .next t') : Agree True t t' := by
  obtain ⟨-, frame, u, -, hu, rfl⟩ := step_next e
  obtain ⟨-, frame', u', -, hu', rfl⟩ := step_next e'
  obtain ⟨hi, hs⟩ := h.fetchInstr
  rw [← hi] at hu'
  have after : Agree True u u' := hs.exec (fun _ => trivial) hu hu'
  rw [State.frameTest_eq, State.frameTest_eq]
  exact { after with }

theorem Agree.resetCore (h : Agree True s s') : Agree True (resetCore s) (resetCore s') := by
  have hr : Agree True s.withResetValues s'.withResetValues :=
    { h with
      a := congrArg Config.resetA h.config
      x := congrArg Config.resetX h.config
      y := congrArg Config.resetY h.config
      sp := congrArg Config.resetS h.config
      flags := .of_eq (congrArg Config.resetFlags h.config)
      resetDone := rfl }
  exact (hr.read16 rfl).2.setPc (hr.read16 rfl).1

/-- A serviced interrupt keeps agreement: its cost is written to a counter only (60_exceptions.md R313). -/
theorem Agree.serviced (h : Agree True s s') (vector : Word) (cost cost' : Nat) :
    Agree True ((s.interruptEntry vector).addCycles cost) ((s'.interruptEntry vector).addCycles cost') :=
  { h.interruptEntry vector with }

/-- Every host call keeps agreement, and services an IRQ in both states or in neither. -/
theorem Agree.call (h : Agree True s s') {c : HostCall} {ret ret' : HostReturn} (e : call c s = .next (t, ret))
    (e' : call c s' = .next (t', ret')) :
    Agree True t t' ∧ ∀ taken, ret = .serviced taken → ret' = .serviced taken := by
  have k := call_next e
  have k' := call_next e'
  cases c <;> simp only [HostCall.setup.injEq, reduceCtorEq, true_and, false_and, and_assoc, exists_and_left,
    exists_eq_left', exists_false, false_or, or_false] at k k'
  case setup adapter clockHz rateHz =>
    obtain ⟨bus, rfl, -, rfl, rfl⟩ := k
    obtain ⟨bus', hb, -, rfl, rfl⟩ := k'
    cases hb
    exact ⟨{ h with bus := rfl }, nofun⟩
  case reset =>
    obtain ⟨rfl, rfl⟩ := k
    obtain ⟨rfl, rfl⟩ := k'
    exact ⟨h.resetCore, nofun⟩
  case executeOne =>
    obtain ⟨rfl, hs⟩ := k
    obtain ⟨rfl, hs'⟩ := k'
    exact ⟨h.step hs hs', nofun⟩
  case triggerNmi =>
    obtain ⟨rfl, -, rfl⟩ := k
    obtain ⟨rfl, -, rfl⟩ := k'
    exact ⟨h.serviced nmiVector _ _, nofun⟩
  case triggerIrq =>
    rw [← h.flags.i] at k'
    obtain ⟨rfl, -, hi, rfl⟩ | ⟨rfl, -, hi, rfl⟩ := k
    · obtain ⟨rfl, -, -, rfl⟩ | ⟨-, -, hi', -⟩ := k'
      · exact ⟨h.serviced irqVector _ _, fun _ => id⟩
      · simp [hi] at hi'
    · obtain ⟨-, -, hi', -⟩ | ⟨rfl, -, -, rfl⟩ := k'
      · simp [hi] at hi'
      · exact ⟨h, fun _ => id⟩
  case getStatus =>
    obtain ⟨rfl, -, rfl⟩ := k
    obtain ⟨rfl, -, rfl⟩ := k'
    exact ⟨h, nofun⟩

/-- Settles O47: equal without counters is agreement, B included, and every host call keeps that. -/
theorem countersAreNotObserved : Obligations.CountersAreNotObserved := by
  intro c s s' t t' ret ret' h e e'
  obtain ⟨hagree, hirq⟩ := (agree_iff_withoutCounters.mpr h).call e e'
  exact ⟨agree_iff_withoutCounters.mp hagree, hirq⟩

end Sys2Proof.Machine
end

section
/-!
SUPPORT. Frames of the instructions: what they leave alone of the host's state and of the registers. Where a case is one
`simp`, the instruction's `exec_` equation names the operations it is made of, and each of these keeps the field by a
lemma of Laws/. Settles O40 and O37.
-/

namespace Sys2Proof.Machine

/-! ## The host's state -/

/-- No instruction writes what belongs to the host (10_state.md R33 to R35, R40). -/
theorem exec_keeps_host (i : Instr) (s : State) : ∀ t, exec i s = .next t →
    t.cycles = s.cycles ∧ t.cyclesPerFrame = s.cyclesPerFrame ∧ t.bus = s.bus ∧ t.config = s.config ∧
    t.resetDone = s.resetDone ∧ t.frameSignal = s.frameSignal := by
  cases i with
  | adc src | sbc src =>
    simp only [exec_adc, exec_sbc, Host.Outcome.next.injEq, forall_eq']
    split <;> simp
  | asl d | lsr d | rol d | ror d => cases d <;> simp
  | _ => simp

/-- Only an undefined opcode raises `undef_count` (10_state.md R36). -/
theorem exec_undefCount {i : Instr} (hi : ∀ op, i ≠ .undefined op) (s : State) : ∀ t, exec i s = .next t →
    t.undefCount = s.undefCount := by
  cases i with
  | undefined op => exact absurd rfl (hi op)
  | adc src | sbc src =>
    simp only [exec_adc, exec_sbc, Host.Outcome.next.injEq, forall_eq']
    split <;> simp
  | asl d | lsr d | rol d | ror d => cases d <;> simp
  | _ => simp

/-- Binary mode takes no free value (00_scope.md R9, 44_arith_logic.md R183, R184). -/
theorem State.not_decimal {s : State} (h : s.flags.d = false ∨ s.config.decimalMode = false) : s.decimal = false := by
  rcases h with h | h <;> simp [State.decimal, h]

/-- Only a decimal ADC or SBC takes free values (00_scope.md R9, log entry 7). -/
theorem exec_draws {i : Instr} {s : State}
    (h : (∀ src, i ≠ .adc src ∧ i ≠ .sbc src) ∨ s.flags.d = false ∨ s.config.decimalMode = false) :
    ∀ t, exec i s = .next t → t.draws = s.draws := by
  cases i with
  | adc src =>
    have hbinary := State.not_decimal (h.resolve_left fun hi => (hi src).1 rfl)
    simp [exec_adc, hbinary]
  | sbc src =>
    have hbinary := State.not_decimal (h.resolve_left fun hi => (hi src).2 rfl)
    simp [exec_sbc, hbinary]
  | asl d | lsr d | rol d | ror d => cases d <;> simp
  | _ => simp

/-- Settles O40, by the frames of the host's fields, of `undef_count` and of the draws. -/
theorem instructionsLeaveTheHostsStateAlone : Obligations.InstructionsLeaveTheHostsStateAlone := by
  intro i s t e
  obtain ⟨hcycles, hframe, hbus, hconfig, hreset, hsignal⟩ := exec_keeps_host i s t e
  exact ⟨hcycles, hframe, hbus, hconfig, hreset, hsignal, fun hi => exec_undefCount hi s t e,
    fun h => exec_draws h t e⟩

/-! ## The registers -/

/-- Settles O37, instruction by instruction. -/
theorem onlyListedInstructionsWriteRegisters : Obligations.OnlyListedInstructionsWriteRegisters := by
  intro i s
  cases i with
  | adc src | sbc src =>
    simp only [exec_adc, exec_sbc, Host.Outcome.next.injEq, forall_eq']
    split <;> simp [writesA]
  | asl d | lsr d | rol d | ror d => cases d <;> simp [writesA]
  | _ => simp [writesA, writesX, writesY, writesS, writesPc]

end Sys2Proof.Machine
end

section
/-!
SUPPORT. That the break flag reaches software only by a push. Settles O36.
-/

namespace Sys2Proof.Machine

variable {s t u : State}

/-- A state whose B is overwritten agrees with itself but for B. -/
theorem agree_withB (s : State) (b : Bool) : Agree False s (s.withB b) :=
  ⟨rfl, rfl, rfl, rfl, rfl, ⟨rfl, rfl, rfl, rfl, rfl, rfl, False.elim⟩, rfl, rfl, rfl, rfl, rfl, rfl⟩

/-- States that agree but for B, with the same counters and frame signal, are equal once B is cleared. -/
theorem Agree.withB_eq (h : Agree False t u) (hcycles : t.cycles = u.cycles)
    (hframe : t.cyclesPerFrame = u.cyclesPerFrame) (hundef : t.undefCount = u.undefCount)
    (hsignal : t.frameSignal = u.frameSignal) (b : Bool) : t.withB b = u.withB b := by
  obtain ⟨ha, hx, hy, hsp, hpc, ⟨hn, hv, hd, hi, hz, hc, -⟩, hbus, hmem, hlog, hreset, hdraws, hconfig⟩ := h
  simp [State.withB, *]

/-- What an instruction leaves in `undef_count` depends only on what it finds there (10_state.md R36). -/
theorem exec_undefCount_congr {i : Instr} {s' t' : State} (e : exec i s = .next t) (e' : exec i s' = .next t')
    (h : s.undefCount = s'.undefCount) : t.undefCount = t'.undefCount := by
  by_cases hi : ∃ op, i = .undefined op
  · obtain ⟨op, rfl⟩ := hi
    cases e
    cases e'
    simp [h]
  · have hi : ∀ op, i ≠ .undefined op := not_exists.mp hi
    rw [exec_undefCount hi s t e, exec_undefCount hi s' t' e', h]

/-- Settles O36: the two executions agree but for B, and the counters are framed or, for an undefined opcode, raised
alike. -/
theorem breakFlagIsReadOnlyByPushes : Obligations.BreakFlagIsReadOnlyByPushes := by
  intro i s t b hi e
  obtain ⟨u, e'⟩ := exec_completes (s.withB b) i
  obtain ⟨hcycles, hframe, -, -, -, hsignal⟩ := exec_keeps_host i s t e
  obtain ⟨hcycles', hframe', -, -, -, hsignal'⟩ := exec_keeps_host i (s.withB b) u e'
  have hagree : Agree False t u := (agree_withB s b).exec (absurd · hi) e e'
  exact ⟨u, e', (hagree.withB_eq (hcycles.trans hcycles'.symm) (hframe.trans hframe'.symm)
    (exec_undefCount_congr e e' rfl) (hsignal.trans hsignal'.symm) false).symm⟩

end Sys2Proof.Machine
end

section
/-!
SUPPORT. The status byte, the bytes fetched from plain memory, and the calls refused before the first Reset. Settles O34,
O35, O42 and O57.
-/

namespace Sys2Proof.Machine

/-! ## The status byte -/

/-- The status byte bit by bit: N V 1 B D I Z C (10_state.md R28). -/
theorem pack_getLsbD (f : Flags) :
    f.pack.getLsbD 7 = f.n ∧ f.pack.getLsbD 6 = f.v ∧ f.pack.getLsbD 5 = true ∧ f.pack.getLsbD 4 = f.b ∧
    f.pack.getLsbD 3 = f.d ∧ f.pack.getLsbD 2 = f.i ∧ f.pack.getLsbD 1 = f.z ∧ f.pack.getLsbD 0 = f.c := by
  obtain ⟨n, v, b, d, i, z, c⟩ := f
  revert n v b d i z c
  decide

/-- Settles O34: the layout of a packed byte; unpacking reads its bits by definition. -/
theorem statusByteLayout : Obligations.StatusByteLayout :=
  fun f _ => ⟨pack_getLsbD f, rfl⟩

/-- Unpacking a packed byte gives back every flag (10_state.md R30). -/
@[simp] theorem unpack_pack (f : Flags) : Flags.unpack f.pack = f := by
  obtain ⟨hn, hv, -, hb, hd, hi, hz, hc⟩ := pack_getLsbD f
  simp only [Flags.unpack, bitAt, hn, hv, hb, hd, hi, hz, hc]

/-- Packing an unpacked byte gives the byte with bit 5 set (10_state.md R30). -/
theorem pack_unpack (b : Byte) : (Flags.unpack b).pack = b ||| 0x20 := by
  revert b
  decide

/-- Settles O35, by the two round trips. -/
theorem packUnpackRoundTrip : Obligations.PackUnpackRoundTrip := ⟨unpack_pack, pack_unpack⟩

/-! ## Fetching -/

/-- `n + 1` bytes are one `fetch8` and `n` bytes after it. -/
theorem State.fetchBytes_succ (n : Nat) (s : State) :
    s.fetchBytes (n + 1) = (s.fetch8.1 :: (s.fetch8.2.fetchBytes n).1, (s.fetch8.2.fetchBytes n).2) := rfl

/-- The byte `k` places after PC + 1 is the one `k + 1` places after PC, modulo 2^16. -/
theorem pc_succ_add (pc : Word) (k : Nat) : pc + 1#16 + BitVec.ofNat 16 k = pc + BitVec.ofNat 16 (k + 1) := by
  bv_omega

/-- Fetching `n` bytes moves PC on by `n` and records reads, whatever the bus (20_memory.md R56). -/
theorem State.fetchBytes_snd (n : Nat) (s : State) :
    ∃ es : List BusEvent, (s.fetchBytes n).2 = (s.setPc (s.pc + BitVec.ofNat 16 n)).logged es := by
  induction n generalizing s with
  | zero => exact ⟨[], by simp [State.fetchBytes, State.setPc]⟩
  | succ n ih =>
    obtain ⟨es, h⟩ := ih s.fetch8.2
    refine ⟨es ++ [.read s.pc (s.busAnswer s.pc)], ?_⟩
    rw [State.fetchBytes_succ, h, ← pc_succ_add, State.fetch8_snd, ← State.logged_logged]
    rfl

/-- On a plain RAM the bytes fetched are those of memory from PC on (20_memory.md R56). -/
theorem State.fetchBytes_fst (n : Nat) {s : State} (hbus : s.bus = .ram) :
    (s.fetchBytes n).1 = (List.range n).map fun k => s.mem.read (s.pc + BitVec.ofNat 16 k).toNat := by
  induction n generalizing s with
  | zero => rfl
  | succ n ih =>
    have hfirst : s.fetch8.1 = s.mem.read (s.pc + BitVec.ofNat 16 0).toNat := by simp [State.busAnswer_ram hbus]
    have hrest : (s.fetch8.2.fetchBytes n).1 =
        (List.range n).map fun k => s.mem.read (s.pc + 1#16 + BitVec.ofNat 16 k).toNat := ih (s := s.fetch8.2) hbus
    simp only [pc_succ_add] at hrest
    rw [State.fetchBytes_succ, hfirst, hrest, List.range_succ_eq_map, List.map_cons, List.map_map]
    rfl

/-- Settles O42, from the bytes fetched and the state after the fetch. -/
theorem fetchTakesTheBytesAtPc : Obligations.FetchTakesTheBytesAtPc := by
  intro s n hplain
  refine ⟨State.fetchBytes_fst n hplain.1, ?_⟩
  obtain ⟨es, h⟩ := State.fetchBytes_snd n s
  rw [h]
  rfl

/-! ## Before the first Reset -/

/-- Settles O57: each of the four calls tests whether Reset has run before anything else. -/
theorem callsBeforeResetAreRefused : Obligations.CallsBeforeResetAreRefused := by
  refine ⟨⟨rfl, rfl, rfl⟩, fun s h c hc => ?_⟩
  simp only [List.mem_cons, List.not_mem_nil, or_false] at hc
  rcases hc with rfl | rfl | rfl | rfl
  · simp [call, step, h, returning]
  · simp [call, triggerNmi, h, returning]
  · simp [call, triggerIrq, h]
  · simp [call, getStatus, h]

end Sys2Proof.Machine
end

section
/-!
SUPPORT. What a host call can change, by `Closed`: sequential consistency on plain memory and the invariant are kept by
every bus call, so by every instruction, every step and every host call, and the state right after reset meets both.
Settles O10, O58, O60 and O59.
-/

namespace Sys2Proof.Machine

variable {s t : State}

/-- A property that the building blocks, Reset's writes and the writes of a Setup among the calls keep is kept by every host
call (40_execution_cycle.md R100). -/
theorem Closed.call {P : State → Prop} (c : Closed P) {k : HostCall} {ret : HostReturn}
    (hreset : P s.withResetValues)
    (hsetup : ∀ adapter clockHz rateHz, k = .setup adapter clockHz rateHz →
      ∀ bus frame, P { s with bus := bus, cyclesPerFrame := some frame })
    (h : P s) (e : call k s = .next (t, ret)) : P t := by
  obtain ⟨_, _, _, hk, -, -, rfl⟩ | ⟨-, -, rfl⟩ | ⟨-, -, hs⟩ | ⟨-, -, -, rfl⟩ | ⟨-, -, -, -, rfl⟩ | ⟨-, -, -, -, rfl⟩ |
    ⟨-, -, -, rfl⟩ := call_next e
  · exact hsetup _ _ _ hk _ _
  · exact c.setPc (c.read16 hreset resetVector) _
  · exact c.step h hs
  · exact c.addCycles (c.interruptEntry h nmiVector) _
  · exact c.addCycles (c.interruptEntry h irqVector) _
  · exact h
  · exact h

/-! ## Sequential consistency -/

/-- A write to plain memory leaves plain memory (20_memory.md R54). -/
theorem State.PlainMemory.memWrite (h : s.PlainMemory) (a : Word) (v : Byte) : (s.memWrite a v).PlainMemory := by
  obtain ⟨hbus, hwf⟩ := h
  refine ⟨hbus, ?_⟩
  rw [State.memWrite_mem, State.memAfterWrite_eq, if_pos hbus]
  exact Memory.write_wf_word hwf a v

/-- A plain RAM after a write: the byte written at its address, every other byte as before (20_memory.md R54). -/
theorem State.PlainMemory.read_memAfterWrite (h : s.PlainMemory) (a : Word) (v : Byte) (b : Nat) :
    (s.memAfterWrite a v).read b = if b = a.toNat then v else s.mem.read b := by
  rw [State.memAfterWrite_eq, if_pos h.1, Memory.read_write h.2]

/-- A bus read on plain memory answers the latest write, as memory holds the latest writes; a bus write becomes the latest
one to its address, in memory and in the record (20_memory.md R63). -/
theorem consistent_closed (initial : Memory) : Closed (State.Consistent initial) where
  memRead := by
    rintro s a ⟨hplain, hreads, hmem⟩
    refine ⟨hplain, ⟨?_, hreads⟩, hmem⟩
    rw [State.busAnswer_ram hplain.1]
    exact hmem a.toNat
  memWrite := by
    rintro s a v ⟨hplain, hreads, hmem⟩
    refine ⟨hplain.memWrite a v, hreads, fun b => ?_⟩
    rw [State.memWrite_mem, hplain.read_memAfterWrite, State.memWrite_busLog, latestWrite, hmem b]
    simp only [eq_comm]
  registers := by
    rintro s t h hbus hmem hlog - - -
    simpa only [State.Consistent, State.PlainMemory, hbus, hmem, hlog] using h

/-- Settles O10: Reset writes registers before its two reads, and every other call is made of bus reads, bus writes and
register writes. -/
theorem everyReadReturnsTheLatestWrite : Obligations.EveryReadReturnsTheLatestWrite :=
  fun initial _ _ _ _ hk h e => (consistent_closed initial).call h (fun _ _ _ hc => absurd hc (hk _ _ _)) h e

/-! ## The invariant -/

/-- Whatever the adapter, a write keeps the RAM's canonical form (20_memory.md R54). -/
theorem State.memAfterWrite_wf (h : s.mem.wf = true) (a : Word) (v : Byte) : (s.memAfterWrite a v).wf = true := by
  rw [State.memAfterWrite_eq]
  split
  · exact Memory.write_wf_word h a v
  · exact h

/-- Only a bus write reaches what the invariant speaks of, and it keeps the canonical form. -/
theorem inv_closed : Closed State.Inv where
  memRead _ _ h := h
  memWrite _ a v h := ⟨h.1, State.memAfterWrite_wf h.2 a v⟩
  registers := by
    rintro s t h - hmem - - hreset hframe
    simpa only [State.Inv, State.Ready, hmem, hreset, hframe] using h

/-- Settles O58: a step is made of bus reads, bus writes and register writes, each of which keeps the invariant. -/
theorem stepKeepsInvariant : Obligations.StepKeepsInvariant :=
  fun _ _ h e => inv_closed.step h e

/-- Every host call that answers keeps the invariant: a Setup that answers stores cycles per frame, and Reset leaves
`resetDone` set (40_execution_cycle.md R106, 70_reset_and_hazards.md R340). -/
theorem State.Inv.call {k : HostCall} {ret : HostReturn} (h : s.Inv) (e : call k s = .next (t, ret)) : t.Inv := by
  obtain ⟨⟨hreset, hframe⟩, hwf⟩ := h
  have afterReset : s.withResetValues.Inv := ⟨⟨rfl, hframe⟩, hwf⟩
  have afterSetup : ∀ bus frame, State.Inv { s with bus := bus, cyclesPerFrame := some frame } :=
    fun _ _ => ⟨⟨hreset, Option.some_ne_none _⟩, hwf⟩
  exact inv_closed.call afterReset (fun _ _ _ _ => afterSetup) ⟨⟨hreset, hframe⟩, hwf⟩ e

/-- Settles O60, by induction on the calls of the run. -/
theorem hostCallsKeepInvariant : Obligations.HostCallsKeepInvariant := by
  intro calls
  induction calls with
  | nil =>
    intro s t returns h e
    cases e
    exact h
  | cons k ks ih =>
    intro s t returns h e
    obtain ⟨u, ret, rets, hk, hks, -⟩ := runCalls_cons_eq_next.mp e
    exact ih u t rets (h.call hk) hks

/-- Settles O59: after reset memory lists nothing, and the two vector reads recorded returned 0. -/
theorem resetMeetsInvariants : Obligations.ResetMeetsInvariants :=
  ⟨⟨⟨rfl, Option.some_ne_none _⟩, rfl⟩, ⟨rfl, rfl⟩, ⟨rfl, rfl, trivial⟩, fun _ => rfl⟩

end Sys2Proof.Machine
end

section
/-!
SUPPORT. The bus and the stack: what the stubs and plain memory answer, the order of a 16-bit read, where a push and a pull
go, and that a pull undoes a push. Settles O5, O6, O7, O8 and O9.
-/

namespace Sys2Proof.Machine

variable {s : State}

/-- Settles O5, by the stubs' answer and the write that they do not keep. -/
theorem stubBusReadsZeroAndDiscardsWrites : Obligations.StubBusReadsZeroAndDiscardsWrites := by
  refine ⟨rfl, fun s a v hstub => ⟨State.busAnswer_stub hstub a, ?_⟩⟩
  have hmem : s.memAfterWrite a v = s.mem := by rw [State.memAfterWrite_eq, if_neg (by simp [hstub])]
  simp only [State.memWrite, hmem]
  rfl

/-- What plain memory answers after a write (20_memory.md R54). -/
theorem State.PlainMemory.busAnswer_memWrite (h : s.PlainMemory) (a : Word) (v : Byte) (b : Word) :
    (s.memWrite a v).busAnswer b = if b = a then v else s.busAnswer b := by
  rw [State.busAnswer_ram (h.memWrite a v).1, State.busAnswer_ram h.1, State.memWrite_mem, h.read_memAfterWrite]
  simp only [BitVec.toNat_inj]

/-- Settles O6, from the answers of plain memory after a write and at an unlisted address. -/
theorem plainMemoryReadsLastWrite : Obligations.PlainMemoryReadsLastWrite := by
  intro s a v h
  refine ⟨?_, fun b hb => ?_, fun hunlisted => ?_, h.memWrite a v⟩
  · rw [State.memRead_fst, h.busAnswer_memWrite, if_pos rfl]
  · rw [State.memRead_fst, State.memRead_fst, h.busAnswer_memWrite, if_neg hb]
  · rw [State.memRead_fst, State.busAnswer_ram h.1, Memory.read_unlisted hunlisted]
    rfl

/-- Adding one to a word or a byte is adding one to its number, modulo its width. -/
theorem succ_eq_ofNat {w : Nat} (x : BitVec w) : x + 1#w = BitVec.ofNat w (x.toNat + 1) := by
  apply BitVec.eq_of_toNat_eq
  simp

/-- Settles O7: the value is the word of the two bytes, and the second address is the first plus one modulo 2^16. -/
theorem read16IsLittleEndian : Obligations.Read16IsLittleEndian := by
  intro s a
  simp only [← succ_eq_ofNat]
  exact ⟨wordOf_toNat _ _, rfl⟩

/-- The stack byte's address as a number (20_memory.md R58). -/
theorem stackAddress_eq_ofNat (sp : Byte) : stackAddress sp = BitVec.ofNat 16 (0x100 + sp.toNat) := by
  apply BitVec.eq_of_toNat_eq
  rw [stackAddress_toNat, BitVec.toNat_ofNat, Nat.mod_eq_of_lt (by omega)]

/-- Subtracting one from S is adding 255 modulo 256 (20_memory.md R58). -/
theorem pred_eq_ofNat (sp : Byte) : sp - 1#8 = BitVec.ofNat 8 (sp.toNat + 255) := by
  bv_omega

/-- Settles O8: the two definitions, with their addresses and S as numbers. -/
theorem pushAndPullUseTheStackPage : Obligations.PushAndPullUseTheStackPage := by
  intro s v
  constructor
  · rw [← stackAddress_eq_ofNat, ← pred_eq_ofNat]
    rfl
  · have haddr : stackAddress (s.sp + 1#8) = BitVec.ofNat 16 (0x100 + (s.sp.toNat + 1) % 256) := by
      rw [stackAddress_eq_ofNat, BitVec.toNat_add]
      rfl
    rw [← haddr, ← succ_eq_ofNat]
    rfl

/-- Settles O9: the pull's increment undoes the push's decrement, so the pull reads the address just written. -/
theorem pullUndoesPush : Obligations.PullUndoesPush := by
  intro s v h
  have hsp : s.sp - 1#8 + 1#8 = s.sp := BitVec.sub_add_cancel _ _
  refine ⟨?_, hsp, fun b hb => ?_⟩
  · calc (s.push8 v).pull8.1
        = (s.memWrite (stackAddress s.sp) v).busAnswer (stackAddress (s.sp - 1#8 + 1#8)) := rfl
      _ = v := by rw [hsp, h.busAnswer_memWrite, if_pos rfl]
  · calc (s.push8 v).pull8.2.mem.read b.toNat
        = (s.memAfterWrite (stackAddress s.sp) v).read b.toNat := rfl
      _ = s.mem.read b.toNat := by rw [h.read_memAfterWrite, if_neg (mt BitVec.toNat_inj.mp hb)]

end Sys2Proof.Machine
end

section
/-!
SUPPORT. The bus calls of every instruction after its operand fetch, operation by operation, and the bytes of memory these
calls can change. Settles O11 and O39.
-/

namespace Sys2Proof.Machine

variable {s t u : State} {calls calls' : List BusAccess}

/-! ## Bus calls -/

/-- From `s` to `t` exactly the bus calls of these kinds and addresses were made, in this order, and those recorded before
are kept (20_memory.md R54, R69). -/
def MakesCalls (calls : List BusAccess) (s t : State) : Prop :=
  ∃ events, t.busLog = events ++ s.busLog ∧ events.reverse.map BusEvent.access = calls

namespace MakesCalls

theorem none (h : t.busLog = s.busLog) : MakesCalls [] s t := ⟨[], h, rfl⟩

theorem append (h : MakesCalls calls s t) (h' : MakesCalls calls' t u) : MakesCalls (calls ++ calls') s u := by
  obtain ⟨events, hlog, rfl⟩ := h
  obtain ⟨events', hlog', rfl⟩ := h'
  exact ⟨events' ++ events, by rw [hlog', hlog, List.append_assoc], by rw [List.reverse_append, List.map_append]⟩

/-- Writing registers makes no further call. -/
theorem keep (h : MakesCalls calls s t) (hlog : u.busLog = t.busLog) : MakesCalls calls s u := by
  simpa only [MakesCalls, hlog] using h

variable (s)

theorem memRead (a : Word) : MakesCalls [.rd a] s (s.memRead a).2 := ⟨[.read a (s.busAnswer a)], rfl, rfl⟩

theorem memWrite (a : Word) (v : Byte) : MakesCalls [.wr a] s (s.memWrite a v) := ⟨[.write a v], rfl, rfl⟩

theorem push8 (v : Byte) : MakesCalls [.wr (stackAddress s.sp)] s (s.push8 v) := (memWrite s _ v).keep rfl

theorem pull8 : MakesCalls [.rd (stackAddress (s.sp + 1))] s s.pull8.2 := memRead (s.setSp (s.sp + 1)) _

theorem read16 (a : Word) : MakesCalls [.rd a, .rd (a + 1)] s (s.read16 a).2 := (memRead s a).append (memRead _ (a + 1))

theorem zeroPagePointer (p : Byte) : MakesCalls [.rd (zext16 p), .rd (zext16 (p + 1))] s (s.zeroPagePointer p).2 :=
  (memRead s (zext16 p)).append (memRead _ (zext16 (p + 1)))

/-- An effective address takes the pointer reads of its mode (41_addressing_modes.md R131, R132). -/
theorem ea (m : Mem) : MakesCalls (pointerAccesses m s) s (s.ea m).2 := by
  cases m with
  | zp _ | zpx _ | zpy _ | abs _ | abx _ | aby _ => exact none rfl
  | izx a => exact zeroPagePointer s (a + s.x)
  | izy a => exact zeroPagePointer s a

/-- Reading an operand (41_addressing_modes.md R134). -/
theorem load (src : Src) : MakesCalls (loadAccesses src s) s (s.load src).2 := by
  cases src with
  | imm v => exact none rfl
  | mem m => exact (ea s m).append (memRead _ _)

/-- Storing (41_addressing_modes.md R135). -/
theorem store (m : Mem) (v : Byte) : MakesCalls (storeAccesses m s) s (s.store m v) := (ea s m).append (memWrite _ _ v)

/-- A read-modify-write reads and writes the same address (20_memory.md R65, 41_addressing_modes.md R136). -/
theorem modifyNZ (dst : Dst) (f : Modify) : MakesCalls (modifyAccesses dst s) s (s.modifyNZ dst f) := by
  cases dst with
  | acc => exact none rfl
  | mem m =>
    rw [State.modifyNZ_mem]
    exact ((ea s m).append ((memRead _ (s.ea m).1).append (memWrite _ (s.ea m).1 _))).keep rfl

/-- The bytes an interrupt entry pushes and the vector it reads (60_exceptions.md R304). -/
theorem interruptEntry (vector : Word) :
    MakesCalls [.wr (stackAddress s.sp), .wr (stackAddress (s.sp - 1)), .wr (stackAddress (s.sp - 1 - 1)), .rd vector,
      .rd (vector + 1)] s (s.interruptEntry vector) := by
  have hpush := ((push8 s (highByte s.pc)).append (push8 _ (lowByte s.pc))).append (push8 _ s.pack)
  have hentered : s.entered.busLog = (((s.push8 (highByte s.pc)).push8 (lowByte s.pc)).push8 s.pack).busLog := rfl
  rw [State.interruptEntry_eq]
  exact ((hpush.keep hentered).append (read16 s.entered vector)).keep (State.setPc_busLog _ _)

end MakesCalls

/-- Every instruction makes the bus calls its rule lists (20_memory.md R65, R69). -/
theorem exec_makesCalls {i : Instr} (e : exec i s = .next t) : MakesCalls (busAccesses i s) s t := by
  cases i with
  | lda src | ldx src | ldy src | and src | ora src | eor src | cmp src | cpx src | cpy src =>
    cases e; exact (MakesCalls.load s src).keep rfl
  | bit m => cases e; exact (MakesCalls.load s (.mem m)).keep rfl
  | adc src | sbc src =>
    simp only [exec_adc, exec_sbc, Host.Outcome.next.injEq] at e
    subst e
    refine (MakesCalls.load s src).keep ?_
    split <;> simp
  | sta m | stx m | sty m => cases e; exact MakesCalls.store s m _
  | inc m | dec m => cases e; exact MakesCalls.modifyNZ s (.mem m) _
  | asl dst | lsr dst | rol dst | ror dst => cases e; exact MakesCalls.modifyNZ s dst _
  | pha | php => cases e; exact MakesCalls.push8 s _
  | pla | plp => cases e; exact (MakesCalls.pull8 s).keep rfl
  | jmp target =>
    cases e
    cases target with
    | abs a => exact .none rfl
    | ind p => exact ((MakesCalls.memRead s p).append (MakesCalls.memRead _ _)).keep rfl
  | jsr w =>
    cases e
    have hpush := (MakesCalls.push8 s (highByte (s.pc - 1#16))).append (MakesCalls.push8 _ (lowByte (s.pc - 1#16)))
    exact hpush.keep (State.setPc_busLog _ w)
  | rts =>
    cases e
    exact ((MakesCalls.pull8 s).append (MakesCalls.pull8 s.pull8.2)).keep (State.setPc_busLog _ _)
  | rti =>
    cases e
    have hflags := (MakesCalls.pull8 s).keep (u := s.pull8.2.setFlags (Flags.unpack s.pull8.1)) rfl
    exact ((hflags.append (MakesCalls.pull8 _)).append (MakesCalls.pull8 _)).keep (State.setPc_busLog _ _)
  | brk =>
    simp only [exec_brk, Host.Outcome.next.injEq] at e
    subst e
    have hb : MakesCalls [] s ((s.setPc (s.pc + 1#16)).setFlags { s.flags with b := true }) := .none rfl
    exact hb.append (MakesCalls.interruptEntry _ irqVector)
  | bcc _ | bcs _ | beq _ | bne _ | bmi _ | bpl _ | bvc _ | bvs _ => cases e; exact .none (s.branch_busLog _ _)
  | tax | tay | txa | tya | tsx | txs | inx | iny | dex | dey | clc | sec | cli | sei | cld | sed | clv | nop
  | undefined _ => cases e; exact .none rfl

/-- Settles O11: `MakesCalls` is what the statement says of the calls, and every instruction meets it. -/
theorem busCallsAreTheListedOnes : Obligations.BusCallsAreTheListedOnes :=
  fun _ _ _ e => exec_makesCalls e

/-! ## The bytes of memory -/

/-- Whatever the adapter, a write leaves every other address alone (20_memory.md R52). -/
theorem State.read_memAfterWrite_ne (s : State) {a b : Word} (v : Byte) (hb : b ≠ a) :
    (s.memAfterWrite a v).read b.toNat = s.mem.read b.toNat := by
  rw [State.memAfterWrite_eq]
  split
  · exact Memory.read_write_ne s.mem v (mt BitVec.toNat_inj.mp hb)
  · rfl

/-- A store changes the byte at its effective address only (41_addressing_modes.md R135). -/
theorem State.read_store_ne (s : State) {m : Mem} {b : Word} (v : Byte) (hb : b ≠ (s.ea m).1) :
    (s.store m v).mem.read b.toNat = s.mem.read b.toNat := by
  rw [State.store_eq, State.memWrite_mem, State.read_memAfterWrite_ne _ v hb, State.ea_snd_mem]

/-- A read-modify-write of memory changes the byte at its effective address only (41_addressing_modes.md R136). -/
theorem State.read_modifyNZ_mem_ne (s : State) {m : Mem} {b : Word} (f : Modify) (hb : b ≠ (s.ea m).1) :
    (s.modifyNZ (.mem m) f).mem.read b.toNat = s.mem.read b.toNat := by
  simp [State.modifyNZ_mem, State.read_memAfterWrite_ne _ _ hb]

/-- A push changes the byte at its stack address only (20_memory.md R58). -/
theorem State.read_push8_ne (s : State) {b : Word} (v : Byte) (hb : b ≠ stackAddress s.sp) :
    (s.push8 v).mem.read b.toNat = s.mem.read b.toNat :=
  s.read_memAfterWrite_ne v hb

/-- An interrupt entry changes the three stack bytes it pushes only (60_exceptions.md R304). -/
theorem State.read_interruptEntry_ne (s : State) (vector : Word) {b : Word} (h1 : b ≠ stackAddress s.sp)
    (h2 : b ≠ stackAddress (s.sp - 1#8)) (h3 : b ≠ stackAddress (s.sp - 1#8 - 1#8)) :
    (s.interruptEntry vector).mem.read b.toNat = s.mem.read b.toNat := by
  simp only [State.interruptEntry_mem, State.entered, State.setFlags_mem, State.push8_mem, State.push8_sp,
    State.read_memAfterWrite_ne _ _ h1, State.read_memAfterWrite_ne _ _ h2, State.read_memAfterWrite_ne _ _ h3]

/-- An instruction that stores to no address leaves memory alone. -/
theorem exec_keeps_mem {i : Instr} (h : storedAddresses i s = []) : ∀ t, exec i s = .next t → t.mem = s.mem := by
  cases i with
  | sta _ | stx _ | sty _ | inc _ | dec _ | pha | php | jsr _ | brk => cases h
  | asl dst | lsr dst | rol dst | ror dst =>
    cases dst with
    | acc => simp
    | mem m => cases h
  | adc src | sbc src =>
    simp only [exec_adc, exec_sbc, Host.Outcome.next.injEq, forall_eq']
    split <;> simp
  | _ => simp

/-- Settles O39: the instructions that store, by what each of their operations can change; no other instruction writes
memory. -/
theorem memoryChangesOnlyAtStoredAddresses : Obligations.MemoryChangesOnlyAtStoredAddresses := by
  intro i s t e b hb
  cases i with
  | sta m | stx m | sty m => cases e; exact s.read_store_ne _ (by simpa [storedAddresses] using hb)
  | inc m | dec m => cases e; exact s.read_modifyNZ_mem_ne _ (by simpa [storedAddresses] using hb)
  | asl dst | lsr dst | rol dst | ror dst =>
    cases dst with
    | acc => rw [exec_keeps_mem rfl t e]
    | mem m => cases e; exact s.read_modifyNZ_mem_ne _ (by simpa [storedAddresses] using hb)
  | pha | php => cases e; exact s.read_push8_ne _ (by simpa [storedAddresses] using hb)
  | jsr w =>
    obtain ⟨h1, h2⟩ : b ≠ stackAddress s.sp ∧ b ≠ stackAddress (s.sp - 1#8) := by simpa [storedAddresses] using hb
    cases e
    simp only [State.setPc_mem, State.push8_mem, State.push8_sp, State.read_memAfterWrite_ne _ _ h1,
      State.read_memAfterWrite_ne _ _ h2]
  | brk =>
    obtain ⟨h1, h2, h3⟩ : b ≠ stackAddress s.sp ∧ b ≠ stackAddress (s.sp - 1#8) ∧
        b ≠ stackAddress (s.sp - 1#8 - 1#8) := by simpa [storedAddresses] using hb
    simp only [exec_brk, Host.Outcome.next.injEq] at e
    subst e
    exact State.read_interruptEntry_ne _ _ h1 h2 h3
  | _ => rw [exec_keeps_mem rfl t e]

end Sys2Proof.Machine
end

