-- ==== Sys2Proof/Proofs/Encoding.lean ====
section
/-!
Decoder and encoder against each other (30_encoding.md R80, R81, R88). The case split over the rows of the opcode table
is made once, in `spells_of_opcodeOf`. A row is of one of three kinds, by how many operand bytes follow its opcode; each
kind has its lemma, whose hypotheses about a concrete row default to evaluating the decoder's table and the encoder.
Settles O2, O3 and O1.
-/

namespace Sys2Proof

variable {op : Byte} {i : Instr}

/-- Decoder and encoder agree at one row: `i` has an encoding that decodes to `i`, and whatever operand bytes the table's
entry for `op` reads, the instruction it builds is encoded as `op` with those bytes. -/
structure Spells (op : Byte) (i : Instr) : Prop where
  decode_word (rest : List Byte) : ∃ word, encode i = some word ∧ decode (word ++ rest) = .instr i rest
  encode_build (b1 b2 : Byte) :
    encode ((entryOf op).build op b1 b2) = some (op :: [b1, b2].take ((entryOf op).length - 1))

/-- A row with no operand byte. -/
theorem Spells.noOperand (hlen : (entryOf op).length = 1 := by rfl)
    (hbuild : ∀ b1 b2, (entryOf op).build op b1 b2 = i := by intros; rfl) (henc : encode i = some [op] := by rfl) :
    Spells op i where
  decode_word rest := ⟨_, henc, by rw [List.singleton_append, decode_one hlen, hbuild]⟩
  encode_build b1 b2 := by rw [hbuild, henc, hlen]; rfl

/-- A row with one operand byte. -/
theorem Spells.byteOperand {k : Byte → Instr} (b : Byte) (hlen : (entryOf op).length = 2 := by rfl)
    (hbuild : ∀ b1 b2, (entryOf op).build op b1 b2 = k b1 := by intros; rfl)
    (henc : ∀ b, encode (k b) = some [op, b] := by intros; rfl) : Spells op (k b) where
  decode_word rest := ⟨_, henc b, by rw [List.cons_append, List.singleton_append, decode_two hlen, hbuild]⟩
  encode_build b1 b2 := by rw [hbuild, henc, hlen]; rfl

/-- A row with a 16-bit operand, low byte first (R83). -/
theorem Spells.wordOperand {k : Word → Instr} (w : Word) (hlen : (entryOf op).length = 3 := by rfl)
    (hbuild : ∀ b1 b2, (entryOf op).build op b1 b2 = k (wordOf b1 b2) := by intros; rfl)
    (henc : ∀ w, encode (k w) = some (op :: wordBytes w) := by intros; rfl) : Spells op (k w) where
  decode_word rest := ⟨_, henc w, by
    rw [wordBytes, List.cons_append, List.cons_append, List.singleton_append, decode_three hlen, hbuild, wordOf_bytes]⟩
  encode_build b1 b2 := by rw [hbuild, henc, wordBytes_wordOf, hlen]; rfl

/-- The dispatch table has the undefined entry at each of the 105 values of R86. -/
theorem entryOf_of_mem_undefinedOpcodes (h : op ∈ undefinedOpcodes) : entryOf op = .und := by
  have hall : undefinedOpcodes.map entryOf = List.replicate 105 .und := rfl
  exact List.eq_of_mem_replicate (hall ▸ List.mem_map_of_mem h)

/-- At the encoder's opcode for `i`, the dispatch table has the row of `i`. A form with no row has no opcode. -/
theorem spells_of_opcodeOf (h : opcodeOf i = some op) : Spells op i := by
  cases i with
  | lda src | ldx src | ldy src | adc src | sbc src | and src | ora src | eor src | cmp src | cpx src | cpy src =>
    cases src with
    | imm v => cases h; apply Spells.byteOperand v
    | mem m =>
      cases m with
      | abs a | abx a | aby a => cases h <;> apply Spells.wordOperand a
      | zp a | zpx a | zpy a | izx a | izy a => cases h <;> apply Spells.byteOperand a
  | sta m | stx m | sty m | bit m | inc m | dec m =>
    cases m with
    | abs a | abx a | aby a => cases h <;> apply Spells.wordOperand a
    | zp a | zpx a | zpy a | izx a | izy a => cases h <;> apply Spells.byteOperand a
  | asl dst | lsr dst | rol dst | ror dst =>
    cases dst with
    | acc => cases h; exact .noOperand
    | mem m =>
      cases m with
      | abs a | abx a | aby a => cases h <;> apply Spells.wordOperand a
      | zp a | zpx a | zpy a | izx a | izy a => cases h <;> apply Spells.byteOperand a
  | jmp target =>
    cases target with
    | abs a | ind a => cases h; apply Spells.wordOperand a
  | jsr a => cases h; apply Spells.wordOperand a
  | bcc rel | bcs rel | beq rel | bne rel | bmi rel | bpl rel | bvc rel | bvs rel =>
    cases h; apply Spells.byteOperand rel
  | undefined opcode =>
    obtain ⟨hmem, ⟨⟩⟩ := Option.ite_none_right_eq_some.mp h
    have hund : entryOf op = .und := entryOf_of_mem_undefinedOpcodes (List.contains_iff_mem.mp hmem)
    exact .noOperand (by rw [hund]; rfl) (fun _ _ => by rw [hund]; rfl) (by rw [encode, h]; rfl)
  | _ => cases h; exact .noOperand

/-- The encoder has an opcode for exactly the rows of the table: the Operands lines list the forms `WellFormed` admits. -/
theorem opcodeOf_isSome (i : Instr) : (opcodeOf i).isSome = i.wf := by
  cases i with
  | lda src | ldx src | ldy src | adc src | sbc src | and src | ora src | eor src | cmp src | cpx src | cpy src =>
    cases src with
    | imm v => rfl
    | mem m => cases m <;> rfl
  | sta m | stx m | sty m | bit m | inc m | dec m => cases m <;> rfl
  | asl dst | lsr dst | rol dst | ror dst =>
    cases dst with
    | acc => rfl
    | mem m => cases m <;> rfl
  | jmp target => cases target <;> rfl
  | undefined opcode => by_cases hmem : opcode ∈ undefinedOpcodes <;> simp [opcodeOf, Instr.wf, hmem]
  | _ => rfl

theorem encode_isSome (i : Instr) : (encode i).isSome = i.wf := by
  rw [encode, Option.isSome_map, opcodeOf_isSome]

/-- The encoder spells each of the 256 opcode values: every entry builds an instruction with its own opcode (R80). -/
theorem opcodeOf_build_zero (op : Byte) : opcodeOf ((entryOf op).build op 0 0) = some op := by
  revert op; decide

/-- What decodes was built by the opcode's entry from the operand bytes read, as many as the entry's length says. -/
theorem decode_cons_eq_instr {bs rest : List Byte} (h : decode (op :: bs) = .instr i rest) :
    ∃ b1 b2, i = (entryOf op).build op b1 b2 ∧ bs = [b1, b2].take ((entryOf op).length - 1) ++ rest := by
  rcases entryOf_length op with hlen | hlen | hlen
  · rw [decode_one hlen] at h
    cases h
    exact ⟨0, 0, rfl, by simp [hlen]⟩
  · rcases bs with _ | ⟨b1, bs⟩
    · simp [decode, hlen] at h
    · rw [decode_two hlen] at h
      cases h
      exact ⟨b1, 0, rfl, by simp [hlen]⟩
  · rcases bs with _ | ⟨b1, _ | ⟨b2, bs⟩⟩
    · simp [decode, hlen] at h
    · simp [decode, hlen] at h
    · rw [decode_three hlen] at h
      cases h
      exact ⟨b1, b2, rfl, by simp [hlen]⟩

/-- Settles O2: a well-formed instruction has an opcode, and that opcode's entry is its row. -/
theorem decodeOfEncode : Obligations.DecodeOfEncode := by
  intro i rest hwf
  obtain ⟨op, hop⟩ := Option.isSome_iff_exists.mp ((opcodeOf_isSome i).trans hwf)
  exact (spells_of_opcodeOf hop).decode_word rest

/-- Settles O3: the instruction was built by the entry of its first byte, and every entry agrees with the encoder. -/
theorem encodeOfDecode : Obligations.EncodeOfDecode := by
  intro bytes i rest h
  rcases bytes with _ | ⟨op, bs⟩
  · cases h
  · obtain ⟨b1, b2, rfl, rfl⟩ := decode_cons_eq_instr h
    have henc := (spells_of_opcodeOf (opcodeOf_build_zero op)).encode_build b1 b2
    exact ⟨by rw [Instr.WellFormed, ← encode_isSome, henc]; rfl, _, henc, rfl⟩

/-- Settles O1: each word decodes by the length that the table gives its opcode. -/
theorem spelledWordsDecode : Obligations.SpelledWordsDecode :=
  ⟨decode_two rfl _ _, decode_two rfl _ _, decode_one rfl _, decode_one rfl _, decode_three rfl _ _ _,
    decode_three rfl _ _ _, decode_three rfl _ _ _, decode_two rfl _ _, decode_one rfl _, decode_one rfl _⟩

end Sys2Proof
end

