-- ==== Sys2Proof/Proofs/ExecutionCycle.lean ====
section
/-!
The execution cycle (40_execution_cycle.md): what ExecuteOne fetches and runs, when it completes, what Setup stores and what
GetStatus answers; and the cycle accounting, said once per host call and then carried over runs by induction on the
calls. Settles O43, O41, O54, O56, O44, O45 and O46.
-/

namespace Sys2Proof.Machine

variable {s t : State} {frame pending : Nat} {c : HostCall} {ret : HostReturn}

/-! ## Fetching and completing -/

@[simp] theorem State.fetchBytes_length (n : Nat) (s : State) : (s.fetchBytes n).1.length = n := by
  induction n generalizing s with
  | zero => rfl
  | succ n ih => rw [State.fetchBytes_succ, List.length_cons, ih]

/-- Fetching an instruction takes as many bytes as its opcode's length says, and it is what they decode to (30_encoding.md
R80, 40_execution_cycle.md R101). -/
theorem State.fetchInstr_eq_fetchBytes (s : State) :
    decode (s.fetchBytes (entryOf s.fetch8.1).length).1 = .instr s.fetchInstr.1.instr [] ∧
      (s.fetchBytes (entryOf s.fetch8.1).length).2 = s.fetchInstr.2 := by
  rcases entryOf_length s.fetch8.1 with h | h | h
  · rw [h, s.fetchInstr_one h]
    exact ⟨decode_one h _, rfl⟩
  · rw [h, s.fetchInstr_two h]
    exact ⟨decode_two h _ _, rfl⟩
  · rw [h, s.fetchInstr_three h]
    exact ⟨decode_three h _ _ _, rfl⟩

/-- Bytes that decode to one whole instruction are as many as the length of their opcode (30_encoding.md R80). -/
theorem length_of_decode {op : Byte} {operands : List Byte} {i : Instr} (h : decode (op :: operands) = .instr i []) :
    (op :: operands).length = (entryOf op).length := by
  obtain ⟨b1, b2, -, hbytes⟩ := decode_cons_eq_instr h
  rw [hbytes]
  rcases entryOf_length op with hlen | hlen | hlen <;> simp [hlen]

/-- Settles O41: the bytes are those that the step's own fetch takes, as both are as many as the opcode's length says. -/
theorem stepRunsTheDecodedInstruction : Obligations.StepRunsTheDecodedInstruction := by
  intro s frame n op operands i hreset hframe hbytes hdecode
  have hlen : n = (entryOf op).length := by
    rw [← length_of_decode hdecode, ← hbytes, State.fetchBytes_length]
  have hop : op = s.fetch8.1 := by
    cases n with
    | zero => cases hbytes
    | succ n => exact (List.cons.inj hbytes).1.symm
  obtain ⟨hinstr, hstate⟩ := s.fetchInstr_eq_fetchBytes
  rw [← hop, ← hlen] at hinstr hstate
  rw [hbytes, hdecode] at hinstr
  obtain ⟨rfl, -⟩ := Decoded.instr.inj hinstr
  obtain ⟨t, ht⟩ := exec_completes s.fetchInstr.2 s.fetchInstr.1.instr
  refine ⟨(encodeOfDecode _ _ _ hdecode).1, t, hstate ▸ ht, ?_⟩
  have hopcode : s.fetchInstr.1.opcode = op := by rw [State.fetchInstr_opcode, hop, State.fetch8_fst]
  rw [step_ready hreset hframe ht, hopcode, State.frameTest_eq]
  rfl

/-- Settles O43: exec never stops, so a step is refused by its two tests only. -/
theorem everyStepCompletes : Obligations.EveryStepCompletes := by
  refine fun s => ⟨?_, fun hreset => ?_, fun hreset hframe => ?_⟩
  · rintro ⟨hreset, hframe⟩
    obtain ⟨frame, hframe⟩ := Option.ne_none_iff_exists'.mp hframe
    obtain ⟨t, ht⟩ := exec_completes s.fetchInstr.2 s.fetchInstr.1.instr
    exact ⟨_, step_ready hreset hframe ht⟩
  · simp only [step, hreset]
  · simp only [step, hreset, hframe]

/-! ## Setup and GetStatus -/

/-- Settles O54: Setup tests the adapter first, then whether the rate is 0. -/
theorem setupStoresAdapterAndTiming : Obligations.SetupStoresAdapterAndTiming := by
  refine fun s bus clockHz rateHz => ⟨fun hrate => ?_, rfl, rfl⟩
  obtain ⟨rate, rfl⟩ := Nat.exists_eq_succ_of_ne_zero hrate.ne'
  rfl

/-- Settles O56: after Reset the answer is the snapshot of the state, field by field. -/
theorem getStatusIsAPureRead : Obligations.GetStatusIsAPureRead := by
  refine fun s hreset => ⟨s.status, ?_, rfl, rfl, rfl, rfl, rfl, rfl, rfl, rfl⟩
  simp only [call, getStatus, hreset]

/-! ## The cycles of one host call -/

@[simp] theorem State.fetchInstr_cycles (s : State) : s.fetchInstr.2.cycles = s.cycles := by
  obtain ⟨es, h⟩ := s.fetchInstr_state; rw [h]; rfl

@[simp] theorem State.fetchInstr_cyclesPerFrame (s : State) : s.fetchInstr.2.cyclesPerFrame = s.cyclesPerFrame := by
  obtain ⟨es, h⟩ := s.fetchInstr_state; rw [h]; rfl

/-- The accumulator, the cycles per frame and the signal after a step (40_execution_cycle.md R102, R103): instructions
touch none of them. -/
theorem step_timing (hframe : s.cyclesPerFrame = some frame) (h : step s = .next t) :
    t.cyclesPerFrame = some frame ∧
    (t.frameSignal = true ↔ (frame : Int) ≤ s.cycles + (callCost .executeOne s : Int)) ∧
    t.cycles = s.cycles + (callCost .executeOne s : Int) - if t.frameSignal then (frame : Int) else 0 := by
  obtain ⟨-, frame', u, hframe', hexec, rfl⟩ := step_next h
  obtain rfl : frame = frame' := Option.some.inj (hframe.symm.trans hframe')
  obtain ⟨hcycles, hperFrame, -⟩ := exec_keeps_host _ _ u hexec
  rw [State.fetchInstr_cycles] at hcycles
  rw [State.fetchInstr_cyclesPerFrame, hframe] at hperFrame
  rw [State.frameTest_eq]
  refine ⟨hperFrame, ?_, ?_⟩
  · simp [State.addCycles, callCost, hcycles]
  · simp only [State.addCycles, callCost, State.setFrameSignal_cycles, State.setCycles_cycles,
      State.setFrameSignal_frameSignal, hcycles, decide_eq_true_eq]
    split <;> simp

/-- Settles O44: the opcode that the step fetches is the byte at PC. -/
theorem stepAccountsForCycles : Obligations.StepAccountsForCycles := by
  intro s t frame hframe h
  obtain ⟨-, hsignal, hcycles⟩ := step_timing hframe h
  rw [callCost, State.fetchInstr_opcode] at hsignal hcycles
  exact ⟨hsignal, hcycles⟩

/-- Interrupts and GetStatus add their cost, run no frame test and signal nothing (60_exceptions.md R306, R310, R313). -/
theorem call_timing_of_ne_executeOne (hkeeps : keepsTiming c = true) (hne : c ≠ .executeOne)
    (h : call c s = .next (t, ret)) :
    t.cyclesPerFrame = s.cyclesPerFrame ∧ ret ≠ .frame true ∧ t.cycles = s.cycles + (callCost c s : Int) := by
  obtain ⟨_, _, _, rfl, -⟩ | ⟨rfl, -⟩ | ⟨rfl, -⟩ | ⟨rfl, rfl, -, rfl⟩ | ⟨rfl, rfl, -, hi, rfl⟩ | ⟨rfl, rfl, -, hi, rfl⟩ |
    ⟨rfl, rfl, -, rfl⟩ := call_next h
  · cases hkeeps
  · cases hkeeps
  · exact absurd rfl hne
  · simp [State.addCycles, callCost]
  · simp [State.addCycles, callCost, hi]
  · simp [callCost, hi]
  · simp [callCost]

theorem call_executeOne (h : call .executeOne s = .next (t, ret)) : ret = .frame t.frameSignal ∧ step s = .next t := by
  simpa using call_next h

/-! ## The cycles of a run -/

theorem frameSignals_cons (ret : HostReturn) (rets : List HostReturn) :
    frameSignals (ret :: rets) = frameSignals [ret] + frameSignals rets :=
  List.count_append (l₁ := [ret])

theorem runCost_cons (h : call c s = .next (t, ret)) (cs : List HostCall) :
    runCost (c :: cs) s = callCost c s + runCost cs t := by
  simp only [runCost, h]

/-- A host call but Setup and Reset adds its cost to the accumulator, less the frame it signals
(40_execution_cycle.md R102, R103, 60_exceptions.md R313). -/
theorem call_conserves_cycles (hkeeps : keepsTiming c = true) (hframe : s.cyclesPerFrame = some frame)
    (h : call c s = .next (t, ret)) :
    t.cyclesPerFrame = some frame ∧
    t.cycles + (frame : Int) * (frameSignals [ret] : Int) = s.cycles + (callCost c s : Int) := by
  by_cases hc : c = .executeOne
  · subst hc
    obtain ⟨rfl, hstep⟩ := call_executeOne h
    obtain ⟨hperFrame, -, hcycles⟩ := step_timing hframe hstep
    refine ⟨hperFrame, ?_⟩
    rw [hcycles]
    cases t.frameSignal <;> simp [frameSignals]
  · obtain ⟨hperFrame, hret, hcycles⟩ := call_timing_of_ne_executeOne hkeeps hc h
    exact ⟨hperFrame.trans hframe, by simp [frameSignals, hret, hcycles]⟩

/-- Settles O45, by induction on the calls of the run. -/
theorem runsConserveCycles : Obligations.RunsConserveCycles := by
  intro calls
  induction calls with
  | nil =>
    intro s t frame returns _ _ h
    cases h
    simp [frameSignals, runCost]
  | cons c cs ih =>
    intro s t frame returns hframe hkeeps h
    obtain ⟨hc, hcs⟩ := List.forall_mem_cons.mp hkeeps
    obtain ⟨u, ret, rets, hcall, hrun, rfl⟩ := runCalls_cons_eq_next.mp h
    obtain ⟨hframe', hfirst⟩ := call_conserves_cycles hc hframe hcall
    have hrest := ih u t frame rets hframe' hcs hrun
    rw [frameSignals_cons, runCost_cons hcall]
    push_cast
    linarith

/-! ## Counting frames -/

/-- Between two frame tests the accumulator is below one frame and what interrupts have added since the last test, `pending`
(40_execution_cycle.md R110). -/
structure State.WithinFrame (frame pending : Nat) (s : State) : Prop where
  cyclesPerFrame : s.cyclesPerFrame = some frame
  nonneg : 0 ≤ s.cycles
  lt : s.cycles < (frame : Int) + pending

/-- One subtraction brings the accumulator below one frame, where at most a frame was added since the last test
(40_execution_cycle.md R103, R110). -/
theorem State.WithinFrame.step (hw : s.WithinFrame frame pending) (hgap : pending + callCost .executeOne s ≤ frame)
    (h : step s = .next t) : t.WithinFrame frame 0 := by
  obtain ⟨hframe, hnonneg, hlt⟩ := hw
  obtain ⟨hframe', hsignal, hcycles⟩ := step_timing hframe h
  by_cases hfull : (frame : Int) ≤ s.cycles + (callCost .executeOne s : Int)
  · rw [if_pos (hsignal.mpr hfull)] at hcycles
    exact ⟨hframe', by omega, by omega⟩
  · rw [if_neg (mt hsignal.mp hfull)] at hcycles
    exact ⟨hframe', by omega, by omega⟩

/-- What an interrupt adds is pending until the next frame test (60_exceptions.md R313). -/
theorem State.WithinFrame.call_of_ne_executeOne (hw : s.WithinFrame frame pending) (hkeeps : keepsTiming c = true)
    (hne : c ≠ .executeOne) (h : call c s = .next (t, ret)) : t.WithinFrame frame (pending + callCost c s) := by
  obtain ⟨hframe, hnonneg, hlt⟩ := hw
  obtain ⟨hframe', -, hcycles⟩ := call_timing_of_ne_executeOne hkeeps hne h
  exact ⟨hframe'.trans hframe, by omega, by push_cast; omega⟩

/-- The first call of a run that fits leaves a state within one frame and what is then pending, which is 0 after a frame
test, and the rest of the run fits from there. -/
theorem State.WithinFrame.call {cs : List HostCall} (hw : s.WithinFrame frame pending) (hkeeps : keepsTiming c = true)
    (hgaps : GapsFit frame pending (c :: cs) s) (h : call c s = .next (t, ret)) :
    ∃ pending', t.WithinFrame frame pending' ∧ GapsFit frame pending' cs t ∧ (c = .executeOne → pending' = 0) := by
  simp only [GapsFit, h] at hgaps
  by_cases hc : c = .executeOne
  · subst hc
    rw [if_pos rfl] at hgaps
    exact ⟨0, hw.step hgaps.1 (call_executeOne h).2, hgaps.2, fun _ => rfl⟩
  · rw [if_neg hc] at hgaps
    exact ⟨_, hw.call_of_ne_executeOne hkeeps hc h, hgaps, fun h => absurd h hc⟩

/-- A run that never adds more than a frame between two tests, and ends with one, ends within one frame
(40_execution_cycle.md R110), by induction on the calls before the last. -/
theorem State.WithinFrame.run {calls : List HostCall} {returns : List HostReturn} (hw : s.WithinFrame frame pending)
    (hkeeps : ∀ c ∈ calls, keepsTiming c = true) (hgaps : GapsFit frame pending (calls ++ [.executeOne]) s)
    (h : runCalls (calls ++ [.executeOne]) s = .next (t, returns)) : t.WithinFrame frame 0 := by
  induction calls generalizing s pending returns with
  | nil =>
    obtain ⟨u, ret, _, hcall, hnil, -⟩ := runCalls_cons_eq_next.mp h
    cases hnil
    obtain ⟨pending', hw', -, hpending⟩ := hw.call rfl hgaps hcall
    exact hpending rfl ▸ hw'
  | cons c cs ih =>
    obtain ⟨hc, hcs⟩ := List.forall_mem_cons.mp hkeeps
    obtain ⟨u, ret, rets, hcall, hrun, -⟩ := runCalls_cons_eq_next.mp h
    obtain ⟨pending', hw', hgaps', -⟩ := hw.call hc hgaps hcall
    exact ih hw' hcs hgaps' hrun

/-- Settles O46: no cycle is lost, and the run ends within one frame, so its costs split into frames and residue in one
way only. -/
theorem frameCountingIsExact : Obligations.FrameCountingIsExact := by
  intro calls s t frame k r returns hzero hframe hkeeps hgaps hrun hcost hr
  have hpos : 0 < frame := by omega
  have hstart : s.WithinFrame frame 0 := ⟨hframe, by omega, by omega⟩
  obtain ⟨-, hnonneg, hlt⟩ := hstart.run hkeeps hgaps hrun
  have hkeepsAll : ∀ c ∈ calls ++ [.executeOne], keepsTiming c = true :=
    List.forall_mem_append.mpr ⟨hkeeps, List.forall_mem_singleton.mpr rfl⟩
  have hconserved := runsConserveCycles _ s t frame returns hframe hkeepsAll hrun
  obtain ⟨m, hm⟩ := Int.eq_ofNat_of_zero_le hnonneg
  have hsplit : m + frame * frameSignals returns = r + frame * k := by
    rw [hm, hzero, hcost] at hconserved
    push_cast at hconserved
    zify
    linarith
  obtain ⟨hdiv, hmod⟩ := (Nat.div_mod_unique hpos).mpr ⟨hsplit, (by omega : m < frame)⟩
  obtain ⟨hdiv', hmod'⟩ := (Nat.div_mod_unique hpos).mpr ⟨rfl, hr⟩
  exact ⟨hdiv.symm.trans hdiv', hm.trans (congrArg _ (hmod.symm.trans hmod'))⟩

end Sys2Proof.Machine
end

