-- ==== Sys2Proof/Proofs/AddressingModes.lean ====
section
/-!
The addressing modes (41_addressing_modes.md): where an assembled branch goes, the effective address of every memory mode as
a number, and that reading an operand changes nothing but the record of bus calls. Settles O4, O12 and O13.
-/

namespace Sys2Proof

/-! ## The assembled branch -/

/-- The assembler refuses exactly the distances outside a signed byte (30_encoding.md R90). -/
theorem assembleRel_eq_none_iff {a t : Nat} :
    assembleRel a t = none ↔ ((t : Int) - (a + 2) < -128 ∨ 127 < (t : Int) - (a + 2)) := by
  simp only [assembleRel, ite_eq_right_iff, reduceCtorEq, imp_false, not_and_or, not_le]

/-- Where rel8 is defined, its two's complement value is the distance (30_encoding.md R90). -/
theorem toInt_of_assembleRel_eq_some {a t : Nat} {rel : Byte} (h : assembleRel a t = some rel) :
    rel.toInt = (t : Int) - (a + 2) := by
  rw [assembleRel, Option.ite_none_right_eq_some, Option.some_inj] at h
  obtain ⟨⟨hlow, hhigh⟩, rfl⟩ := h
  exact BitVec.toInt_ofInt_eq_self (by decide) hlow (Int.lt_add_one_of_le hhigh)

/-! ## Zero-page bytes and indexes as numbers -/

theorem zext16_eq_ofNat (b : Byte) : zext16 b = BitVec.ofNat 16 b.toNat := by
  rw [← zext16_toNat, BitVec.ofNat_toNat, BitVec.setWidth_eq]

/-- A zero-page index wraps inside the page (41_addressing_modes.md R125, R126). -/
theorem zext16_add_toNat (a b : Byte) : (zext16 (a + b)).toNat = (a.toNat + b.toNat) % 256 := by
  rw [zext16_toNat, BitVec.toNat_add]

/-- An index added to an address wraps at 2^16 (41_addressing_modes.md R128, R129). -/
theorem add_zext16_toNat (w : Word) (b : Byte) : (w + zext16 b).toNat = (w.toNat + b.toNat) % 65536 := by
  rw [BitVec.toNat_add, zext16_toNat]

end Sys2Proof

namespace Sys2Proof.Machine

/-- Settles O4: the sign extension of rel8 is the distance modulo 2^16, which the addition to the address behind the branch
cancels. -/
theorem assembledBranchReachesTarget : Obligations.AssembledBranchReachesTarget := by
  refine fun a t => ⟨fun rel hrel => ?_, assembleRel_eq_none_iff⟩
  calc branchTarget (a + 2#16) rel
      = a + 2#16 + BitVec.ofInt 16 (t.toNat - (a.toNat + 2)) := by
        rw [branchTarget, sext16_eq_ofInt, toInt_of_assembleRel_eq_some hrel]
    _ = BitVec.ofInt 16 (a.toNat + 2 + (t.toNat - (a.toNat + 2))) := by
        rw [BitVec.ofInt_add, BitVec.ofInt_add, BitVec.ofInt_natCast, BitVec.ofNat_toNat, BitVec.setWidth_eq]
        rfl
    _ = t := by rw [add_sub_cancel, BitVec.ofInt_natCast, BitVec.ofNat_toNat, BitVec.setWidth_eq]

/-! ## Effective addresses -/

/-- The pointer at `p` in the zero page is read low byte first, its high byte at `(p + 1) % 256` (41_addressing_modes.md R131,
R132). -/
theorem State.zeroPagePointer_spec (s : State) (p : Byte) :
    let lo := s.memRead (BitVec.ofNat 16 p.toNat)
    let hi := lo.2.memRead (BitVec.ofNat 16 ((p.toNat + 1) % 256))
    (s.zeroPagePointer p).1.toNat = hi.1.toNat * 256 + lo.1.toNat ∧ (s.zeroPagePointer p).2 = hi.2 := by
  have hsucc : (p.toNat + 1) % 256 = (p + 1#8).toNat := by
    rw [BitVec.toNat_add]
    rfl
  rw [hsucc, ← zext16_eq_ofNat, ← zext16_eq_ofNat]
  exact ⟨wordOf_toNat _ _, rfl⟩

/-- Settles O12, mode by mode: the index additions as numbers, and for the indirect modes the pointer in the zero page. -/
theorem effectiveAddresses : Obligations.EffectiveAddresses := by
  intro s a w
  refine ⟨⟨zext16_toNat a, rfl⟩, ⟨zext16_add_toNat a s.x, rfl⟩, ⟨zext16_add_toNat a s.y, rfl⟩, rfl,
    ⟨add_zext16_toNat w s.x, rfl⟩, ⟨add_zext16_toNat w s.y, rfl⟩, ?izx, ?izy⟩
  case izx =>
    rw [← BitVec.toNat_add]
    exact s.zeroPagePointer_spec (a + s.x)
  case izy =>
    obtain ⟨hpointer, hstate⟩ := s.zeroPagePointer_spec a
    refine ⟨?_, hstate⟩
    rw [← hpointer, ← add_zext16_toNat]
    rfl

/-! ## Reading an operand -/

/-- Settles O13: what `load` leaves is the state with bus calls recorded, and putting the old record back restores it. -/
theorem operandReadChangesNothing : Obligations.OperandReadChangesNothing := by
  intro src s
  refine ⟨fun v hsrc => hsrc ▸ rfl, fun m hsrc => hsrc ▸ s.load_mem m, ?_⟩
  obtain ⟨events, hload⟩ := s.load_state src
  rw [hload]
  rfl

end Sys2Proof.Machine
end

