-- ==== Sys2Proof/Proofs/TableRows.lean ====
section
/-!
SUPPORT. A row of the dispatch table against the spelling it stands for (30_encoding.md R80, R81, R88): each lemma takes its
rows by hypotheses that default to evaluating the table, and answers opcode, operand bytes and cost at once. And `setNZ` as
`nzFrom`, the form in which the statements write N and Z.
-/

namespace Sys2Proof

/-- `setNZ` tests the byte for 0 as a bit vector, `nzFrom` as a number (10_state.md R31). -/
theorem Flags.setNZ_eq_nzFrom (f : Flags) (v : Byte) : f.setNZ v = Machine.nzFrom f v := by
  have hz : (v == 0#8) = decide (v.toNat = 0) := decide_eq_decide.mpr BitVec.toNat_inj.symm
  rw [Flags.setNZ, hz]
  rfl

end Sys2Proof

namespace Sys2Proof.Machine

/-! ## Spelling, row by row -/

section

variable {op : Byte} {cost : Nat}

/-- A row's fixed cost is charged whatever `UNDEF_CYCLES` is (30_encoding.md R88). -/
theorem costOf_of_cycles_eq_some (h : (entryOf op).cycles = some cost) (cfg : Config) : costOf cfg op = cost := by
  rw [costOf, h, Option.getD_some]

/-- A row with no operand byte. -/
theorem Spells1.of_entry {i : Instr} (h : entryOf op = .imp i cost := by rfl) : Spells1 op cost i := by
  refine ⟨fun rest => ?_, costOf_of_cycles_eq_some (by rw [h]; rfl)⟩
  rw [decode_one (by rw [h]; rfl), h]
  rfl

/-- A row with one operand byte. -/
theorem Spells2.of_entry {k : Byte → Instr} (h : entryOf op = ⟨2, some cost, fun _ b _ => k b⟩ := by rfl) :
    Spells2 op cost k := by
  refine ⟨fun b rest => ?_, costOf_of_cycles_eq_some (by rw [h])⟩
  rw [decode_two (by rw [h]), h]

/-- A row with a 16-bit operand, low byte first (30_encoding.md R83). -/
theorem Spells3.of_entry {k : Word → Instr}
    (h : entryOf op = ⟨3, some cost, fun _ lo hi => k (wordOf lo hi)⟩ := by rfl) : Spells3 op cost k := by
  refine ⟨fun lo hi rest => ?_, costOf_of_cycles_eq_some (by rw [h])⟩
  rw [decode_three (by rw [h]), h, ← wordOf_eq_append]

end

/-- The eight rows of an instruction with the standard Operands line (30_encoding.md R88). -/
theorem SpellsStandard.of_entries {k : Src → Instr} {imm zp zpx abs abx aby izx izy : Byte}
    (himm : entryOf imm = .imm k 2 := by rfl) (hzp : entryOf zp = .zp (ofSrc k) 3 := by rfl)
    (hzpx : entryOf zpx = .zpx (ofSrc k) 4 := by rfl) (habs : entryOf abs = .abs (ofSrc k) 4 := by rfl)
    (habx : entryOf abx = .abx (ofSrc k) 4 := by rfl) (haby : entryOf aby = .aby (ofSrc k) 4 := by rfl)
    (hizx : entryOf izx = .izx (ofSrc k) 6 := by rfl) (hizy : entryOf izy = .izy (ofSrc k) 5 := by rfl) :
    SpellsStandard k imm zp zpx abs abx aby izx izy :=
  ⟨.of_entry himm, .of_entry hzp, .of_entry hzpx, .of_entry habs, .of_entry habx, .of_entry haby, .of_entry hizx,
    .of_entry hizy⟩

/-! ## N and Z of a next state -/

/-- An instruction that ends with `setNZ(v)` writes N and Z into the flags it has by then (10_state.md R31). -/
theorem next_setNZ {t : State} {f : Flags} (hf : t.flags = f) (v : Byte) :
    (.next (t.setNZ v) : Result) = .next { t with flags := nzFrom f v } := by
  rw [State.setNZ, Flags.setNZ_eq_nzFrom, hf]
  rfl

end Sys2Proof.Machine
end

