-- ==== Sys2Proof/Proofs/LoadStoreTransfer.lean ====
section
/-!
The loads, stores and transfers (42_load_store_transfer.md): the rows of the table that spell them, and the whole next state.
Settles O14, O15 and O16.
-/

namespace Sys2Proof.Machine

/-- Settles O14: reading the operand leaves the flags, so N and Z are written into those of the state before. -/
theorem loadsWriteRegisterAndNZ : Obligations.LoadsWriteRegisterAndNZ := by
  refine ⟨⟨.of_entries, .of_entry, .of_entry, .of_entry, .of_entry, .of_entry, .of_entry, .of_entry, .of_entry,
    .of_entry, .of_entry⟩, fun src s => ?_⟩
  have hflags : (s.load src).2.flags = s.flags := s.load_snd_flags src
  exact ⟨(exec_lda s src).trans (next_setNZ ((State.setA_flags _ _).trans hflags) _),
    (exec_ldx s src).trans (next_setNZ ((State.setX_flags _ _).trans hflags) _),
    (exec_ldy s src).trans (next_setNZ ((State.setY_flags _ _).trans hflags) _)⟩

/-- Settles O15: `store` is one write of the effective address. -/
theorem storesWriteOneByte : Obligations.StoresWriteOneByte := by
  refine ⟨⟨.of_entry, .of_entry, .of_entry, .of_entry, .of_entry, .of_entry, .of_entry, .of_entry, .of_entry,
    .of_entry, .of_entry, .of_entry, .of_entry⟩, fun m s => ?_⟩
  rw [exec_sta, exec_stx, exec_sty]
  exact ⟨congrArg _ (s.store_eq m s.a), congrArg _ (s.store_eq m s.x), congrArg _ (s.store_eq m s.y)⟩

/-- Settles O16: five transfers end with `setNZ` of the byte moved, and TXS only writes S. -/
theorem transfersMoveRegisters : Obligations.TransfersMoveRegisters :=
  ⟨⟨.of_entry, .of_entry, .of_entry, .of_entry, .of_entry, .of_entry⟩, fun s =>
    ⟨(exec_tax s).trans (next_setNZ rfl _), (exec_tay s).trans (next_setNZ rfl _),
      (exec_txa s).trans (next_setNZ rfl _), (exec_tya s).trans (next_setNZ rfl _),
      (exec_tsx s).trans (next_setNZ rfl _), exec_txs s⟩⟩

end Sys2Proof.Machine
end

