-- ==== Sys2Proof/Proofs/Stack.lean ====
section
/-!
The stack instructions (43_stack.md): the rows of the table that spell them, and the whole next state. Settles O17.
-/

namespace Sys2Proof.Machine

/-- The pull moves S and records a read, so the flags are still those before it (20_memory.md R59). -/
theorem State.pull8_snd_flags (s : State) : s.pull8.2.flags = s.flags := by
  rw [State.pull8_snd, State.logged_flags, State.setSp_flags]

/-- Settles O17: PHA and PHP are one push; PLA ends with `setNZ` of the byte pulled, PLP writes all flags from it. -/
theorem stackInstructionResults : Obligations.StackInstructionResults := by
  refine ⟨⟨.of_entry, .of_entry, .of_entry, .of_entry⟩, fun s => ⟨exec_pha s, exec_php s, ?pla, exec_plp s⟩⟩
  case pla =>
    have hflags : (s.pull8.2.setA s.pull8.1).flags = s.flags :=
      (State.setA_flags _ _).trans s.pull8_snd_flags
    exact (exec_pla s).trans (next_setNZ hflags _)

end Sys2Proof.Machine
end

