-- ==== Sys2Proof/Proofs/Arithmetic.lean ====
section
/-!
The adder and decimal arithmetic (44_arith_logic.md R180 to R182): what `add8` computes on `m` and on its complement, as
numbers, and that the BCD digits of a number below 100 are that number. Settles O18 and O19.
-/

namespace Sys2Proof

/-! ## The binary adder -/

theorem carryIn_eq_toNat (c : Bool) : carryIn c = c.toNat := by cases c <;> rfl

/-- Masking a byte by 0x80 tests its sign. -/
theorem and_0x80_ne_zero (x : Byte) : (x &&& 0x80#8 != 0#8) = x.msb := by
  revert x; decide

/-- V is set exactly when both operands have the sign that the result has not (44_arith_logic.md R180). -/
theorem add8_v (a m : Byte) (cin : Bool) :
    (add8 a m cin).v = ((a.msb ^^ (add8 a m cin).r.msb) && (m.msb ^^ (add8 a m cin).r.msb)) := by
  rw [add8, and_0x80_ne_zero, BitVec.msb_and, BitVec.msb_xor, BitVec.msb_xor]

/-- The signs of operands and result show whether the signed sum has left -128 to 127. -/
theorem add8_v_eq_decide (a m : Byte) (cin : Bool) :
    (add8 a m cin).v =
      decide (a.toInt + m.toInt + (cin.toNat : Int) < -128 ∨ a.toInt + m.toInt + (cin.toNat : Int) > 127) := by
  have ha := a.isLt
  have hm := m.isLt
  have hc := cin.toNat_le
  have hr : (add8 a m cin).r.toNat = (a.toNat + m.toNat + cin.toNat) % 256 := by
    rw [add8, BitVec.toNat_ofNat, carryIn_eq_toNat]
  rw [add8_v, Bool.eq_iff_iff]
  simp only [BitVec.msb_eq_decide, hr, BitVec.toInt_eq_toNat_cond, Bool.and_eq_true, bne_iff_ne, ne_eq, decide_eq_decide,
    decide_eq_true_eq]
  omega

/-- The binary adder, its result, carry and overflow as numbers (44_arith_logic.md R180). -/
theorem add8_eq (a m : Byte) (cin : Bool) :
    add8 a m cin =
      { r := BitVec.ofNat 8 (a.toNat + m.toNat + cin.toNat)
        cout := decide (a.toNat + m.toNat + cin.toNat > 255)
        v := decide (a.toInt + m.toInt + (cin.toNat : Int) < -128 ∨ a.toInt + m.toInt + (cin.toNat : Int) > 127) } := by
  rw [← add8_v_eq_decide, ← carryIn_eq_toNat]
  rfl

/-- The complement of a two's complement byte. -/
theorem toInt_complement (m : Byte) : (~~~m).toInt = -m.toInt - 1 := by
  revert m; decide

/-- The adder on the complement of `m` subtracts `m` and the borrow `1 - cin`, and carries out exactly when it need not
borrow (44_arith_logic.md R184). -/
theorem add8_complement_eq (a m : Byte) (cin : Bool) :
    add8 a (m ^^^ 0xFF#8) cin =
      { r := BitVec.ofInt 8 ((a.toNat : Int) - m.toNat - (1 - cin.toNat))
        cout := decide (0 ≤ (a.toNat : Int) - m.toNat - (1 - cin.toNat))
        v := decide (a.toInt - m.toInt - (1 - cin.toNat) < -128 ∨ a.toInt - m.toInt - (1 - cin.toNat) > 127) } := by
  have hcomplement : m ^^^ 0xFF#8 = ~~~m := BitVec.xor_allOnes
  have hsum : ((a.toNat + (~~~m).toNat + cin.toNat : Nat) : Int) =
      (a.toNat : Int) - m.toNat - (1 - cin.toNat) + 256 := by
    rw [BitVec.toNat_not]
    omega
  have hr : BitVec.ofNat 8 (a.toNat + (~~~m).toNat + cin.toNat) =
      BitVec.ofInt 8 ((a.toNat : Int) - m.toNat - (1 - cin.toNat)) := by
    rw [← BitVec.ofInt_natCast, hsum, BitVec.ofInt_add]
    exact BitVec.add_zero _
  have hcarry : a.toNat + (~~~m).toNat + cin.toNat > 255 ↔ 0 ≤ (a.toNat : Int) - m.toNat - (1 - cin.toNat) := by
    omega
  have hsigned : a.toInt + (~~~m).toInt + (cin.toNat : Int) = a.toInt - m.toInt - (1 - cin.toNat) := by
    rw [toInt_complement]
    ring
  rw [hcomplement, add8_eq, hr, decide_eq_decide.mpr hcarry, hsigned]

/-- Settles O18, from the adder's three results as numbers. -/
theorem adderCarriesAndOverflows : Obligations.AdderCarriesAndOverflows := by
  intro a m cin
  rw [add8_eq]
  exact ⟨BitVec.toNat_ofNat _ _, decide_eq_true_iff, decide_eq_true_iff⟩

/-! ## Decimal arithmetic -/

/-- A carry or a borrow computed by a test, as a number. -/
theorem toNat_decide (p : Prop) [Decidable p] : (decide p).toNat = if p then 1 else 0 :=
  Bool.cond_decide p 1 0

theorem validBcd_iff (x : Byte) : validBcd x = true ↔ highDigit x ≤ 9 ∧ lowDigit x ≤ 9 := by
  simp [validBcd]

/-- Two decimal digits make a number below 100 (44_arith_logic.md R181). -/
theorem dec_lt_of_validBcd {x : Byte} (h : validBcd x = true) : dec x < 100 := by
  obtain ⟨hhigh, hlow⟩ := (validBcd_iff x).mp h
  rw [dec]
  omega

section

variable {n : Nat} (hn : n < 100)
include hn

theorem bcd_toNat : (bcd n).toNat = 16 * (n / 10) + n % 10 := by
  have hlow : n % 10 < 2 ^ 4 := by omega
  rw [bcd, ← Nat.shiftLeft_add_eq_or_of_lt hlow, Nat.shiftLeft_eq, BitVec.toNat_ofNat]
  omega

theorem highDigit_bcd : highDigit (bcd n) = n / 10 := by
  rw [highDigit, bcd_toNat hn]
  omega

theorem lowDigit_bcd : lowDigit (bcd n) = n % 10 := by
  rw [lowDigit, bcd_toNat hn]
  omega

theorem validBcd_bcd : validBcd (bcd n) = true := by
  rw [validBcd_iff, highDigit_bcd hn, lowDigit_bcd hn]
  omega

theorem dec_bcd : dec (bcd n) = n := by
  rw [dec, highDigit_bcd hn, lowDigit_bcd hn]
  exact Nat.div_add_mod n 10

end

section

variable {a m : Byte} (cin : Bool)

/-- A sum of two numbers below 100 and a carry is below 200, so its carry is its hundreds (44_arith_logic.md R181). -/
theorem dadd_exact (ha : validBcd a = true) (hm : validBcd m = true) :
    ∃ r c, dadd a m cin = some (r, c) ∧ validBcd r = true ∧ dec r + 100 * c.toNat = dec a + dec m + cin.toNat := by
  have ha' := dec_lt_of_validBcd ha
  have hm' := dec_lt_of_validBcd hm
  have hc := cin.toNat_le
  have hmod : (dec a + dec m + carryIn cin) % 100 < 100 := Nat.mod_lt _ (by decide)
  refine ⟨_, _, by rw [dadd, ha, hm, Bool.and_self, if_pos rfl], validBcd_bcd hmod, ?_⟩
  rw [dec_bcd hmod, carryIn_eq_toNat, toNat_decide]
  split <;> omega

/-- A difference of two numbers below 100 less a borrow is at least -100, so its borrow is one hundred
(44_arith_logic.md R182). -/
theorem dsub_exact (ha : validBcd a = true) (hm : validBcd m = true) :
    ∃ r c, dsub a m cin = some (r, c) ∧ validBcd r = true ∧
      (dec r : Int) - 100 * (1 - c.toNat) = (dec a : Int) - dec m - (1 - cin.toNat) := by
  have ha' := dec_lt_of_validBcd ha
  have hm' := dec_lt_of_validBcd hm
  have hc := cin.toNat_le
  have hmod : (((dec a : Int) - dec m - (1 - (carryIn cin : Int))) % 100).toNat < 100 := by omega
  refine ⟨_, _, by rw [dsub, ha, hm, Bool.and_self, if_pos rfl], validBcd_bcd hmod, ?_⟩
  rw [dec_bcd hmod, carryIn_eq_toNat, toNat_decide]
  split <;> omega

end

/-- Settles O19: both operations test the operands' digits first, and are exact where the test passes. -/
theorem decimalArithmeticIsExact : Obligations.DecimalArithmeticIsExact := by
  refine fun a m cin => ⟨fun ha hm => ⟨dadd_exact cin ha hm, dsub_exact cin ha hm⟩, fun hinvalid => ?_⟩
  rw [← Bool.and_eq_true] at hinvalid
  exact ⟨if_neg hinvalid, if_neg hinvalid⟩

end Sys2Proof
end

