-- ==== Sys2Proof/Proofs/ArithLogic.lean ====
section
/-!
The arithmetic and logic instructions (44_arith_logic.md R183 to R192): the rows of the table that spell them, and the
whole next state. Settles O20, O21, O22 and O23.
-/

namespace Sys2Proof

/-- C, Z and N of a compare as numbers (44_arith_logic.md R188). -/
theorem Flags.compare_eq (f : Flags) (r m : Byte) :
    f.compare r m =
      { f with
        c := decide (m.toNat ≤ r.toNat), z := decide (r.toNat = m.toNat)
        n := decide ((r.toNat + 256 - m.toNat) % 256 ≥ 128) } := by
  have hm := m.isLt
  have hz : (r == m) = decide (r.toNat = m.toNat) := decide_eq_decide.mpr BitVec.toNat_inj.symm
  have hn : bitAt (r - m) 7 = decide ((r.toNat + 256 - m.toNat) % 256 ≥ 128) := by
    rw [bitAt_seven, BitVec.msb_eq_decide, BitVec.toNat_sub]
    congr 2
    omega
  rw [Flags.compare, hz, hn]

end Sys2Proof

namespace Sys2Proof.Machine

/-! ## ADC and SBC -/

/-- What the model draws for a decimal result is what the statements say is drawn (44_arith_logic.md R181 to R184). -/
theorem State.writeDecimal_eq_withDecimal (t : State) (result : Option (Byte × Bool)) :
    t.writeDecimal result = t.withDecimal result := by
  cases result with
  | none => rfl
  | some rc => rfl

/-- The next state of ADC and SBC from what they computed (44_arith_logic.md R183, R184). -/
theorem next_decimal_or_sum (s : State) (src : Src) (result : Option (Byte × Bool)) (sum : Sum) :
    (.next (if s.decimal then (s.load src).2.writeDecimal result else (s.load src).2.writeSum sum) : Result) =
      .next (if s.config.decimalMode = true ∧ s.flags.d = true then (s.load src).2.withDecimal result
        else
        { (s.load src).2 with a := sum.r, flags := nzFrom { s.flags with c := sum.cout, v := sum.v } sum.r }) := by
  have hmode : s.decimal = true ↔ s.config.decimalMode = true ∧ s.flags.d = true := Bool.and_eq_true_iff
  have hsum : (s.load src).2.writeSum sum =
      { (s.load src).2 with a := sum.r, flags := nzFrom { s.flags with c := sum.cout, v := sum.v } sum.r } := by
    rw [← Flags.setNZ_eq_nzFrom, ← s.load_snd_flags src]
    rfl
  exact congrArg _ (if_congr hmode (State.writeDecimal_eq_withDecimal _ _) hsum)

/-- Settles O20, from the adder's results as numbers. -/
theorem adcResult : Obligations.AdcResult := by
  refine ⟨.of_entries, fun src s => ?_⟩
  rw [exec_adc, next_decimal_or_sum, add8_eq]

/-- Settles O21: binary SBC is the adder on the operand's complement. -/
theorem sbcResult : Obligations.SbcResult := by
  refine ⟨.of_entries, fun src s => ?_⟩
  rw [exec_sbc, next_decimal_or_sum, add8_complement_eq]

/-! ## AND, ORA and EOR -/

/-- The next state of AND, ORA and EOR from the byte they computed (44_arith_logic.md R185 to R187). -/
theorem next_writeLogic (s : State) (src : Src) (r : Byte) :
    (.next ((s.load src).2.writeLogic r) : Result) = .next { (s.load src).2 with a := r, flags := nzFrom s.flags r } :=
  next_setNZ ((State.setA_flags _ _).trans (s.load_snd_flags src)) r

/-- Settles O22: each computes the bitwise operation of A and the operand. -/
theorem logicResults : Obligations.LogicResults :=
  ⟨⟨.of_entries, .of_entries, .of_entries⟩, fun src s =>
    ⟨⟨_, (exec_and s src).trans (next_writeLogic s src _), fun _ => BitVec.getLsbD_and⟩,
      ⟨_, (exec_ora s src).trans (next_writeLogic s src _), fun _ => BitVec.getLsbD_or⟩,
      ⟨_, (exec_eor s src).trans (next_writeLogic s src _), fun _ => BitVec.getLsbD_xor⟩⟩⟩

/-! ## CMP, CPX, CPY and BIT -/

/-- Settles O23: the flags of a compare as numbers; BIT's are its definition. -/
theorem compareAndBitTestResults : Obligations.CompareAndBitTestResults := by
  refine ⟨⟨.of_entries, .of_entry, .of_entry, .of_entry, .of_entry, .of_entry, .of_entry, .of_entry, .of_entry⟩,
    fun src s => ?_, fun mode s => exec_bit s mode⟩
  rw [exec_cmp, exec_cpx, exec_cpy, Flags.compare_eq, Flags.compare_eq, Flags.compare_eq]
  exact ⟨rfl, rfl, rfl⟩

end Sys2Proof.Machine
end

