-- ==== Sys2Proof/Proofs/IncDecShift.lean ====
section
/-!
The increments, decrements, shifts and rotates (45_inc_dec_shift.md): what each computes as a number, the rows of the table
that spell them, and the whole next state. Settles O24, O25 and O26.
-/

namespace Sys2Proof

/-! ## The bytes computed, as numbers -/

theorem add_one_eq_ofNat (v : Byte) : v + 1#8 = BitVec.ofNat 8 (v.toNat + 1) := BitVec.add_def v 1#8

theorem sub_one_eq_ofNat (v : Byte) : v - 1#8 = BitVec.ofNat 8 (v.toNat + 255) := by
  rw [BitVec.sub_def, Nat.add_comm]
  rfl

theorem shiftLeft_one_eq_ofNat (v : Byte) : v <<< 1 = BitVec.ofNat 8 (2 * v.toNat) := by
  apply BitVec.eq_of_toNat_eq
  rw [BitVec.toNat_shiftLeft, BitVec.toNat_ofNat, Nat.shiftLeft_eq, Nat.mul_comm]

theorem shiftRight_one_eq_ofNat (v : Byte) : v >>> 1 = BitVec.ofNat 8 (v.toNat / 2) := by
  have hv := v.isLt
  apply BitVec.eq_of_toNat_eq
  rw [BitVec.toNat_ushiftRight, BitVec.toNat_ofNat, Nat.shiftRight_eq_div_pow]
  omega

/-- The carry enters at bit 0, which the shift has cleared (45_inc_dec_shift.md R208). -/
theorem shiftLeft_one_or_bitByte (v : Byte) (c : Bool) :
    v <<< 1 ||| bitByte c = BitVec.ofNat 8 (2 * v.toNat + c.toNat) := by
  cases c <;> revert v <;> decide

/-- The carry enters at bit 7, which the shift has cleared (45_inc_dec_shift.md R209). -/
theorem shiftRight_one_or_bitByte (v : Byte) (c : Bool) :
    v >>> 1 ||| bitByte c <<< 7 = BitVec.ofNat 8 (v.toNat / 2 + 128 * c.toNat) := by
  cases c <;> revert v <;> decide

/-! ## Rotation through carry -/

/-- ROL rotates the nine bits C, A by one place (45_inc_dec_shift.md R208). -/
theorem cons_rolByte (v : Byte) (f : Flags) :
    BitVec.cons (rolByte v f).2.c (rolByte v f).1 = (BitVec.cons f.c v).rotateLeft 1 := by
  have hbits : ∀ c, BitVec.cons (bitAt v 7) (v <<< 1 ||| bitByte c) = (BitVec.cons c v).rotateLeft 1 := by
    revert v
    decide
  exact hbits f.c

theorem rotateLeft_succ {w : Nat} (x : BitVec w) (k : Nat) : x.rotateLeft (k + 1) = (x.rotateLeft k).rotateLeft 1 := by
  apply BitVec.eq_of_getMsbD_eq
  intro i hi
  have hmod : (1 + i) % w < w := Nat.mod_lt _ (by omega)
  simp [BitVec.getMsbD_rotateLeft, hi, hmod, Nat.add_assoc]

theorem rotateLeft_zero {w : Nat} (x : BitVec w) : x.rotateLeft 0 = x := by
  apply BitVec.eq_of_getMsbD_eq
  intro i hi
  rw [BitVec.getMsbD_rotateLeft, Nat.zero_add, Nat.mod_eq_of_lt hi, decide_eq_true hi, Bool.true_and]

theorem iterate_rotateLeft_one {w : Nat} (x : BitVec w) (k : Nat) : (BitVec.rotateLeft · 1)^[k] x = x.rotateLeft k := by
  induction k with
  | zero => exact (rotateLeft_zero x).symm
  | succ k ih => rw [Function.iterate_succ_apply', ih, rotateLeft_succ x k]

/-- Rotating all the way round changes nothing. -/
theorem rotateLeft_width {w : Nat} (x : BitVec w) : x.rotateLeft w = x := by
  rw [← BitVec.rotateLeft_mod_eq_rotateLeft, Nat.mod_self, rotateLeft_zero]

end Sys2Proof

namespace Sys2Proof.Machine

/-- The four rows of a read-modify-write of memory (30_encoding.md R88). -/
theorem SpellsModify.of_entries {k : Mem → Instr} {zp zpx abs abx : Byte}
    (hzp : entryOf zp = .zp k 5 := by rfl) (hzpx : entryOf zpx = .zpx k 6 := by rfl)
    (habs : entryOf abs = .abs k 6 := by rfl) (habx : entryOf abx = .abx k 7 := by rfl) :
    SpellsModify k zp zpx abs abx :=
  ⟨.of_entry hzp, .of_entry hzpx, .of_entry habs, .of_entry habx⟩

/-! ## The next state -/

section

variable (s : State) {f : Modify} {r : Byte} {flags : Flags}

/-- A read-modify-write of A, from the byte and the flags its function computes (41_addressing_modes.md R136). -/
theorem next_modifyNZ_acc (h : f s.a s.flags = (r, flags)) :
    (.next (s.modifyNZ .acc f) : Result) = .next { s with a := r, flags := nzFrom flags r } := by
  rw [State.modifyNZ_acc, h, Flags.setNZ_eq_nzFrom]
  rfl

/-- A read-modify-write of memory, from the byte and the flags its function computes of the byte read
(41_addressing_modes.md R136). -/
theorem next_modifyNZ_mem (m : Mem) (h : f ((s.ea m).2.memRead (s.ea m).1).1 s.flags = (r, flags)) :
    (.next (s.modifyNZ (.mem m) f) : Result) =
      .next { ((s.ea m).2.memRead (s.ea m).1).2.memWrite (s.ea m).1 r with flags := nzFrom flags r } := by
  simp only [State.modifyNZ_mem, h, Flags.setNZ_eq_nzFrom]
  rfl

end

/-- Settles O24: each adds or subtracts one and then writes N and Z into the flags of the state before. -/
theorem incrementAndDecrementResults : Obligations.IncrementAndDecrementResults := by
  refine ⟨⟨.of_entries, .of_entries, .of_entry, .of_entry, .of_entry, .of_entry⟩, fun m s => ?_⟩
  simp only [← add_one_eq_ofNat, ← sub_one_eq_ofNat]
  exact ⟨(exec_inc s m).trans (next_modifyNZ_mem s m rfl), (exec_dec s m).trans (next_modifyNZ_mem s m rfl),
    (exec_inx s).trans (next_setNZ rfl _), (exec_iny s).trans (next_setNZ rfl _),
    (exec_dex s).trans (next_setNZ rfl _), (exec_dey s).trans (next_setNZ rfl _)⟩

/-- Settles O25: with the results as numbers, each is the read-modify-write of its function. -/
theorem shiftAndRotateResults : Obligations.ShiftAndRotateResults := by
  refine ⟨⟨⟨.of_entry, .of_entries⟩, ⟨.of_entry, .of_entries⟩, ⟨.of_entry, .of_entries⟩, ⟨.of_entry, .of_entries⟩⟩,
    fun m s => ?_⟩
  simp only [← shiftLeft_one_eq_ofNat, ← shiftRight_one_eq_ofNat, ← shiftLeft_one_or_bitByte,
    ← shiftRight_one_or_bitByte]
  exact ⟨(exec_asl s _).trans (next_modifyNZ_acc s rfl), (exec_asl s _).trans (next_modifyNZ_mem s m rfl),
    (exec_lsr s _).trans (next_modifyNZ_acc s rfl), (exec_lsr s _).trans (next_modifyNZ_mem s m rfl),
    (exec_rol s _).trans (next_modifyNZ_acc s rfl), (exec_rol s _).trans (next_modifyNZ_mem s m rfl),
    (exec_ror s _).trans (next_modifyNZ_acc s rfl), (exec_ror s _).trans (next_modifyNZ_mem s m rfl)⟩

/-! ## Nine ROLs -/

/-- The nine bits that ROL and ROR of A rotate: C, then A. -/
def State.carryAndA (s : State) : BitVec 9 := .cons s.flags.c s.a

theorem State.carryAndA_inj {s t : State} : s.carryAndA = t.carryAndA ↔ s.flags.c = t.flags.c ∧ s.a = t.a := by
  refine ⟨fun h => ⟨?carry, ?a⟩, fun ⟨hc, ha⟩ => by rw [State.carryAndA, hc, ha, State.carryAndA]⟩
  case carry => simpa [State.carryAndA] using congrArg BitVec.msb h
  case a => simpa [State.carryAndA] using congrArg (BitVec.setWidth 8) h

theorem semiconj_carryAndA_rol :
    Function.Semiconj State.carryAndA (State.modifyNZ .acc rolByte) (BitVec.rotateLeft · 1) :=
  fun s => cons_rolByte s.a s.flags

/-- Settles O26: each ROL rotates the nine bits C, A by one place, so nine rotate them all the way round. -/
theorem nineRotatesRestore : Obligations.NineRotatesRestore := by
  intro s
  refine ⟨fun k => (State.modifyNZ .acc rolByte)^[k] s, rfl, fun k _ => ?step, ?restored⟩
  case step => exact (exec_rol _ .acc).trans (congrArg _ (Function.iterate_succ_apply' _ k s).symm)
  case restored =>
    have hround : ((State.modifyNZ .acc rolByte)^[9] s).carryAndA = s.carryAndA := by
      rw [semiconj_carryAndA_rol.iterate_right 9 s, iterate_rotateLeft_one, rotateLeft_width]
    exact (State.carryAndA_inj.mp hround).symm

end Sys2Proof.Machine
end

