-- ==== Sys2Proof/Proofs/FlagFrames.lean ====
section
/-!
Frames of the flags (10_state.md R25): which flags the shared effects of the instructions leave alone, and which the
instructions. Where a case is one `simp`, the instruction's `exec_` equation names the operations it is made of, and each
of these keeps the flags by a lemma of Laws/ or of this file. Settles O38.
-/

namespace Sys2Proof

variable (f : Flags) (v : Byte)

@[simp] theorem Flags.setNZ_c : (f.setNZ v).c = f.c := rfl
@[simp] theorem Flags.setNZ_v : (f.setNZ v).v = f.v := rfl
@[simp] theorem Flags.setNZ_i : (f.setNZ v).i = f.i := rfl
@[simp] theorem Flags.setNZ_d : (f.setNZ v).d = f.d := rfl
@[simp] theorem Flags.setNZ_b : (f.setNZ v).b = f.b := rfl

end Sys2Proof

namespace Sys2Proof.Machine

variable (s : State)

@[simp] theorem State.writeLogic_flags (r : Byte) : (s.writeLogic r).flags = s.flags.setNZ r := rfl

@[simp] theorem State.writeSum_flags (sum : Sum) :
    (s.writeSum sum).flags = { s.flags with c := sum.cout, v := sum.v }.setNZ sum.r := rfl

/-- The flags after a read-modify-write are those its function wrote, from the byte it was given, then N and Z of the result
(41_addressing_modes.md R136). -/
theorem State.modifyNZ_flags (dst : Dst) (f : Modify) :
    ∃ old, (s.modifyNZ dst f).flags = (f old s.flags).2.setNZ (f old s.flags).1 := by
  cases dst with
  | acc => exact ⟨s.a, rfl⟩
  | mem m => exact ⟨_, congrArg State.flags (s.modifyNZ_mem m f)⟩

theorem State.modifyNZ_flag_c {f : Modify} (hf : ∀ old, (f old s.flags).2 = s.flags) (dst : Dst) :
    (s.modifyNZ dst f).flags.c = s.flags.c := by
  obtain ⟨old, h⟩ := s.modifyNZ_flags dst f
  rw [h, Flags.setNZ_c, hf]

/-- No read-modify-write of the instruction set writes I, D, B or V (45_inc_dec_shift.md R200 to R209). -/
theorem State.modifyNZ_keeps_idbv {f : Modify} (hf : ∀ old, ∃ c, (f old s.flags).2 = { s.flags with c := c })
    (dst : Dst) :
    (s.modifyNZ dst f).flags.i = s.flags.i ∧ (s.modifyNZ dst f).flags.d = s.flags.d ∧
    (s.modifyNZ dst f).flags.b = s.flags.b ∧ (s.modifyNZ dst f).flags.v = s.flags.v := by
  obtain ⟨old, h⟩ := s.modifyNZ_flags dst f
  obtain ⟨c, hc⟩ := hf old
  simp [h, hc]

/-- Settles O38, instruction by instruction. -/
theorem onlyListedInstructionsWriteFlags : Obligations.OnlyListedInstructionsWriteFlags := by
  intro i s
  cases i with
  | adc src | sbc src =>
    simp only [exec_adc, exec_sbc, Host.Outcome.next.injEq, forall_eq']
    split <;> simp [writesC, writesNZ, writesV]
  | inc m | dec m =>
    rintro t ⟨⟩
    refine ⟨fun _ => s.modifyNZ_flag_c (fun _ => rfl) _, nofun, ?_⟩
    simp only [writesI, writesD, writesB, writesV, forall_const]
    exact s.modifyNZ_keeps_idbv (fun _ => ⟨_, rfl⟩) _
  | asl dst | lsr dst | rol dst | ror dst =>
    rintro t ⟨⟩
    refine ⟨nofun, nofun, ?_⟩
    simp only [writesI, writesD, writesB, writesV, forall_const]
    exact s.modifyNZ_keeps_idbv (fun _ => ⟨_, rfl⟩) _
  | cmp src | cpx src | cpy src => simp [writesC, writesNZ, Flags.compare]
  | bit m => simp [writesNZ, writesV, Flags.bitTest]
  | _ => simp [writesC, writesNZ, writesI, writesD, writesB, writesV]

end Sys2Proof.Machine
end

