-- ==== Sys2Proof/Proofs/ControlTransfer.lean ====
section
/-!
The control transfers (46_control_transfer.md R220 to R233): the rows of the table that spell them, and the whole next
state. Settles O27, O28, O30 and O31.
-/

namespace Sys2Proof

/-! ## Words and their bytes, as numbers -/

theorem wordOf_eq_ofNat (lo hi : Byte) : wordOf lo hi = BitVec.ofNat 16 (hi.toNat * 256 + lo.toNat) := by
  rw [← wordOf_toNat, BitVec.ofNat_toNat, BitVec.setWidth_eq]

theorem lowByte_eq_ofNat (w : Word) : lowByte w = BitVec.ofNat 8 (w.toNat % 256) := by
  rw [← lowByte_toNat, BitVec.ofNat_toNat, BitVec.setWidth_eq]

theorem highByte_eq_ofNat (w : Word) : highByte w = BitVec.ofNat 8 (w.toNat / 256) := by
  rw [← highByte_toNat, BitVec.ofNat_toNat, BitVec.setWidth_eq]

theorem sub_one_toNat (w : Word) : (w - 1#16).toNat = (w.toNat + 65535) % 65536 := by
  rw [BitVec.toNat_sub, Nat.add_comm]
  rfl

theorem append_bytes (w : Word) : highByte w ++ lowByte w = w := by
  rw [← wordOf_eq_append, wordOf_bytes]

/-- Masking joins the page of one address with the place in the page of another. -/
theorem page_or_offset (p q : Word) : p &&& 0xFF00#16 ||| q &&& 0x00FF#16 = wordOf (lowByte q) (highByte p) := by
  have hpage : p &&& 0xFF00#16 = highByte p ++ 0#8 := by
    calc p &&& 0xFF00#16 = (highByte p ++ lowByte p) &&& (BitVec.allOnes 8 ++ 0#8) := by rw [append_bytes]; rfl
      _ = highByte p ++ 0#8 := by rw [BitVec.and_append, BitVec.and_allOnes, BitVec.and_zero]
  have hoffset : q &&& 0x00FF#16 = 0#8 ++ lowByte q := by
    calc q &&& 0x00FF#16 = (highByte q ++ lowByte q) &&& (0#8 ++ BitVec.allOnes 8) := by rw [append_bytes]; rfl
      _ = 0#8 ++ lowByte q := by rw [BitVec.and_append, BitVec.and_allOnes, BitVec.and_zero]
  rw [hpage, hoffset, BitVec.or_append, BitVec.or_zero, BitVec.zero_or, wordOf_eq_append]

end Sys2Proof

namespace Sys2Proof.Machine

/-! ## JMP -/

/-- Where JMP (ind) reads the high byte of its target, as a number (41_addressing_modes.md R130). -/
theorem jmpIndHighAddress_eq_ofNat (pageWrap : Bool) (ptr : Word) :
    jmpIndHighAddress pageWrap ptr =
      BitVec.ofNat 16 (if pageWrap then ptr.toNat / 256 * 256 + (ptr.toNat + 1) % 256 else ptr.toNat + 1) := by
  cases pageWrap with
  | false => exact succ_eq_ofNat ptr
  | true =>
    have hmod : (ptr.toNat + 1) % 65536 % 256 = (ptr.toNat + 1) % 256 := by omega
    calc jmpIndHighAddress true ptr = wordOf (lowByte (ptr + 1#16)) (highByte ptr) := page_or_offset _ _
      _ = BitVec.ofNat 16 (ptr.toNat / 256 * 256 + (ptr.toNat + 1) % 65536 % 256) := by
        rw [wordOf_eq_ofNat, highByte_toNat, lowByte_toNat, BitVec.toNat_add]
        rfl
      _ = _ := by rw [hmod]; rfl

/-- Settles O27: the two bytes of an indirect target make one word. -/
theorem jumpTargets : Obligations.JumpTargets := by
  refine ⟨⟨.of_entry, .of_entry⟩, fun w s => ⟨exec_jmp s (.abs w), ?ind⟩⟩
  case ind =>
    simp only [← jmpIndHighAddress_eq_ofNat, ← wordOf_eq_ofNat]
    exact exec_jmp s (.ind w)

/-! ## JSR and RTS -/

/-- Settles O28: the bytes pushed are those of PC - 1, and those pulled make the word that RTS adds one to. -/
theorem callAndReturnResults : Obligations.CallAndReturnResults := by
  refine ⟨⟨.of_entry, .of_entry⟩, fun target s => ?_⟩
  simp only [← sub_one_toNat, ← highByte_eq_ofNat, ← lowByte_eq_ofNat, ← wordOf_toNat, ← succ_eq_ofNat]
  exact ⟨exec_jsr s target, exec_rts s⟩

/-! ## BRK and RTI -/

/-- Settles O30: with the words as numbers, both are their definitions. -/
theorem breakAndReturnFromInterruptResults : Obligations.BreakAndReturnFromInterruptResults := by
  refine ⟨⟨.of_entry, .of_entry⟩, fun s => ?_⟩
  simp only [← succ_eq_ofNat, ← wordOf_eq_ofNat]
  exact ⟨exec_brk s, exec_rti s⟩

/-! ## The branches -/

/-- A branch's target as a number, modulo 2^16 (41_addressing_modes.md R133). -/
theorem branchTarget_eq_ofInt (pc : Word) (rel : Byte) :
    branchTarget pc rel = BitVec.ofInt 16 (pc.toNat + rel.toInt) := by
  rw [branchTarget, sext16_eq_ofInt, BitVec.ofInt_add, BitVec.ofInt_natCast, BitVec.ofNat_toNat, BitVec.setWidth_eq]

/-- `branch(cond)` writes nothing but PC, and that only when taken (46_control_transfer.md R225). -/
theorem State.branch_eq_ite (s : State) (cond : Bool) (rel : Byte) :
    s.branch cond rel = if cond then { s with pc := BitVec.ofInt 16 (s.pc.toNat + rel.toInt) } else s := by
  rw [← branchTarget_eq_ofInt]
  rfl

/-- Settles O31: each branch is `branch` of its flag or of its complement. -/
theorem branchResults : Obligations.BranchResults := by
  refine ⟨⟨.of_entry, .of_entry, .of_entry, .of_entry, .of_entry, .of_entry, .of_entry, .of_entry⟩, fun rel s => ?_⟩
  simp only [← State.branch_eq_ite, beq_true, beq_false]
  exact ⟨exec_bcc s rel, exec_bcs s rel, exec_beq s rel, exec_bne s rel, exec_bmi s rel, exec_bpl s rel,
    exec_bvc s rel, exec_bvs s rel⟩

end Sys2Proof.Machine
end

