-- ==== Sys2Proof/Proofs/CallAndReturn.lean ====
section
/-!
Calls and interrupts against their returns on plain memory (46_control_transfer.md R221 to R224, 60_exceptions.md R304, R312,
R315): what the pushes leave in the stack page, which the pulls of RTS and RTI read back for every S, its wrap included.
Settles O29, O51 and O52.
-/

namespace Sys2Proof.Machine

variable {s t : State}

/-! ## The stack page on plain memory -/

/-- The byte of plain memory at `0x0100 | p` (20_memory.md R58). -/
def State.stackByte (s : State) (p : Byte) : Byte := s.mem.read (stackAddress p).toNat

@[simp] theorem State.stackByte_setPc (s : State) (w : Word) (p : Byte) : (s.setPc w).stackByte p = s.stackByte p := rfl

theorem State.PlainMemory.push8 (h : s.PlainMemory) (v : Byte) : (s.push8 v).PlainMemory := h.memWrite _ v

/-- A push writes the byte at S and leaves the rest of the stack page alone, on plain memory (20_memory.md R58). -/
theorem State.PlainMemory.stackByte_push8 (h : s.PlainMemory) (v p : Byte) :
    (s.push8 v).stackByte p = if p = s.sp then v else s.stackByte p := by
  simp only [State.stackByte, State.push8_mem, h.read_memAfterWrite, BitVec.toNat_inj, stackAddress_inj]

/-- Two pushes leave their bytes at S and below it: S and S - 1 differ modulo 256. -/
theorem State.PlainMemory.stackByte_push8_push8 (h : s.PlainMemory) (hi lo : Byte) :
    ((s.push8 hi).push8 lo).stackByte s.sp = hi ∧ ((s.push8 hi).push8 lo).stackByte (s.sp - 1#8) = lo := by
  have hne : s.sp ≠ s.sp - 1#8 := by bv_omega
  simp [(h.push8 hi).stackByte_push8, h.stackByte_push8, hne]

/-- The three bytes that an interrupt entry leaves in the stack page (60_exceptions.md R304). -/
theorem State.PlainMemory.stackByte_entered (h : s.PlainMemory) :
    s.entered.stackByte s.sp = highByte s.pc ∧ s.entered.stackByte (s.sp - 1#8) = lowByte s.pc ∧
    s.entered.stackByte (s.sp - 1#8 - 1#8) = s.pack := by
  obtain ⟨hhigh, hlow⟩ := h.stackByte_push8_push8 (highByte s.pc) (lowByte s.pc)
  have hne : s.sp ≠ s.sp - 1#8 - 1#8 ∧ s.sp - 1#8 ≠ s.sp - 1#8 - 1#8 := by constructor <;> bv_omega
  have hthird : ∀ p, s.entered.stackByte p =
      (((s.push8 (highByte s.pc)).push8 (lowByte s.pc)).push8 s.pack).stackByte p := fun _ => rfl
  simp [hthird, ((h.push8 _).push8 _).stackByte_push8, hne, hhigh, hlow]

/-! ## Pulling what was pushed -/

/-- On a plain RAM, RTS goes to one past the word in the two bytes above S (46_control_transfer.md R222). -/
theorem exec_rts_ram (hbus : s.bus = .ram) :
    ∃ u, exec .rts s = .next u ∧
      u.pc = wordOf (s.stackByte (s.sp + 1#8)) (s.stackByte (s.sp + 1#8 + 1#8)) + 1#16 ∧
      u.sp = s.sp + 1#8 + 1#8 ∧ u.a = s.a ∧ u.x = s.x ∧ u.y = s.y ∧ u.flags = s.flags := by
  refine ⟨_, exec_rts s, ?_⟩
  simp [State.stackByte, State.busAnswer_ram, hbus]

/-- On a plain RAM, RTI takes the flags and PC from the three bytes above S (46_control_transfer.md R223). -/
theorem State.returnFromInterrupt_ram (hbus : s.bus = .ram) :
    s.returnFromInterrupt.flags = Flags.unpack (s.stackByte (s.sp + 1#8)) ∧
    s.returnFromInterrupt.pc =
      wordOf (s.stackByte (s.sp + 1#8 + 1#8)) (s.stackByte (s.sp + 1#8 + 1#8 + 1#8)) ∧
    s.returnFromInterrupt.sp = s.sp + 1#8 + 1#8 + 1#8 := by
  simp [State.returnFromInterrupt, State.stackByte, State.busAnswer_ram, hbus]

/-- Settles O29: RTS pulls the two bytes that JSR pushed, which make PC - 1. -/
theorem returnComesBackFromCall : Obligations.ReturnComesBackFromCall := by
  intro target s h
  obtain ⟨hhigh, hlow⟩ := h.stackByte_push8_push8 (highByte (s.pc - 1#16)) (lowByte (s.pc - 1#16))
  obtain ⟨u, hrts, hu⟩ := exec_rts_ram
    (s := ((s.push8 (highByte (s.pc - 1#16))).push8 (lowByte (s.pc - 1#16))).setPc target) (by simp [h.1])
  refine ⟨_, u, exec_jsr s target, State.setPc_pc _ _, hrts, ?_⟩
  simpa [BitVec.sub_add_cancel, hhigh, hlow] using hu

/-- From what an interrupt entry pushed, RTI restores PC, S and the flags, on plain memory (60_exceptions.md R315). -/
theorem State.PlainMemory.returnFromInterrupt_of_entered (h : s.PlainMemory) (hbus : t.bus = s.bus)
    (hsp : t.sp = s.entered.sp) (hmem : t.mem = s.entered.mem) :
    t.returnFromInterrupt.pc = s.pc ∧ t.returnFromInterrupt.sp = s.sp ∧ t.returnFromInterrupt.flags = s.flags := by
  obtain ⟨hhigh, hlow, hstatus⟩ := h.stackByte_entered
  obtain ⟨hflags', hpc', hsp'⟩ := State.returnFromInterrupt_ram (hbus.trans h.1)
  have hbyte : ∀ p, t.stackByte p = s.entered.stackByte p := by simp only [State.stackByte, hmem, implies_true]
  simp only [hsp, State.entered_sp, BitVec.sub_add_cancel, hbyte, hhigh, hlow, hstatus, wordOf_bytes, State.pack,
    unpack_pack] at hflags' hpc' hsp'
  exact ⟨hpc', hsp', hflags'⟩

/-! ## Interrupts -/

/-- What a serviced TriggerNMI or TriggerIRQ leaves (60_exceptions.md R306, R310). -/
theorem call_serviced {c : HostCall} {ret : HostReturn} (hc : c = .triggerNmi ∨ c = .triggerIrq ∧ s.flags.i = false)
    (e : call c s = .next (t, ret)) : ∃ vector cost, t = (s.interruptEntry vector).addCycles cost := by
  obtain ⟨_, _, _, rfl, -⟩ | ⟨rfl, -⟩ | ⟨rfl, -⟩ | ⟨-, -, -, ht⟩ | ⟨-, -, -, -, ht⟩ | ⟨rfl, -, -, hi, -⟩ | ⟨rfl, -⟩ :=
    call_next e
  case inr.inr.inr.inl | inr.inr.inr.inr.inl => exact ⟨_, _, ht⟩
  case inr.inr.inr.inr.inr.inl => simp [hi] at hc
  all_goals simp at hc

/-- Settles O51: RTI reads only what the entry pushed, and the cycles added leave that alone. -/
theorem returnResumesTheInterruptedCode : Obligations.ReturnResumesTheInterruptedCode := by
  intro c s t ret h hc e
  obtain ⟨vector, cost, rfl⟩ := call_serviced hc e
  obtain ⟨hpc, hsp, hflags⟩ := h.returnFromInterrupt_of_entered (t := (s.interruptEntry vector).addCycles cost)
    (s.interruptEntry_bus vector) ((s.interruptEntry_sp vector).trans s.entered_sp.symm) (s.interruptEntry_mem vector)
  refine ⟨congrArg Flags.i (s.interruptEntry_flags vector), _, exec_rti _, hpc, hsp, hflags, ?_⟩
  simp [State.addCycles]

/-! ## BRK -/

/-- An address behind the stack page is not a stack address (20_memory.md R58). -/
theorem ne_stackAddress {w : Word} (hw : 512 ≤ w.toNat) (p : Byte) : w ≠ stackAddress p := by
  rintro rfl
  have hp := p.isLt
  rw [stackAddress_toNat] at hw
  omega

/-- An interrupt entry's pushes leave the vector alone, so on plain memory it goes to the word that memory holds there
(60_exceptions.md R304). -/
theorem State.interruptEntry_pc_toNat (hbus : s.bus = .ram) {vector : Word} (hlow : 512 ≤ vector.toNat)
    (hhigh : (vector + 1#16).toNat = vector.toNat + 1) :
    (s.interruptEntry vector).pc.toNat =
      (s.mem.read (vector.toNat + 1)).toNat * 256 + (s.mem.read vector.toNat).toNat := by
  have hread : ∀ w : Word, 512 ≤ w.toNat → s.entered.mem.read w.toNat = s.mem.read w.toNat := by
    intro w hw
    rw [← s.interruptEntry_mem vector]
    exact s.read_interruptEntry_ne vector (ne_stackAddress hw _) (ne_stackAddress hw _) (ne_stackAddress hw _)
  have hpc : (s.interruptEntry vector).pc =
      wordOf (s.entered.mem.read vector.toNat) (s.entered.mem.read (vector + 1#16).toNat) := by
    rw [State.interruptEntry_eq, State.setPc_pc, State.read16_fst, State.busAnswer_ram, State.busAnswer_ram,
      State.logged_mem]
    all_goals simp [hbus]
  rw [hpc, wordOf_toNat, hread vector hlow, hread (vector + 1#16) (by omega), hhigh]

/-- Settles O52: BRK is an interrupt entry from the state with the signature byte skipped and B set, which RTI restores. -/
theorem returnComesBackFromBreak : Obligations.ReturnComesBackFromBreak := by
  intro s h
  have hplain : ((s.setPc (s.pc + 1#16)).setFlags { s.flags with b := true }).PlainMemory := h
  have htarget := State.interruptEntry_pc_toNat hplain.1 (vector := irqVector) (by decide) (by decide)
  obtain ⟨hpc, hsp, hflags⟩ := hplain.returnFromInterrupt_of_entered (State.interruptEntry_bus _ irqVector)
    ((State.interruptEntry_sp _ _).trans (State.entered_sp _).symm) (State.interruptEntry_mem _ _)
  have hentry := State.interruptEntry_flags ((s.setPc (s.pc + 1#16)).setFlags { s.flags with b := true }) irqVector
  refine ⟨_, _, exec_brk s, congrArg Flags.i hentry, congrArg Flags.b hentry, (congrArg Flags.d hentry :), htarget,
    exec_rti _, ?_, hsp, hflags⟩
  rw [hpc, State.setFlags_pc, State.setPc_pc, BitVec.toNat_add]
  rfl

end Sys2Proof.Machine
end

