-- ==== Sys2Proof/Proofs/FlagInstructions.lean ====
section
/-!
The flag instructions and NOP (47_flags_nop.md R240 to R247). Settles O32.
-/

namespace Sys2Proof.Machine

/-- Settles O32: each flag instruction is `setFlags` of the flags found with one of them changed, and `setFlags` writes
the flags and nothing else. -/
theorem flagInstructionResults : Obligations.FlagInstructionResults := by
  refine ⟨⟨.of_entry, .of_entry, .of_entry, .of_entry, .of_entry, .of_entry, .of_entry, .of_entry⟩, fun s => ?_⟩
  exact ⟨exec_clc s, exec_sec s, exec_cli s, exec_sei s, exec_cld s, exec_sed s, exec_clv s, exec_nop s⟩

end Sys2Proof.Machine
end

