-- ==== Sys2Proof/Proofs/Undefined.lean ====
section
/-!
The undefined opcodes (48_undefined_opcodes.md R260). Settles O33.
-/

namespace Sys2Proof.Machine

/-- Settles O33: all 105 values have one entry in the dispatch table, a one-byte row without a fixed cost. -/
theorem undefinedOpcodeIsNoOp : Obligations.UndefinedOpcodeIsNoOp := by
  intro op hop
  have hentry := entryOf_of_mem_undefinedOpcodes hop
  refine ⟨fun rest => ?decodes, fun cfg => ?costs, fun s => exec_undefined s op⟩
  case decodes =>
    rw [decode_one (by rw [hentry]; rfl), hentry]
    rfl
  case costs =>
    rw [costOf, hentry]
    rfl

end Sys2Proof.Machine
end

