-- ==== Sys2Proof/Proofs/Interrupts.lean ====
section
/-!
The interrupt entry and the two Trigger calls (60_exceptions.md R304 to R314): what each call answers, and what two of them
answer one after the other. Settles O48, O49, O50 and O53.
-/

namespace Sys2Proof.Machine

variable {s t u : State}

/-! ## The interrupt entry -/

/-- Settles O48: with the bytes of PC as numbers, the entry is its definition. -/
theorem interruptEntrySequence : Obligations.InterruptEntrySequence := by
  intro s vector
  refine ⟨?state, ?sp, State.interruptEntry_a _ vector, State.interruptEntry_x _ vector, State.interruptEntry_y _ vector⟩
  case state =>
    simp only [← highByte_eq_ofNat, ← lowByte_eq_ofNat]
    exact State.interruptEntry_eq _ vector
  case sp =>
    rw [State.interruptEntry_sp]
    bv_omega

/-- The accumulator after an entry and its cost, from the one before the entry (60_exceptions.md R313). -/
theorem State.interruptEntry_addCycles (s : State) (vector : Word) (cost : Nat) :
    (s.interruptEntry vector).addCycles cost =
      { s.interruptEntry vector with cycles := s.cycles + (cost : Int) } := by
  rw [State.addCycles, State.interruptEntry_cycles]
  rfl

/-- On plain memory an interrupt entry leaves plain memory (20_memory.md R54). -/
theorem State.PlainMemory.interruptEntry (h : s.PlainMemory) (vector : Word) :
    (s.interruptEntry vector).PlainMemory := by
  have hpushed := ((h.push8 (highByte s.pc)).push8 (lowByte s.pc)).push8 s.pack
  refine ⟨(State.interruptEntry_bus _ vector).trans h.1, ?_⟩
  rw [State.interruptEntry_mem]
  exact hpushed.2

/-! ## What the Trigger calls answer -/

/-- TriggerNMI after Reset (60_exceptions.md R306). -/
theorem call_triggerNmi (hreset : s.resetDone = true) : call .triggerNmi s =
    .next ((s.interruptEntry nmiVector).addCycles s.config.intEntryCycles, .success) := by
  simp only [call, triggerNmi, hreset, returning]

/-- TriggerIRQ after Reset with I = 0 (60_exceptions.md R310). -/
theorem call_triggerIrq_serviced (hreset : s.resetDone = true) (hi : s.flags.i = false) : call .triggerIrq s =
    .next ((s.interruptEntry irqVector).addCycles s.config.intEntryCycles, .serviced true) := by
  simp only [call, triggerIrq, hreset, hi]

/-- TriggerIRQ after Reset with I = 1 (60_exceptions.md R311). -/
theorem call_triggerIrq_masked (hreset : s.resetDone = true) (hi : s.flags.i = true) :
    call .triggerIrq s = .next (s, .serviced false) := by
  simp only [call, triggerIrq, hreset, hi]

/-- Settles O49: TriggerNMI tests whether Reset has run, and nothing else. -/
theorem triggerNmiAlwaysEnters : Obligations.TriggerNmiAlwaysEnters := by
  intro s
  refine ⟨fun hreset => ?refused, fun hreset => ?entered, State.interruptEntry_frameSignal _ _⟩
  case refused => exact callsBeforeResetAreRefused.2 s hreset _ (by decide)
  case entered =>
    rw [call_triggerNmi hreset, State.interruptEntry_addCycles]
    rfl

/-- Settles O50: TriggerIRQ tests whether Reset has run, then I. -/
theorem triggerIrqIsGatedByI : Obligations.TriggerIrqIsGatedByI := by
  intro s
  refine ⟨fun hreset => ?refused, fun hreset hi => ?serviced, call_triggerIrq_masked⟩
  case refused => exact callsBeforeResetAreRefused.2 s hreset _ (by decide)
  case serviced =>
    rw [call_triggerIrq_serviced hreset hi, State.interruptEntry_addCycles]
    rfl

/-! ## Two Trigger calls, one after the other -/

/-- Two host calls that answer make a run of two (40_execution_cycle.md R105). -/
theorem runCalls_pair {c d : HostCall} {ret ret' : HostReturn} (hc : call c s = .next (t, ret))
    (hd : call d t = .next (u, ret')) : runCalls [c, d] s = .next (u, [ret, ret']) :=
  runCalls_cons_eq_next.mpr ⟨t, ret, [ret'], hc, runCalls_cons_eq_next.mpr ⟨u, ret', [], hd, rfl, rfl⟩, rfl⟩

/-- Settles O53: an entry sets I, so an IRQ after it is masked; an NMI after an IRQ's entry is an interrupt of the IRQ
handler, and its RTI resumes what it interrupted (O51). -/
theorem orderOfTriggersDecides : Obligations.OrderOfTriggersDecides := by
  intro s hreset
  have hreset' (vector : Word) (cost : Nat) : ((s.interruptEntry vector).addCycles cost).resetDone = true := by
    simpa [State.addCycles] using hreset
  have hi' (vector : Word) (cost : Nat) : ((s.interruptEntry vector).addCycles cost).flags.i = true := by
    simp [State.addCycles]
  have hnmi := call_triggerNmi hreset
  refine ⟨⟨_, hnmi, ?nmiThenIrq, fun hi => ?maskedIrqThenNmi⟩, fun hi hplain => ?irqThenNmi⟩
  case nmiThenIrq => exact runCalls_pair hnmi (call_triggerIrq_masked (hreset' _ _) (hi' _ _))
  case maskedIrqThenNmi => exact runCalls_pair (call_triggerIrq_masked hreset hi) hnmi
  case irqThenNmi =>
    have hirq := call_triggerIrq_serviced hreset hi
    have hnested := call_triggerNmi (hreset' irqVector s.config.intEntryCycles)
    have hhandler : ((s.interruptEntry irqVector).addCycles s.config.intEntryCycles).PlainMemory :=
      hplain.interruptEntry irqVector
    obtain ⟨-, v, hrti, hv⟩ := returnResumesTheInterruptedCode .triggerNmi _ _ _ hhandler (.inl rfl) hnested
    exact ⟨_, _, v, hirq, runCalls_pair hirq hnested, hrti, hv⟩

end Sys2Proof.Machine
end

