-- ==== Sys2Proof/Proofs/Reset.lean ====
section
/-!
Reset (70_reset_and_hazards.md R340, R341). Settles O55.
-/

namespace Sys2Proof.Machine

/-- Settles O55: a read's answer depends on no register, so the two reads are those of the state before the configured
values were set; the stubs answer 0 to both. -/
theorem resetInstallsConfiguredValues : Obligations.ResetInstallsConfiguredValues := by
  intro s
  refine ⟨?state, fun hstub => ?stub⟩
  case state =>
    simp only [← wordOf_eq_ofNat]
    rfl
  case stub =>
    simp [State.busAnswer_stub, hstub]

end Sys2Proof.Machine
end
